-- ==== Sys2Proof/Word.lean ====
section
/-! DEFINITION. The bit vectors the core computes with (spec 00_scope.md R6, R7): bytes, 16-bit words, and the two
operation widths. -/

namespace Sys2Proof

/-- A byte (R6: "byte size 8 bits"). -/
abbrev Byte := BitVec 8

/-- The value of a register slot, of an effective address and of IP (R6: XLEN and EA_BITS are 16). -/
abbrev Word := BitVec 16

/-- The operation width (R7, "The width bit"): `byte` is W = 0, `word` is W = 1. -/
inductive Width where
  | byte
  | word
  deriving DecidableEq, Repr

/-- The number n of bits of an operation width (R7). -/
@[reducible] def Width.bits : Width → Nat
  | .byte => 8
  | .word => 16

end Sys2Proof
end

