-- ==== Sys2Proof/Config.lean ====
section
/-! DEFINITION. The fixed sizes and the open parameters of the core (spec 00_scope.md R6, 92_eei_decisions.md "Open
parameters, in one place"). There is no free value: the spec leaves no result undefined. -/

namespace Sys2Proof

/-- MEM_SIZE: the bytes of data memory (R6, R33). -/
def memSize : Nat := 1048576

/-- The longest input buffer a launch may supply (10_state.md R25: "the launch premise is N <= 65536"). -/
def maxCode : Nat := 65536

/-- The conditions of the conditional jumps, in opcode order 0x70 to 0x7F (42_jcc.md R147). -/
inductive Cond where
  | o | no | b | nb | e | ne | be | a | s | ns | p | np | l | nl | le | g
  deriving DecidableEq, Repr

/-- WORD_AT_FFFF: what a 16-bit access at effective address 0xFFFF does (20_memory.md R55, D12). -/
inductive WordAtFFFF where
  /-- The access raises MemoryRangeFault: the spec's own value. -/
  | fault
  /-- The second byte is at data address 0x10000. -/
  | linear
  /-- The second byte is at data address 0x0000. -/
  | wrap16
  deriving DecidableEq, Repr

/-- The parameters the host chooses before a run and no program can read (R6, 60_exceptions.md R196). -/
structure Params where
  /-- The conditional jumps left out of JCC_ADMITTED. `jo`, `js` and `jp` are admitted whatever stands here
  (30_encoding.md R83: the set "contains 0x70, 0x78 and 0x7A"). -/
  jccLeftOut : List Cond
  /-- IA_STRICT (30_encoding.md R84). -/
  iaStrict : Bool
  /-- WORD_AT_FFFF (20_memory.md R55). -/
  wordAtFFFF : WordAtFFFF
  deriving DecidableEq, Repr

/-- The parameters at the spec's values (R6): all sixteen jumps, IA_STRICT false, WORD_AT_FFFF fault. -/
def Params.spec : Params := { jccLeftOut := [], iaStrict := false, wordAtFFFF := .fault }

end Sys2Proof
end

