-- ==== Sys2Proof/Syntax.lean ====
section
/-! DEFINITION. The instructions: one constructor for each of the 40 rows of spec/opcode_table.json. A constructor's
fields are the fields of the row's encoding (spec 30_encoding.md R68 to R77), decoded: every well-formed instruction
has exactly one byte sequence. -/

namespace Sys2Proof

/-- The segment registers (10_state.md R20). -/
inductive SegReg where
  | es | cs | ss | ds
  deriving DecidableEq, Repr

/-- The eight base sums of the addressing kinds, in RM-field order (20_memory.md R46). -/
inductive Base where
  | bxSi | bxDi | bpSi | bpDi | si | di | bp | bx
  deriving DecidableEq, Repr

/-- The displacement bytes after byte 2: none (MOD = 00), one (MOD = 01) or two (MOD = 10) (30_encoding.md R88 to
R90). -/
inductive Disp where
  | none
  | d8 (d : Byte)
  | d16 (d : Word)
  deriving DecidableEq, Repr

/-- The RM operand as its bytes give it (30_encoding.md R87 to R91). -/
inductive RM where
  /-- MOD = 11: the register numbered by the RM field. -/
  | reg (r : BitVec 3)
  /-- MOD = 00, RM = 110: a direct address. -/
  | direct (addr : Word)
  /-- Any other MOD and RM: a base sum and a displacement. -/
  | mem (b : Base) (d : Disp)
  deriving DecidableEq, Repr

/-- The three operations of the ALU (41_alu.md R125). -/
inductive AluOp where
  | add | sub | cmp
  deriving DecidableEq, Repr

/-- The instruction set (R3): the 40 rows of the opcode table. `w` is the W bit, `s` the S bit, `x` the bit of byte 1
that format IA does not examine (R84), `r` a 3-bit register number, `imm` the immediate as the decoder stores it, a
16-bit value (R92, R93), `rel` the displacement byte of format J (R77). -/
inductive Instr where
  -- MOV (40_mov.md R116 to R123)
  | movRmReg (w : Width) (rm : RM) (r : BitVec 3)
  | movRegRm (w : Width) (r : BitVec 3) (rm : RM)
  | movRmImm (w : Width) (rm : RM) (imm : Word)
  | movRegImm (w : Width) (r : BitVec 3) (imm : Word)
  | movAccMem (w : Width) (addr : Word)
  | movMemAcc (w : Width) (addr : Word)
  | movSegRm (sr : SegReg) (rm : RM)
  | movRmSeg (rm : RM) (sr : SegReg)
  -- ADD (41_alu.md R135 to R138)
  | addRmReg (w : Width) (rm : RM) (r : BitVec 3)
  | addRegRm (w : Width) (r : BitVec 3) (rm : RM)
  | addRmImm (s : Bool) (w : Width) (rm : RM) (imm : Word)
  | addAccImm (x : Bool) (w : Width) (imm : Word)
  -- SUB (R139 to R142)
  | subRmReg (w : Width) (rm : RM) (r : BitVec 3)
  | subRegRm (w : Width) (r : BitVec 3) (rm : RM)
  | subRmImm (s : Bool) (w : Width) (rm : RM) (imm : Word)
  | subAccImm (x : Bool) (w : Width) (imm : Word)
  -- CMP (R143 to R146)
  | cmpRmReg (w : Width) (rm : RM) (r : BitVec 3)
  | cmpRegRm (w : Width) (r : BitVec 3) (rm : RM)
  | cmpRmImm (s : Bool) (w : Width) (rm : RM) (imm : Word)
  | cmpAccImm (x : Bool) (w : Width) (imm : Word)
  -- conditional jumps (42_jcc.md R150 to R165)
  | jo (rel : Byte)
  | jno (rel : Byte)
  | jb (rel : Byte)
  | jnb (rel : Byte)
  | je (rel : Byte)
  | jne (rel : Byte)
  | jbe (rel : Byte)
  | ja (rel : Byte)
  | js (rel : Byte)
  | jns (rel : Byte)
  | jp (rel : Byte)
  | jnp (rel : Byte)
  | jl (rel : Byte)
  | jnl (rel : Byte)
  | jle (rel : Byte)
  | jg (rel : Byte)
  -- the CX-controlled branches (43_loop.md R167 to R170)
  | loopnz (rel : Byte)
  | loopz (rel : Byte)
  | loop (rel : Byte)
  | jcxz (rel : Byte)
  deriving DecidableEq, Repr

end Sys2Proof
end

