-- ==== Sys2Proof/WellFormed.lean ====
section
/-! DEFINITION. Which terms of `Instr` have an encoding (spec 30_encoding.md R88, R92): the instructions the decoder
can produce are exactly the well-formed ones. -/

namespace Sys2Proof

/-- With MOD = 00 the kind `[bp]` cannot be selected: its RM value is taken by the direct address (R88). -/
def RM.wf : RM → Bool
  | .mem .bp .none => false
  | _ => true

/-- The immediate's 16-bit value is one its bytes give (R92, with no S bit): one byte zero-extended when W = 0, any
value when W = 1. -/
def immWf : Width → Word → Bool
  | .byte, imm => imm == (imm.setWidth 8).setWidth 16
  | .word, _ => true

/-- The immediate of format IRM with an S bit (R92): one byte sign-extended when S = 1. -/
def immWfS : Bool → Width → Word → Bool
  | true, _, imm => imm == (imm.setWidth 8).signExtend 16
  | false, w, imm => immWf w imm

/-- The well-formed instructions: those that have an encoding. -/
def Instr.wf : Instr → Bool
  | .movRmReg _ rm _ => rm.wf
  | .movRegRm _ _ rm => rm.wf
  | .movRmImm w rm imm => rm.wf && immWf w imm
  | .movRegImm w _ imm => immWf w imm
  | .movAccMem _ _ => true
  | .movMemAcc _ _ => true
  | .movSegRm _ rm => rm.wf
  | .movRmSeg rm _ => rm.wf
  | .addRmReg _ rm _ => rm.wf
  | .addRegRm _ _ rm => rm.wf
  | .addRmImm s w rm imm => rm.wf && immWfS s w imm
  | .addAccImm _ w imm => immWf w imm
  | .subRmReg _ rm _ => rm.wf
  | .subRegRm _ _ rm => rm.wf
  | .subRmImm s w rm imm => rm.wf && immWfS s w imm
  | .subAccImm _ w imm => immWf w imm
  | .cmpRmReg _ rm _ => rm.wf
  | .cmpRegRm _ _ rm => rm.wf
  | .cmpRmImm s w rm imm => rm.wf && immWfS s w imm
  | .cmpAccImm _ w imm => immWf w imm
  | .jo _ => true
  | .jno _ => true
  | .jb _ => true
  | .jnb _ => true
  | .je _ => true
  | .jne _ => true
  | .jbe _ => true
  | .ja _ => true
  | .js _ => true
  | .jns _ => true
  | .jp _ => true
  | .jnp _ => true
  | .jl _ => true
  | .jnl _ => true
  | .jle _ => true
  | .jg _ => true
  | .loopnz _ => true
  | .loopz _ => true
  | .loop _ => true
  | .jcxz _ => true

end Sys2Proof
end

