-- ==== Sys2Proof/Decode.lean ====
section
/-! DEFINITION. The opcode classifier, the operand mode resolver and the decoder of spec 30_encoding.md, total on any
bytes; after them the lengths (R95) and the encoder, written from the same layouts (R70). -/

namespace Sys2Proof

/-- The decode-time fatal conditions, without the offset p that the fetch adds (60_exceptions.md R181, R187). -/
inductive DecodeError where
  /-- The dispatch bytes classify to nothing (R86). -/
  | unimplementedOpcode (b1 b2 : Byte)
  /-- Format SR with bit 5 of byte 2 set (R76). -/
  | illegalSegmentEncoding (b1 b2 : Byte)
  /-- More bytes are needed than remain (R97). -/
  | truncated (needed remaining : Nat)
  deriving DecidableEq, Repr

/-- What the classifier answers: "(encoding-family, operation)" (R78). -/
inductive Class where
  | movRM | movIRM | movMA | movIR | movSR
  | aluRM (op : AluOp)
  | aluIRM (op : AluOp)
  | aluIA (op : AluOp)
  | jcc (c : Cond)
  | loopnz | loopz | loop | jcxz
  deriving DecidableEq, Repr

/-! ## Fields of the dispatch bytes (R68, R69) -/

/-- Bits 7:2 of byte 1, `Byte1>>2`. -/
def top6 (b1 : Byte) : BitVec 6 := b1.extractLsb' 2 6

/-- W, bit 0 of byte 1. -/
def wField (b1 : Byte) : Width := if b1.getLsbD 0 then .word else .byte

/-- W of format IR, bit 3 of byte 1 (R74). -/
def wFieldIR (b1 : Byte) : Width := if b1.getLsbD 3 then .word else .byte

/-- Bit 1 of byte 1: D, S, or the bit that format IA does not examine. -/
def dField (b1 : Byte) : Bool := b1.getLsbD 1

/-- MOD, bits 7:6 of byte 2. -/
def modField (b2 : Byte) : BitVec 2 := b2.extractLsb' 6 2

/-- REG (or OP, or 0 ++ SR), bits 5:3 of byte 2. -/
def regField (b2 : Byte) : BitVec 3 := b2.extractLsb' 3 3

/-- RM, bits 2:0 of byte 2. -/
def rmField (b2 : Byte) : BitVec 3 := b2.extractLsb' 0 3

/-- A 16-bit field of an instruction stands low byte first (20_memory.md R53). -/
def wordOf (lo hi : Byte) : Word := hi ++ lo

/-- The base sum an RM field selects (20_memory.md R46). -/
def baseOf (rm : BitVec 3) : Base :=
  if rm = 0b000#3 then .bxSi
  else if rm = 0b001#3 then .bxDi
  else if rm = 0b010#3 then .bpSi
  else if rm = 0b011#3 then .bpDi
  else if rm = 0b100#3 then .si
  else if rm = 0b101#3 then .di
  else if rm = 0b110#3 then .bp
  else .bx

/-- The segment register a 2-bit field selects (10_state.md R20). -/
def segOf (sr : BitVec 2) : SegReg :=
  if sr = 0b00#2 then .es else if sr = 0b01#2 then .cs else if sr = 0b10#2 then .ss else .ds

/-- The condition of a conditional jump: bits 3:0 of byte 1 (42_jcc.md R147). -/
def condOf (cc : BitVec 4) : Cond :=
  if cc = 0b0000#4 then .o else if cc = 0b0001#4 then .no
  else if cc = 0b0010#4 then .b else if cc = 0b0011#4 then .nb
  else if cc = 0b0100#4 then .e else if cc = 0b0101#4 then .ne
  else if cc = 0b0110#4 then .be else if cc = 0b0111#4 then .a
  else if cc = 0b1000#4 then .s else if cc = 0b1001#4 then .ns
  else if cc = 0b1010#4 then .p else if cc = 0b1011#4 then .np
  else if cc = 0b1100#4 then .l else if cc = 0b1101#4 then .nl
  else if cc = 0b1110#4 then .le else .g

/-! ## The classifier (R78) -/

/-- JCC_ADMITTED holds the jump (R83): the set always contains 0x70, 0x78 and 0x7A. -/
def Params.admits (c : Params) (cc : Cond) : Bool :=
  cc == .o || cc == .s || cc == .p || !c.jccLeftOut.contains cc

/-- The immediate group: bits 5:3 of byte 2 select the operation (R80). -/
def classifyGroup (b1 b2 : Byte) : Except DecodeError Class :=
  if regField b2 = 0b000#3 then .ok (.aluIRM .add)
  else if regField b2 = 0b101#3 then .ok (.aluIRM .sub)
  else if regField b2 = 0b111#3 then .ok (.aluIRM .cmp)
  else .error (.unimplementedOpcode b1 b2)

/-- Format IA: bit 1 of byte 1 is not examined, unless IA_STRICT refuses it (R84). -/
def classifyIA (c : Params) (op : AluOp) (b1 b2 : Byte) : Except DecodeError Class :=
  if c.iaStrict && dField b1 then .error (.unimplementedOpcode b1 b2) else .ok (.aluIA op)

/-- MOV immediate to register/memory: bits 5:3 of byte 2 must be 000 (R81). -/
def classifyMovImm (b1 b2 : Byte) : Except DecodeError Class :=
  if regField b2 = 0b000#3 then .ok .movIRM else .error (.unimplementedOpcode b1 b2)

/-- A conditional jump outside JCC_ADMITTED is unimplemented (R83). -/
def classifyJcc (c : Params) (b1 b2 : Byte) : Except DecodeError Class :=
  if c.admits (condOf (b1.extractLsb' 0 4)) then .ok (.jcc (condOf (b1.extractLsb' 0 4)))
  else .error (.unimplementedOpcode b1 b2)

/-- `Classify(p)` on the two dispatch bytes (R78), its tests in the rule's order. -/
def classify (c : Params) (b1 b2 : Byte) : Except DecodeError Class :=
  -- the table over Byte1>>2 (R79)
  if top6 b1 = 0b000000#6 then .ok (.aluRM .add)
  else if top6 b1 = 0b001010#6 then .ok (.aluRM .sub)
  else if top6 b1 = 0b001110#6 then .ok (.aluRM .cmp)
  else if top6 b1 = 0b100010#6 then .ok .movRM
  else if top6 b1 = 0b000001#6 then classifyIA c .add b1 b2
  else if top6 b1 = 0b001011#6 then classifyIA c .sub b1 b2
  else if top6 b1 = 0b001111#6 then classifyIA c .cmp b1 b2
  else if top6 b1 = 0b101000#6 then .ok .movMA
  else if top6 b1 = 0b100000#6 then classifyGroup b1 b2
  -- seven and four fixed bits (R81, R82)
  else if b1.extractLsb' 1 7 = 0b1100011#7 then classifyMovImm b1 b2
  else if b1.extractLsb' 4 4 = 0b1011#4 then .ok .movIR
  -- full byte-1 values (R83)
  else if b1 = 0x8E#8 then .ok .movSR
  else if b1 = 0x8C#8 then .ok .movSR
  else if b1.extractLsb' 4 4 = 0x7#4 then classifyJcc c b1 b2
  else if b1 = 0xE0#8 then .ok .loopnz
  else if b1 = 0xE1#8 then .ok .loopz
  else if b1 = 0xE2#8 then .ok .loop
  else if b1 = 0xE3#8 then .ok .jcxz
  else .error (.unimplementedOpcode b1 b2)

/-! ## Later bytes: displacements and immediates

`total` is the number of bytes that remain from byte 1 on (N - p), `needed` the number the instruction is known to
need so far (R97). -/

/-- One more byte of the instruction, or TruncatedInstruction (R97). -/
def take8 (needed total : Nat) : List Byte → Except DecodeError Byte
  | b :: _ => .ok b
  | [] => .error (.truncated needed total)

/-- A 16-bit field of the instruction, low byte first (20_memory.md R53), or TruncatedInstruction (R97). -/
def take16 (needed total : Nat) : List Byte → Except DecodeError Word
  | lo :: hi :: _ => .ok (wordOf lo hi)
  | _ => .error (.truncated needed total)

/-- `ResolveRM` (R87 to R91): the operand MOD and RM select, and the number of displacement bytes. `tail` begins at
byte 3. -/
def resolveRM (total : Nat) (md : BitVec 2) (rm : BitVec 3) (tail : List Byte) : Except DecodeError (RM × Nat) :=
  if md = 0b11#2 then .ok (.reg rm, 0)
  else if md = 0b00#2 then
    if rm = 0b110#3 then (take16 4 total tail).map fun a => (.direct a, 2)
    else .ok (.mem (baseOf rm) .none, 0)
  else if md = 0b01#2 then (take8 3 total tail).map fun d => (.mem (baseOf rm) (.d8 d), 1)
  else (take16 4 total tail).map fun d => (.mem (baseOf rm) (.d16 d), 2)

/-- `ReadImm` (R92) at distance `q` from byte 1: the immediate's 16-bit value and its number of bytes. `s` is the S
bit, false for MOV. `bs` begins at the first immediate byte. -/
def readImm (total q : Nat) (s : Bool) (w : Width) (bs : List Byte) : Except DecodeError (Word × Nat) :=
  if s then (take8 (q + 1) total bs).map fun b => (b.signExtend 16, 1)
  else match w with
    | .word => (take16 (q + 2) total bs).map fun v => (v, 2)
    | .byte => (take8 (q + 1) total bs).map fun b => (b.setWidth 16, 1)

/-- The immediate of formats IR and IA, whose first byte is byte 2 (R74, R75), and the advance. -/
def readImmFrom2 (total : Nat) (w : Width) (b2 : Byte) (tail : List Byte) : Except DecodeError (Word × Nat) :=
  match w with
  | .word => (take8 3 total tail).map fun hi => (wordOf b2 hi, 3)
  | .byte => .ok (b2.setWidth 16, 2)

/-! ## The formats (R71 to R77) -/

/-- The row of a register/memory operation of the ALU; `d` is the direction bit (R71). -/
def aluRMInstr (op : AluOp) (d : Bool) (w : Width) (rm : RM) (r : BitVec 3) : Instr :=
  match op, d with
  | .add, false => .addRmReg w rm r
  | .add, true => .addRegRm w r rm
  | .sub, false => .subRmReg w rm r
  | .sub, true => .subRegRm w r rm
  | .cmp, false => .cmpRmReg w rm r
  | .cmp, true => .cmpRegRm w r rm

/-- The row of an immediate-to-register/memory operation of the ALU (R72). -/
def aluIRMInstr (op : AluOp) (s : Bool) (w : Width) (rm : RM) (imm : Word) : Instr :=
  match op with
  | .add => .addRmImm s w rm imm
  | .sub => .subRmImm s w rm imm
  | .cmp => .cmpRmImm s w rm imm

/-- The row of an immediate-to-accumulator operation (R75). -/
def aluIAInstr (op : AluOp) (x : Bool) (w : Width) (imm : Word) : Instr :=
  match op with
  | .add => .addAccImm x w imm
  | .sub => .subAccImm x w imm
  | .cmp => .cmpAccImm x w imm

/-- The row of a conditional jump (R83). -/
def jccInstr (c : Cond) (rel : Byte) : Instr :=
  match c with
  | .o => .jo rel
  | .no => .jno rel
  | .b => .jb rel
  | .nb => .jnb rel
  | .e => .je rel
  | .ne => .jne rel
  | .be => .jbe rel
  | .a => .ja rel
  | .s => .js rel
  | .ns => .jns rel
  | .p => .jp rel
  | .np => .jnp rel
  | .l => .jl rel
  | .nl => .jnl rel
  | .le => .jle rel
  | .g => .jg rel

/-- `DecodeRM`, for MOV and for the ALU operations (R71). -/
def decodeRM (total : Nat) (mk : Bool → Width → RM → BitVec 3 → Instr) (b1 b2 : Byte) (tail : List Byte) :
    Except DecodeError (Instr × Nat) :=
  (resolveRM total (modField b2) (rmField b2) tail).map fun p =>
    (mk (dField b1) (wField b1) p.1 (regField b2), 2 + p.2)

/-- `DecodeIRM` (R72); `s` is the S bit, false for MOV. -/
def decodeIRM (total : Nat) (mk : Width → RM → Word → Instr) (s : Bool) (b1 b2 : Byte) (tail : List Byte) :
    Except DecodeError (Instr × Nat) :=
  match resolveRM total (modField b2) (rmField b2) tail with
  | .error e => .error e
  | .ok (rm, dlen) =>
    (readImm total (2 + dlen) s (wField b1) (tail.drop dlen)).map fun p => (mk (wField b1) rm p.1, 2 + dlen + p.2)

/-- `DecodeMA` (R73): bit 1 of byte 1 = 0 loads the accumulator, 1 stores it. -/
def decodeMA (total : Nat) (b1 b2 : Byte) (tail : List Byte) : Except DecodeError (Instr × Nat) :=
  (take8 3 total tail).map fun hi =>
    (if dField b1 then .movMemAcc (wField b1) (wordOf b2 hi) else .movAccMem (wField b1) (wordOf b2 hi), 3)

/-- `DecodeIR` (R74): W is bit 3 of byte 1 and the register number its bits 2:0. -/
def decodeIR (total : Nat) (b1 b2 : Byte) (tail : List Byte) : Except DecodeError (Instr × Nat) :=
  (readImmFrom2 total (wFieldIR b1) b2 tail).map fun p => (.movRegImm (wFieldIR b1) (b1.extractLsb' 0 3) p.1, p.2)

/-- `DecodeIA` (R75). -/
def decodeIA (total : Nat) (op : AluOp) (b1 b2 : Byte) (tail : List Byte) : Except DecodeError (Instr × Nat) :=
  (readImmFrom2 total (wField b1) b2 tail).map fun p => (aluIAInstr op (dField b1) (wField b1) p.1, p.2)

/-- `DecodeSR` (R76): the check of bit 5 of byte 2 comes before the displacement bytes are read. -/
def decodeSR (total : Nat) (b1 b2 : Byte) (tail : List Byte) : Except DecodeError (Instr × Nat) :=
  if b2.getLsbD 5 then .error (.illegalSegmentEncoding b1 b2)
  else (resolveRM total (modField b2) (rmField b2) tail).map fun p =>
    (if b1 = 0x8E#8 then .movSegRm (segOf (b2.extractLsb' 3 2)) p.1 else .movRmSeg p.1 (segOf (b2.extractLsb' 3 2)),
      2 + p.2)

/-- The format a class stands for, decoded from the dispatch bytes and the bytes after them. -/
def decodeBody (k : Class) (total : Nat) (b1 b2 : Byte) (tail : List Byte) : Except DecodeError (Instr × Nat) :=
  match k with
  | .movRM => decodeRM total (fun d w rm r => if d then .movRegRm w r rm else .movRmReg w rm r) b1 b2 tail
  | .aluRM op => decodeRM total (aluRMInstr op) b1 b2 tail
  | .movIRM => decodeIRM total .movRmImm false b1 b2 tail
  | .aluIRM op => decodeIRM total (aluIRMInstr op (dField b1)) (dField b1) b1 b2 tail
  | .movMA => decodeMA total b1 b2 tail
  | .movIR => decodeIR total b1 b2 tail
  | .aluIA op => decodeIA total op b1 b2 tail
  | .movSR => decodeSR total b1 b2 tail
  | .jcc c => .ok (jccInstr c b2, 2)
  | .loopnz => .ok (.loopnz b2, 2)
  | .loopz => .ok (.loopz b2, 2)
  | .loop => .ok (.loop b2, 2)
  | .jcxz => .ok (.jcxz b2, 2)

/-- `Decode(p)` (R67) on the bytes that remain from offset p on: the instruction and its advance, or a decode-time
fatal condition. A single remaining byte is never classified (R97). -/
def decode (c : Params) (bs : List Byte) : Except DecodeError (Instr × Nat) :=
  match bs with
  | b1 :: b2 :: tail =>
    match classify c b1 b2 with
    | .error e => .error e
    | .ok k => decodeBody k bs.length b1 b2 tail
  | _ => .error (.truncated 2 bs.length)

/-! ## Lengths (R91, R92, R95) -/

/-- dlen: the number of displacement bytes (R91). -/
def RM.dispLen : RM → Nat
  | .reg _ => 0
  | .direct _ => 2
  | .mem _ .none => 0
  | .mem _ (.d8 _) => 1
  | .mem _ (.d16 _) => 2

/-- The number of immediate bytes without an S bit: 1 + W (R92). -/
def Width.immLen : Width → Nat
  | .byte => 1
  | .word => 2

/-- ilen of format IRM (R92): 1 when W = 0 or S = 1, otherwise 2. -/
def immLenS (s : Bool) (w : Width) : Nat := if s then 1 else w.immLen

/-- The advance L of each format (R95). -/
def Instr.length : Instr → Nat
  | .movRmReg _ rm _ => 2 + rm.dispLen
  | .movRegRm _ _ rm => 2 + rm.dispLen
  | .movRmImm w rm _ => 2 + rm.dispLen + w.immLen
  | .movRegImm w _ _ => 1 + w.immLen
  | .movAccMem _ _ => 3
  | .movMemAcc _ _ => 3
  | .movSegRm _ rm => 2 + rm.dispLen
  | .movRmSeg rm _ => 2 + rm.dispLen
  | .addRmReg _ rm _ => 2 + rm.dispLen
  | .addRegRm _ _ rm => 2 + rm.dispLen
  | .addRmImm s w rm _ => 2 + rm.dispLen + immLenS s w
  | .addAccImm _ w _ => 1 + w.immLen
  | .subRmReg _ rm _ => 2 + rm.dispLen
  | .subRegRm _ _ rm => 2 + rm.dispLen
  | .subRmImm s w rm _ => 2 + rm.dispLen + immLenS s w
  | .subAccImm _ w _ => 1 + w.immLen
  | .cmpRmReg _ rm _ => 2 + rm.dispLen
  | .cmpRegRm _ _ rm => 2 + rm.dispLen
  | .cmpRmImm s w rm _ => 2 + rm.dispLen + immLenS s w
  | .cmpAccImm _ w _ => 1 + w.immLen
  | .jo _ => 2
  | .jno _ => 2
  | .jb _ => 2
  | .jnb _ => 2
  | .je _ => 2
  | .jne _ => 2
  | .jbe _ => 2
  | .ja _ => 2
  | .js _ => 2
  | .jns _ => 2
  | .jp _ => 2
  | .jnp _ => 2
  | .jl _ => 2
  | .jnl _ => 2
  | .jle _ => 2
  | .jg _ => 2
  | .loopnz _ => 2
  | .loopz _ => 2
  | .loop _ => 2
  | .jcxz _ => 2

/-! ## The encoder: the layouts of R70 -/

/-- The W bit. -/
def Width.bit : Width → BitVec 1
  | .byte => 0#1
  | .word => 1#1

/-- The RM field of a base sum (20_memory.md R46). -/
def Base.bits : Base → BitVec 3
  | .bxSi => 0b000#3
  | .bxDi => 0b001#3
  | .bpSi => 0b010#3
  | .bpDi => 0b011#3
  | .si => 0b100#3
  | .di => 0b101#3
  | .bp => 0b110#3
  | .bx => 0b111#3

/-- The 2-bit segment-register field (10_state.md R20). -/
def SegReg.bits : SegReg → BitVec 2
  | .es => 0b00#2
  | .cs => 0b01#2
  | .ss => 0b10#2
  | .ds => 0b11#2

/-- The MOD field of an RM operand (R91). -/
def RM.modBits : RM → BitVec 2
  | .reg _ => 0b11#2
  | .direct _ => 0b00#2
  | .mem _ .none => 0b00#2
  | .mem _ (.d8 _) => 0b01#2
  | .mem _ (.d16 _) => 0b10#2

/-- The RM field of an RM operand (R91). -/
def RM.rmBits : RM → BitVec 3
  | .reg r => r
  | .direct _ => 0b110#3
  | .mem b _ => b.bits

/-- The two bytes of a 16-bit field, low byte first (20_memory.md R53). -/
def wordBytes (v : Word) : List Byte := [v.extractLsb' 0 8, v.extractLsb' 8 8]

/-- The displacement bytes of an RM operand (R88 to R90). -/
def RM.dispBytes : RM → List Byte
  | .reg _ => []
  | .direct a => wordBytes a
  | .mem _ .none => []
  | .mem _ (.d8 d) => [d]
  | .mem _ (.d16 d) => wordBytes d

/-- Byte 2 of the formats with a MOD/REG/RM byte (R69). -/
def modRmByte (rm : RM) (mid : BitVec 3) : Byte := rm.modBits ++ mid ++ rm.rmBits

/-- Byte 1 of the layout `ooooooow` (R70). -/
def opcodeW (op : BitVec 7) (w : Width) : Byte := op ++ w.bit

/-- Byte 1 of the layouts `ooooooxw` and `100000sw` (R70). -/
def opcodeBW (op : BitVec 6) (b : Bool) (w : Width) : Byte := op ++ BitVec.ofBool b ++ w.bit

/-- The immediate bytes without an S bit (R92). -/
def immBytes : Width → Word → List Byte
  | .byte, imm => [imm.extractLsb' 0 8]
  | .word, imm => wordBytes imm

/-- The immediate bytes of format IRM (R92). -/
def immBytesS (s : Bool) (w : Width) (imm : Word) : List Byte :=
  if s then [imm.extractLsb' 0 8] else immBytes w imm

/-- Format RM (R70): opcode, D and W in byte 1. -/
def encodeRM (op : BitVec 7) (w : Width) (rm : RM) (mid : BitVec 3) : List Byte :=
  opcodeW op w :: modRmByte rm mid :: rm.dispBytes

/-- The bytes of an instruction (R70 to R77, R79 to R83). -/
def encode : Instr → List Byte
  | .movRmReg w rm r => encodeRM 0b1000100#7 w rm r
  | .movRegRm w r rm => encodeRM 0b1000101#7 w rm r
  | .movRmImm w rm imm => encodeRM 0b1100011#7 w rm 0b000#3 ++ immBytes w imm
  | .movRegImm w r imm => (0b1011#4 ++ w.bit ++ r : Byte) :: immBytes w imm
  | .movAccMem w addr => opcodeW 0b1010000#7 w :: wordBytes addr
  | .movMemAcc w addr => opcodeW 0b1010001#7 w :: wordBytes addr
  | .movSegRm sr rm => 0x8E#8 :: modRmByte rm (0#1 ++ sr.bits) :: rm.dispBytes
  | .movRmSeg rm sr => 0x8C#8 :: modRmByte rm (0#1 ++ sr.bits) :: rm.dispBytes
  | .addRmReg w rm r => encodeRM 0b0000000#7 w rm r
  | .addRegRm w r rm => encodeRM 0b0000001#7 w rm r
  | .addRmImm s w rm imm => opcodeBW 0b100000#6 s w :: modRmByte rm 0b000#3 :: (rm.dispBytes ++ immBytesS s w imm)
  | .addAccImm x w imm => opcodeBW 0b000001#6 x w :: immBytes w imm
  | .subRmReg w rm r => encodeRM 0b0010100#7 w rm r
  | .subRegRm w r rm => encodeRM 0b0010101#7 w rm r
  | .subRmImm s w rm imm => opcodeBW 0b100000#6 s w :: modRmByte rm 0b101#3 :: (rm.dispBytes ++ immBytesS s w imm)
  | .subAccImm x w imm => opcodeBW 0b001011#6 x w :: immBytes w imm
  | .cmpRmReg w rm r => encodeRM 0b0011100#7 w rm r
  | .cmpRegRm w r rm => encodeRM 0b0011101#7 w rm r
  | .cmpRmImm s w rm imm => opcodeBW 0b100000#6 s w :: modRmByte rm 0b111#3 :: (rm.dispBytes ++ immBytesS s w imm)
  | .cmpAccImm x w imm => opcodeBW 0b001111#6 x w :: immBytes w imm
  | .jo rel => [0x70#8, rel]
  | .jno rel => [0x71#8, rel]
  | .jb rel => [0x72#8, rel]
  | .jnb rel => [0x73#8, rel]
  | .je rel => [0x74#8, rel]
  | .jne rel => [0x75#8, rel]
  | .jbe rel => [0x76#8, rel]
  | .ja rel => [0x77#8, rel]
  | .js rel => [0x78#8, rel]
  | .jns rel => [0x79#8, rel]
  | .jp rel => [0x7A#8, rel]
  | .jnp rel => [0x7B#8, rel]
  | .jl rel => [0x7C#8, rel]
  | .jnl rel => [0x7D#8, rel]
  | .jle rel => [0x7E#8, rel]
  | .jg rel => [0x7F#8, rel]
  | .loopnz rel => [0xE0#8, rel]
  | .loopz rel => [0xE1#8, rel]
  | .loop rel => [0xE2#8, rel]
  | .jcxz rel => [0xE3#8, rel]

/-- The condition a constructor of the conditional jumps tests; none for the other instructions. -/
def Instr.cond? : Instr → Option Cond
  | .jo _ => some .o
  | .jno _ => some .no
  | .jb _ => some .b
  | .jnb _ => some .nb
  | .je _ => some .e
  | .jne _ => some .ne
  | .jbe _ => some .be
  | .ja _ => some .a
  | .js _ => some .s
  | .jns _ => some .ns
  | .jp _ => some .p
  | .jnp _ => some .np
  | .jl _ => some .l
  | .jnl _ => some .nl
  | .jle _ => some .le
  | .jg _ => some .g
  | _ => none

/-- The bit of byte 1 that format IA does not examine (R84); false for the other formats. -/
def Instr.iaBit : Instr → Bool
  | .addAccImm x _ _ => x
  | .subAccImm x _ _ => x
  | .cmpAccImm x _ _ => x
  | _ => false

/-- The parameters let the instruction's encoding decode: a conditional jump is in JCC_ADMITTED (R83), and IA_STRICT
does not refuse bit 1 of format IA (R84). -/
def Params.allows (c : Params) (i : Instr) : Bool :=
  (match i.cond? with
    | some cc => c.admits cc
    | none => true) && !(c.iaStrict && i.iaBit)

/-! ## The opcode table's words -/

/-- The first `n` bytes of a number, least significant byte first. -/
def bytesLE : Nat → Nat → List Byte
  | 0, _ => []
  | n + 1, v => BitVec.ofNat 8 v :: bytesLE n (v / 256)

/-- The instruction's six bytes (the longest instruction, R95), zeros above `nbits`. The table's first word is the
dispatch word DW = byte 1 * 256 + byte 2 (30_encoding.md, "Conventions of opcode_table.json"), stored byte 1 first;
bits from 16 on are the bytes after it, in stream order. Every row of the table has exactly 16 bits. -/
def tableCode (nbits w : Nat) : List Byte :=
  if nbits ≤ 8 then BitVec.ofNat 8 w :: List.replicate 5 0#8
  else BitVec.ofNat 8 (w / 256) :: BitVec.ofNat 8 w ::
    (bytesLE (nbits / 8 - 2) (w / 65536) ++ List.replicate (6 - nbits / 8) 0#8)

/-- What the decoder reads from a word of the opcode table, at the spec's parameters. -/
def decodeTableWord (nbits w : Nat) : Option Instr :=
  match decode Params.spec (tableCode nbits w) with
  | .ok (i, _) => some i
  | .error _ => none

end Sys2Proof
end

