-- ==== Sys2Proof/Machine/State.lean ====
section
/-! DEFINITION. Everything the spec gives the machine, as plain data (spec 10_state.md), the ways a step can stop
(60_exceptions.md R181), and the reset state (70_reset_and_hazards.md R197). -/

namespace Sys2Proof.Machine

/-- The twelve register slots an instruction can name, in the source's order (10_state.md R9, R11). The other two of
the fourteen slots, IP and FLAGS, are named by no operand (R26, R31). -/
inductive Slot where
  | ax | bx | cx | dx | sp | bp | si | di | es | cs | ss | ds
  deriving DecidableEq, Repr

/-- The twelve slots' contents (R9, R12, R19). The byte registers are views into AX, BX, CX, DX, not storage (R13). -/
structure RegFile where
  ax : Word
  bx : Word
  cx : Word
  dx : Word
  sp : Word
  bp : Word
  si : Word
  di : Word
  es : Word
  cs : Word
  ss : Word
  ds : Word
  deriving DecidableEq, Repr

/-- The six flags of the FLAGS slot (R27). Its other ten bits are constant 0 (R28) and have no storage; the whole word
is `Flags.toWord`. -/
structure Flags where
  cf : Bool
  pf : Bool
  af : Bool
  zf : Bool
  sf : Bool
  of : Bool
  deriving DecidableEq, Repr

/-- The data memory (R33, R40): (address, byte) pairs, addresses strictly rising, no entry of byte 0. An unlisted
address reads 0, the default of MEM_INIT. -/
abbrev Memory := List Host.Cell

/-- What the host fixes before the run (50_step_cycle.md R179): the input buffer CODE, whose length is N, and the
parameters. It is not state of the core (R34): no step writes it. -/
structure Launch where
  code : List Byte
  params : Params
  deriving DecidableEq, Repr

/-- The whole machine: fourteen register slots, the data memory, and the launch the run was started with. -/
structure State where
  regs : RegFile
  ip : Word
  flags : Flags
  mem : Memory
  launch : Launch
  deriving DecidableEq, Repr

/-- The five fatal conditions (60_exceptions.md R181), each with its recorded information; `p` is the offset of byte 1
of the faulting instruction (R187). All are the spec's own: each ends the run, so stopping is what the hardware does
(safe). -/
inductive Fault where
  /-- Code 1, raised by the decoder when the dispatch bytes classify to nothing (R182). Safe. -/
  | unimplementedOpcode (p : Word) (b1 b2 : Byte)
  /-- Code 2, raised by the decoder for a segment-register move with bit 5 of byte 2 set (R183). Safe. -/
  | illegalSegmentEncoding (p : Word) (b1 b2 : Byte)
  /-- Code 3, raised by the decoder when more bytes are needed than remain (R184). Safe. -/
  | truncatedInstruction (p : Word) (needed remaining : Nat)
  /-- Code 4, raised by a read or a write of a word at effective address 0xFFFF under WORD_AT_FFFF = fault (R185).
  Safe: the spec's own value ("a fault asserts nothing false", D12). -/
  | memoryRangeFault (p ea : Word) (width : Width)
  /-- Code 5, raised by the fetch on an advance below 2; unreachable (R186). Safe. -/
  | decoderInvariantViolation (p : Word)
  deriving DecidableEq, Repr

/-- Why no step is taken although no fatal condition was raised. -/
inductive Refusal where
  /-- Raised by an arm of `exec` whose instruction has no meaning yet; no arm does. Safe. -/
  | notModelled (mnemonic : String)
  /-- Raised by `step` when IP >= N: the run has ended normally, the state is the final state, and the spec defines no
  step (50_step_cycle.md R171, R172; R199 "the core does nothing further"). Safe. -/
  | runEnded
  /-- Raised by `step` when CODE is longer than 65536 bytes: "a model refuses (does not start) a longer buffer"
  (10_state.md R25). Safe. -/
  | codeTooLong
  deriving DecidableEq, Repr

/-- Every slot 0x0000 (R38). -/
def RegFile.zero : RegFile :=
  { ax := 0, bx := 0, cx := 0, dx := 0, sp := 0, bp := 0, si := 0, di := 0, es := 0, cs := 0, ss := 0, ds := 0 }

/-- Every flag clear (R39). -/
def Flags.clear : Flags :=
  { cf := false, pf := false, af := false, zf := false, sf := false, of := false }

/-- The reset state of a run launched with CODE, MEM_INIT (in canonical form) and the parameters (R38 to R40, R197). -/
def State.launched (code : List Byte) (memInit : Memory) (params : Params) : State :=
  { regs := RegFile.zero, ip := 0, flags := Flags.clear, mem := memInit, launch := { code := code, params := params } }

/-- The machine right after reset, before the host has supplied a program: every register, IP and FLAGS 0x0000 (R38,
R39), memory at MEM_INIT's default, all 0x00 (R40), the parameters at the spec's values, and an empty buffer. -/
def State.reset : State := State.launched [] [] Params.spec

end Sys2Proof.Machine
end

