-- ==== Sys2Proof/Machine/Ops.lean ====
section
/-! DEFINITION. The named operations over registers, IP and memory (spec 10_state.md sections 1 to 4, 20_memory.md
sections 2 to 5) and the one way an instruction is abandoned (60_exceptions.md R188). -/

namespace Sys2Proof.Machine

/-! ## Registers (10_state.md R10) -/

/-- `R[x]`. -/
def RegFile.get (rf : RegFile) : Slot → Word
  | .ax => rf.ax
  | .bx => rf.bx
  | .cx => rf.cx
  | .dx => rf.dx
  | .sp => rf.sp
  | .bp => rf.bp
  | .si => rf.si
  | .di => rf.di
  | .es => rf.es
  | .cs => rf.cs
  | .ss => rf.ss
  | .ds => rf.ds

/-- `R[x] <- v`. -/
def RegFile.set (rf : RegFile) (x : Slot) (v : Word) : RegFile :=
  match x with
  | .ax => { rf with ax := v }
  | .bx => { rf with bx := v }
  | .cx => { rf with cx := v }
  | .dx => { rf with dx := v }
  | .sp => { rf with sp := v }
  | .bp => { rf with bp := v }
  | .si => { rf with si := v }
  | .di => { rf with di := v }
  | .es => { rf with es := v }
  | .cs => { rf with cs := v }
  | .ss => { rf with ss := v }
  | .ds => { rf with ds := v }

/-- The FLAGS slot as a 16-bit word: CF bit 0, PF 2, AF 4, ZF 6, SF 7, OF 11, every other bit 0 (R27, R28). -/
def Flags.toWord (f : Flags) : Word :=
  0b0000#4 ++ BitVec.ofBool f.of ++ 0b000#3 ++ BitVec.ofBool f.sf ++ BitVec.ofBool f.zf ++ 0#1 ++ BitVec.ofBool f.af ++
    0#1 ++ BitVec.ofBool f.pf ++ 0#1 ++ BitVec.ofBool f.cf

/-! ## IP (10_state.md R24, R25) -/

/-- IP past an instruction of length `len`, mod 2^16. -/
def State.advance (s : State) (len : Nat) : State := { s with ip := s.ip + BitVec.ofNat 16 len }

/-- A taken jump or loop: the signed displacement byte is added to IP, mod 2^16 (42_jcc.md R148). -/
def State.branch (s : State) (rel : Byte) : State := { s with ip := s.ip + rel.signExtend 16 }

/-! ## Data memory (20_memory.md R43, R50 to R55) -/

/-- The byte at a data address: an unlisted address reads 0x00 (10_state.md R40). -/
def Memory.read : Memory → Nat → Byte
  | [], _ => 0#8
  | (b, v) :: rest, a => if a = b then v else Memory.read rest a

/-- Write one byte and keep the canonical form: a byte of 0 has no entry. -/
def Memory.write : Memory → Nat → Byte → Memory
  | [], a, v => if v = 0#8 then [] else [(a, v)]
  | (b, u) :: rest, a, v =>
    if a < b then (if v = 0#8 then (b, u) :: rest else (a, v) :: (b, u) :: rest)
    else if a = b then (if v = 0#8 then rest else (a, v) :: rest)
    else (b, u) :: Memory.write rest a v

/-- The canonical form: from address `lo` on, addresses strictly rise and stay below MEM_SIZE, and no byte is 0. -/
def Memory.wfFrom : Nat → Memory → Bool
  | _, [] => true
  | lo, (a, v) :: rest => decide (lo ≤ a) && decide (a < memSize) && decide (v ≠ 0#8) && Memory.wfFrom (a + 1) rest

/-- The memory is in its canonical form. -/
def Memory.wf (m : Memory) : Bool := Memory.wfFrom 0 m

/-- An access of this width at this address is out of range: a word at EA = 0xFFFF, under WORD_AT_FFFF = fault (R55).
Every other access touches only addresses below MEM_SIZE (R56). -/
def rangeFaults (policy : WordAtFFFF) (ea : Word) : Width → Bool
  | .byte => false
  | .word => ea == 0xFFFF#16 && policy == .fault

/-- The data address of a word's high byte: the next address (R50), or the one WORD_AT_FFFF gives at EA = 0xFFFF
(D12). Under `fault` the access is refused before this is used. -/
def highAddr (policy : WordAtFFFF) (ea : Word) : Nat :=
  if ea = 0xFFFF#16 then (if policy = .wrap16 then 0 else 0x10000) else ea.toNat + 1

/-- The data addresses an access touches, low byte first. -/
def accessed (policy : WordAtFFFF) (ea : Word) : Width → List Nat
  | .byte => [ea.toNat]
  | .word => [ea.toNat, highAddr policy ea]

/-- The little-endian value at an address (R50, R51). -/
def Memory.load (m : Memory) (policy : WordAtFFFF) (ea : Word) : (w : Width) → BitVec w.bits
  | .byte => m.read ea.toNat
  | .word => m.read (highAddr policy ea) ++ m.read ea.toNat

/-- Store a value at an address, little-endian (R50, R52). -/
def Memory.store (m : Memory) (policy : WordAtFFFF) (ea : Word) : (w : Width) → BitVec w.bits → Memory
  | .byte, v => m.write ea.toNat v
  | .word, v => (m.write ea.toNat (v.extractLsb' 0 8)).write (highAddr policy ea) (v.extractLsb' 8 8)

/-- WORD_AT_FFFF of the running launch. -/
def State.policy (s : State) : WordAtFFFF := s.launch.params.wordAtFFFF

/-- `MemRead(addr, n)` by the instruction at offset `p` (R51). -/
def memRead (p ea : Word) (w : Width) (s : State) : Except Fault (BitVec w.bits) :=
  if rangeFaults s.policy ea w then .error (.memoryRangeFault p ea w) else .ok (s.mem.load s.policy ea w)

/-- `MemWrite(addr, n, v)` by the instruction at offset `p` (R52). -/
def memWrite (p ea : Word) (w : Width) (v : BitVec w.bits) (s : State) : Except Fault State :=
  if rangeFaults s.policy ea w then .error (.memoryRangeFault p ea w)
  else .ok { s with mem := s.mem.store s.policy ea w v }

/-- The image of the whole data memory after a run: byte i is M[i] (50_step_cycle.md R179). -/
def memoryDump (m : Memory) : List Byte := (List.range memSize).map m.read

/-! ## Fatal conditions (60_exceptions.md R188, R189) -/

/-- `raise X(info)`: every effect of the step is discarded and the machine stops. The core has no vector, no handler,
no saved register and no return (R188, R192): this is all that taking an exception is. -/
def raise (f : Fault) : Host.Outcome State Fault Refusal := .fault f

/-- The condition's code (R181). -/
def Fault.code : Fault → Nat
  | .unimplementedOpcode _ _ _ => 1
  | .illegalSegmentEncoding _ _ _ => 2
  | .truncatedInstruction _ _ _ => 3
  | .memoryRangeFault _ _ _ => 4
  | .decoderInvariantViolation _ => 5

end Sys2Proof.Machine
end

