-- ==== Sys2Proof/Machine/Flags.lean ====
section
/-! DEFINITION. The ALU and its flag generator (spec 41_alu.md R124 to R131), and the condition evaluator (42_jcc.md
R147). -/

namespace Sys2Proof.Machine

/-- The result r, an n-bit value (R125). -/
def aluResult {n : Nat} (op : AluOp) (a b : BitVec n) : BitVec n :=
  match op with
  | .add => a + b
  | .sub => a - b
  | .cmp => a - b

/-- CF (R126): the unwrapped sum exceeds 2^n - 1, or the difference borrows. -/
def carryFlag {n : Nat} (op : AluOp) (a b : BitVec n) : Bool :=
  match op with
  | .add => decide (2 ^ n - 1 < a.toNat + b.toNat)
  | .sub => decide (a.toNat < b.toNat)
  | .cmp => decide (a.toNat < b.toNat)

/-- AF (R127): carry or borrow between bit 3 and bit 4 of the n-bit inputs. -/
def auxFlag {n : Nat} (op : AluOp) (a b : BitVec n) : Bool :=
  match op with
  | .add => decide (15 < a.toNat % 16 + b.toNat % 16)
  | .sub => decide (a.toNat % 16 < b.toNat % 16)
  | .cmp => decide (a.toNat % 16 < b.toNat % 16)

/-- OF (R128): signed overflow, from the signs of the inputs and of the result. -/
def overflowFlag {n : Nat} (op : AluOp) (a b : BitVec n) : Bool :=
  match op with
  | .add => a.msb == b.msb && (a + b).msb != a.msb
  | .sub => a.msb != b.msb && (a - b).msb != a.msb
  | .cmp => a.msb != b.msb && (a - b).msb != a.msb

/-- The number of 1 bits among the low `k` bits (00_scope.md R7, popcount). -/
def popcount {n : Nat} (v : BitVec n) : Nat → Nat
  | 0 => 0
  | k + 1 => popcount v k + (v.getLsbD k).toNat

/-- PF (R131): an even number of 1 bits in the low 8 bits of the result, whatever the width. -/
def parityFlag {n : Nat} (r : BitVec n) : Bool := popcount r 8 % 2 == 0

/-- All six flags of an ADD, SUB or CMP on n-bit inputs (R126 to R131). -/
def aluFlags {n : Nat} (op : AluOp) (a b : BitVec n) : Flags :=
  { cf := carryFlag op a b
    pf := parityFlag (aluResult op a b)
    af := auxFlag op a b
    zf := aluResult op a b == 0
    sf := (aluResult op a b).msb
    of := overflowFlag op a b }

/-- `Cond(cc)`: the condition evaluator (42_jcc.md R147). `jo` tests OF = 1 (R150), so after a comparison it is true when
the signed difference does not fit (41_alu.md R128); the `jo` / `jno` row of R149 says the reverse and is not followed
(DESIGN CHOICE, log 19). -/
def evalCond (f : Flags) : Cond → Bool
  | .o => f.of
  | .no => !f.of
  | .b => f.cf
  | .nb => !f.cf
  | .e => f.zf
  | .ne => !f.zf
  | .be => f.cf || f.zf
  | .a => !f.cf && !f.zf
  | .s => f.sf
  | .ns => !f.sf
  | .p => f.pf
  | .np => !f.pf
  | .l => f.sf != f.of
  | .nl => f.sf == f.of
  | .le => f.zf || f.sf != f.of
  | .g => !f.zf && f.sf == f.of

end Sys2Proof.Machine
end

