-- ==== Sys2Proof/Machine/Operands.lean ====
section
/-! DEFINITION. Operands: register references with byte-half aliasing (spec 10_state.md R13 to R17, R20), effective
addresses (20_memory.md R45 to R48), and reading and writing an operand (40_mov.md R111 to R113). -/

namespace Sys2Proof.Machine

/-! ## Register references -/

/-- The slots that have byte halves (10_state.md R13). -/
inductive ByteSlot where
  | ax | bx | cx | dx
  deriving DecidableEq, Repr

/-- The slot a byte half is a view of. -/
def ByteSlot.slot : ByteSlot → Slot
  | .ax => .ax
  | .bx => .bx
  | .cx => .cx
  | .dx => .dx

/-- A register reference {identity, width} (R13), typed by the width of its value (40_mov.md R111). -/
inductive Reg : Width → Type where
  | full (x : Slot) : Reg .word
  | low (x : ByteSlot) : Reg .byte
  | high (x : ByteSlot) : Reg .byte

/-- The slot a register reference names. -/
def Reg.slot : {w : Width} → Reg w → Slot
  | _, .full x => x
  | _, .low x => x.slot
  | _, .high x => x.slot

/-- `RegRead(r)` (R14). -/
def RegFile.readReg (rf : RegFile) : {w : Width} → Reg w → BitVec w.bits
  | _, .full x => rf.get x
  | _, .low x => (rf.get x.slot).extractLsb' 0 8
  | _, .high x => (rf.get x.slot).extractLsb' 8 8

/-- `RegWrite(r, v)` (R15): a half write preserves the other half. -/
def RegFile.writeReg (rf : RegFile) : {w : Width} → Reg w → BitVec w.bits → RegFile
  | _, .full x, v => rf.set x v
  | _, .low x, v => rf.set x.slot (BitVec.append ((rf.get x.slot).extractLsb' 8 8) v)
  | _, .high x, v => rf.set x.slot (BitVec.append v ((rf.get x.slot).extractLsb' 0 8))

/-- `Reg(field, W)` with W = 1 (R17). -/
def wordReg (r : BitVec 3) : Reg .word :=
  if r = 0b000#3 then .full .ax
  else if r = 0b001#3 then .full .cx
  else if r = 0b010#3 then .full .dx
  else if r = 0b011#3 then .full .bx
  else if r = 0b100#3 then .full .sp
  else if r = 0b101#3 then .full .bp
  else if r = 0b110#3 then .full .si
  else .full .di

/-- `Reg(field, W)` with W = 0 (R17). -/
def byteReg (r : BitVec 3) : Reg .byte :=
  if r = 0b000#3 then .low .ax
  else if r = 0b001#3 then .low .cx
  else if r = 0b010#3 then .low .dx
  else if r = 0b011#3 then .low .bx
  else if r = 0b100#3 then .high .ax
  else if r = 0b101#3 then .high .cx
  else if r = 0b110#3 then .high .dx
  else .high .bx

/-- `Reg(field, W)` (R17). -/
def regOf : (w : Width) → BitVec 3 → Reg w
  | .byte, r => byteReg r
  | .word, r => wordReg r

/-- The accumulator, `Reg(000, W)`: AL or AX (R12). -/
def acc (w : Width) : Reg w := regOf w 0b000#3

/-- The slot of a segment register. -/
def segSlot : SegReg → Slot
  | .es => .es
  | .cs => .cs
  | .ss => .ss
  | .ds => .ds

/-- `SegReg(SR)`: all 16 bits of a segment register (R20, R21). -/
def segReg (x : SegReg) : Reg .word := .full (segSlot x)

/-! ## Memory operands (20_memory.md R45 to R48) -/

/-- The nine addressing kinds (R45). -/
inductive AddrKind where
  | based (b : Base)
  | direct
  deriving DecidableEq, Repr

/-- A memory operand {kind, displacement constant} (R45). -/
structure MemOperand where
  kind : AddrKind
  disp : Word
  deriving DecidableEq, Repr

/-- The base sum of an addressing kind (R46). -/
def baseSum (rf : RegFile) : AddrKind → Word
  | .based .bxSi => rf.get .bx + rf.get .si
  | .based .bxDi => rf.get .bx + rf.get .di
  | .based .bpSi => rf.get .bp + rf.get .si
  | .based .bpDi => rf.get .bp + rf.get .di
  | .based .si => rf.get .si
  | .based .di => rf.get .di
  | .based .bp => rf.get .bp
  | .based .bx => rf.get .bx
  | .direct => 0

/-- `EA(m)`: base sum plus displacement, mod 2^16 (R47, R48). No segment register takes part (R49). -/
def MemOperand.ea (m : MemOperand) (rf : RegFile) : Word := baseSum rf m.kind + m.disp

/-- The displacement constant the displacement bytes give: none is 0, one byte is sign-extended (30_encoding.md R88 to
R90). -/
def Disp.value : Disp → Word
  | .none => 0
  | .d8 d => d.signExtend 16
  | .d16 d => d

/-! ## Operands (30_encoding.md R99, R100) -/

/-- An operand that can be written: a register reference or memory. An immediate cannot be a destination (R100). -/
inductive Place (w : Width) where
  | reg (r : Reg w)
  | mem (m : MemOperand)

/-- An operand that can be read: a place or an immediate (R99). -/
inductive Source (w : Width) where
  | place (p : Place w)
  | imm (v : Word)

/-- The operand `ResolveRM` gives (30_encoding.md R87 to R91). -/
def rmPlace (w : Width) : RM → Place w
  | .reg r => .reg (regOf w r)
  | .direct a => .mem { kind := .direct, disp := a }
  | .mem b d => .mem { kind := .based b, disp := Disp.value d }

/-- `Reg(field, W)` as an operand that can be written. -/
def regPlace (w : Width) (r : BitVec 3) : Place w := .reg (regOf w r)

/-- The direct-address operand of format MA (30_encoding.md R73). -/
def directPlace (w : Width) (addr : Word) : Place w := .mem { kind := .direct, disp := addr }

/-- The value an operand that can be written holds: a register at its width, or memory read as n bits. -/
def Place.value {w : Width} (p : Place w) (s : State) : BitVec w.bits :=
  match p with
  | .reg r => s.regs.readReg r
  | .mem m => s.mem.load s.policy (m.ea s.regs) w

/-- An immediate is cut to the operation width: imm[n-1:0] (30_encoding.md R93). -/
def immValue (w : Width) (v : Word) : BitVec w.bits := v.setWidth w.bits

/-- The value of an operand that can be read. -/
def Source.value {w : Width} (o : Source w) (s : State) : BitVec w.bits :=
  match o with
  | .place p => p.value s
  | .imm v => immValue w v

/-- `ReadOp(o, n)` for an operand that can be written, by the instruction at offset `pc` (40_mov.md R112). -/
def readPlace {w : Width} (pc : Word) (p : Place w) (s : State) : Except Fault (BitVec w.bits) :=
  match p with
  | .reg r => .ok (s.regs.readReg r)
  | .mem m => memRead pc (m.ea s.regs) w s

/-- `ReadOp(o, n)` (40_mov.md R112). -/
def readSource {w : Width} (pc : Word) (o : Source w) (s : State) : Except Fault (BitVec w.bits) :=
  match o with
  | .place p => readPlace pc p s
  | .imm v => .ok (immValue w v)

/-- `WriteOp(o, n, v)` (40_mov.md R113). -/
def writePlace {w : Width} (pc : Word) (p : Place w) (v : BitVec w.bits) (s : State) : Except Fault State :=
  match p with
  | .reg r => .ok { s with regs := s.regs.writeReg r v }
  | .mem m => memWrite pc (m.ea s.regs) w v s

end Sys2Proof.Machine
end

