-- ==== Sys2Proof/Machine/Alu.lean ====
section
/-! DEFINITION. ADD, SUB and CMP (spec 41_alu.md R132 to R146). -/

namespace Sys2Proof.Machine

/-- The result is stored, unless the operation is CMP (R132, R134). -/
def storeResult {w : Width} (pc : Word) (op : AluOp) (dst : Place w) (r : BitVec w.bits) (s : State) :
    Except Fault State :=
  match op with
  | .add => writePlace pc dst r s
  | .sub => writePlace pc dst r s
  | .cmp => .ok s

/-- `ExecALU` (R132), with the advance of IP before it (50_step_cycle.md R172). `len` is the instruction's length. The
destination is read, then the source, then the result is stored and all six flags are written. -/
def aluOp {w : Width} (op : AluOp) (len : Nat) (dst : Place w) (src : Source w) (s : State) :
    Host.Outcome State Fault Refusal :=
  match readPlace s.ip dst (s.advance len) with
  | .error f => raise f
  | .ok a =>
    match readSource s.ip src (s.advance len) with
    | .error f => raise f
    | .ok b =>
      match storeResult s.ip op dst (aluResult op a b) (s.advance len) with
      | .error f => raise f
      | .ok t => .next { t with flags := aluFlags op a b }

/-! ## ADD -/

/-- `add r/m, reg` (R135). -/
def execAddRmReg (w : Width) (rm : RM) (r : BitVec 3) (s : State) : Host.Outcome State Fault Refusal :=
  aluOp .add (2 + rm.dispLen) (rmPlace w rm) (.place (regPlace w r)) s

/-- `add reg, r/m` (R136). -/
def execAddRegRm (w : Width) (r : BitVec 3) (rm : RM) (s : State) : Host.Outcome State Fault Refusal :=
  aluOp .add (2 + rm.dispLen) (regPlace w r) (.place (rmPlace w rm)) s

/-- `add r/m, imm` (R137). The S bit acts on the length alone: the decoder has extended the immediate. -/
def execAddRmImm (sb : Bool) (w : Width) (rm : RM) (imm : Word) (s : State) : Host.Outcome State Fault Refusal :=
  aluOp .add (2 + rm.dispLen + immLenS sb w) (rmPlace w rm) (.imm imm) s

/-- `add acc, imm` (R138). Bit 1 of byte 1 has no effect (30_encoding.md R84). -/
def execAddAccImm (_x : Bool) (w : Width) (imm : Word) (s : State) : Host.Outcome State Fault Refusal :=
  aluOp .add (1 + w.immLen) (.reg (acc w)) (.imm imm) s

/-! ## SUB -/

/-- `sub r/m, reg` (R139). -/
def execSubRmReg (w : Width) (rm : RM) (r : BitVec 3) (s : State) : Host.Outcome State Fault Refusal :=
  aluOp .sub (2 + rm.dispLen) (rmPlace w rm) (.place (regPlace w r)) s

/-- `sub reg, r/m` (R140). -/
def execSubRegRm (w : Width) (r : BitVec 3) (rm : RM) (s : State) : Host.Outcome State Fault Refusal :=
  aluOp .sub (2 + rm.dispLen) (regPlace w r) (.place (rmPlace w rm)) s

/-- `sub r/m, imm` (R141). The S bit acts on the length alone: the decoder has extended the immediate. -/
def execSubRmImm (sb : Bool) (w : Width) (rm : RM) (imm : Word) (s : State) : Host.Outcome State Fault Refusal :=
  aluOp .sub (2 + rm.dispLen + immLenS sb w) (rmPlace w rm) (.imm imm) s

/-- `sub acc, imm` (R142). Bit 1 of byte 1 has no effect (30_encoding.md R84). -/
def execSubAccImm (_x : Bool) (w : Width) (imm : Word) (s : State) : Host.Outcome State Fault Refusal :=
  aluOp .sub (1 + w.immLen) (.reg (acc w)) (.imm imm) s

/-! ## CMP -/

/-- `cmp r/m, reg` (R143). -/
def execCmpRmReg (w : Width) (rm : RM) (r : BitVec 3) (s : State) : Host.Outcome State Fault Refusal :=
  aluOp .cmp (2 + rm.dispLen) (rmPlace w rm) (.place (regPlace w r)) s

/-- `cmp reg, r/m` (R144). -/
def execCmpRegRm (w : Width) (r : BitVec 3) (rm : RM) (s : State) : Host.Outcome State Fault Refusal :=
  aluOp .cmp (2 + rm.dispLen) (regPlace w r) (.place (rmPlace w rm)) s

/-- `cmp r/m, imm` (R145). The S bit acts on the length alone: the decoder has extended the immediate. -/
def execCmpRmImm (sb : Bool) (w : Width) (rm : RM) (imm : Word) (s : State) : Host.Outcome State Fault Refusal :=
  aluOp .cmp (2 + rm.dispLen + immLenS sb w) (rmPlace w rm) (.imm imm) s

/-- `cmp acc, imm` (R146). Bit 1 of byte 1 has no effect (30_encoding.md R84). -/
def execCmpAccImm (_x : Bool) (w : Width) (imm : Word) (s : State) : Host.Outcome State Fault Refusal :=
  aluOp .cmp (1 + w.immLen) (.reg (acc w)) (.imm imm) s

end Sys2Proof.Machine
end

