-- ==== Sys2Proof/Machine/Jcc.lean ====
section
/-! DEFINITION. The sixteen conditional jumps (spec 42_jcc.md R148, R150 to R165). -/

namespace Sys2Proof.Machine

/-- IP is advanced past the two bytes of a format J instruction, and the signed displacement is added when the branch
is taken (R148, 10_state.md R24). -/
def branchIf (taken : Bool) (rel : Byte) (s : State) : State :=
  if taken then (s.advance 2).branch rel else s.advance 2

/-- `ExecJcc` (R148). -/
def jumpOp (c : Cond) (rel : Byte) (s : State) : Host.Outcome State Fault Refusal :=
  .next (branchIf (evalCond s.flags c) rel s)

/-- `jo rel8` (R150). -/
def execJo (rel : Byte) (s : State) : Host.Outcome State Fault Refusal := jumpOp .o rel s

/-- `jno rel8` (R151). -/
def execJno (rel : Byte) (s : State) : Host.Outcome State Fault Refusal := jumpOp .no rel s

/-- `jb rel8` (R152). -/
def execJb (rel : Byte) (s : State) : Host.Outcome State Fault Refusal := jumpOp .b rel s

/-- `jnb rel8` (R153). -/
def execJnb (rel : Byte) (s : State) : Host.Outcome State Fault Refusal := jumpOp .nb rel s

/-- `je rel8` (R154). -/
def execJe (rel : Byte) (s : State) : Host.Outcome State Fault Refusal := jumpOp .e rel s

/-- `jne rel8` (R155). -/
def execJne (rel : Byte) (s : State) : Host.Outcome State Fault Refusal := jumpOp .ne rel s

/-- `jbe rel8` (R156). -/
def execJbe (rel : Byte) (s : State) : Host.Outcome State Fault Refusal := jumpOp .be rel s

/-- `ja rel8` (R157). -/
def execJa (rel : Byte) (s : State) : Host.Outcome State Fault Refusal := jumpOp .a rel s

/-- `js rel8` (R158). -/
def execJs (rel : Byte) (s : State) : Host.Outcome State Fault Refusal := jumpOp .s rel s

/-- `jns rel8` (R159). -/
def execJns (rel : Byte) (s : State) : Host.Outcome State Fault Refusal := jumpOp .ns rel s

/-- `jp rel8` (R160). -/
def execJp (rel : Byte) (s : State) : Host.Outcome State Fault Refusal := jumpOp .p rel s

/-- `jnp rel8` (R161). -/
def execJnp (rel : Byte) (s : State) : Host.Outcome State Fault Refusal := jumpOp .np rel s

/-- `jl rel8` (R162). -/
def execJl (rel : Byte) (s : State) : Host.Outcome State Fault Refusal := jumpOp .l rel s

/-- `jnl rel8` (R163). -/
def execJnl (rel : Byte) (s : State) : Host.Outcome State Fault Refusal := jumpOp .nl rel s

/-- `jle rel8` (R164). -/
def execJle (rel : Byte) (s : State) : Host.Outcome State Fault Refusal := jumpOp .le rel s

/-- `jg rel8` (R165). -/
def execJg (rel : Byte) (s : State) : Host.Outcome State Fault Refusal := jumpOp .g rel s

end Sys2Proof.Machine
end

