-- ==== Sys2Proof/Machine/Loop.lean ====
section
/-! DEFINITION. LOOPNZ, LOOPZ, LOOP and JCXZ (spec 43_loop.md R166 to R170). -/

namespace Sys2Proof.Machine

/-- CX decremented mod 2^16; no flag is touched (R166). -/
def decCx (s : State) : State := { s with regs := s.regs.set .cx (s.regs.get .cx - 1#16) }

/-- `ExecLoop` (R166): CX is decremented whether or not the branch is taken; the branch is taken when the decremented
CX is not zero and the condition on the flags holds. -/
def loopOp (flagOk : Bool) (rel : Byte) (s : State) : Host.Outcome State Fault Refusal :=
  .next (branchIf ((decCx s).regs.get .cx != 0#16 && flagOk) rel (decCx s))

/-- `loopnz rel8` (R167): ZF clear. -/
def execLoopnz (rel : Byte) (s : State) : Host.Outcome State Fault Refusal := loopOp (!s.flags.zf) rel s

/-- `loopz rel8` (R168): ZF set. -/
def execLoopz (rel : Byte) (s : State) : Host.Outcome State Fault Refusal := loopOp s.flags.zf rel s

/-- `loop rel8` (R169): no flag is read. -/
def execLoop (rel : Byte) (s : State) : Host.Outcome State Fault Refusal := loopOp true rel s

/-- `jcxz rel8` (R170): taken when all 16 bits of CX are zero; CX is not changed. -/
def execJcxz (rel : Byte) (s : State) : Host.Outcome State Fault Refusal :=
  .next (branchIf (s.regs.get .cx == 0#16) rel s)

end Sys2Proof.Machine
end

