-- ==== Sys2Proof/Machine/Mov.lean ====
section
/-! DEFINITION. MOV (spec 40_mov.md R115 to R123). -/

namespace Sys2Proof.Machine

/-- `ExecMOV` (R115), with the advance of IP before it (50_step_cycle.md R172). `len` is the instruction's length. The
source is read first and the destination written last, both with the registers the instruction started with (R114). -/
def moveOp {w : Width} (len : Nat) (dst : Place w) (src : Source w) (s : State) : Host.Outcome State Fault Refusal :=
  match readSource s.ip src (s.advance len) with
  | .error f => raise f
  | .ok v =>
    match writePlace s.ip dst v (s.advance len) with
    | .error f => raise f
    | .ok t => .next t

/-- `mov r/m, reg` (R116). -/
def execMovRmReg (w : Width) (rm : RM) (r : BitVec 3) (s : State) : Host.Outcome State Fault Refusal :=
  moveOp (2 + rm.dispLen) (rmPlace w rm) (.place (regPlace w r)) s

/-- `mov reg, r/m` (R117). -/
def execMovRegRm (w : Width) (r : BitVec 3) (rm : RM) (s : State) : Host.Outcome State Fault Refusal :=
  moveOp (2 + rm.dispLen) (regPlace w r) (.place (rmPlace w rm)) s

/-- `mov r/m, imm` (R118). -/
def execMovRmImm (w : Width) (rm : RM) (imm : Word) (s : State) : Host.Outcome State Fault Refusal :=
  moveOp (2 + rm.dispLen + w.immLen) (rmPlace w rm) (.imm imm) s

/-- `mov reg, imm` (R119). -/
def execMovRegImm (w : Width) (r : BitVec 3) (imm : Word) (s : State) : Host.Outcome State Fault Refusal :=
  moveOp (1 + w.immLen) (regPlace w r) (.imm imm) s

/-- `mov acc, [addr]` (R120). -/
def execMovAccMem (w : Width) (addr : Word) (s : State) : Host.Outcome State Fault Refusal :=
  moveOp 3 (.reg (acc w)) (.place (directPlace w addr)) s

/-- `mov [addr], acc` (R121). -/
def execMovMemAcc (w : Width) (addr : Word) (s : State) : Host.Outcome State Fault Refusal :=
  moveOp 3 (directPlace w addr) (.place (.reg (acc w))) s

/-- `mov sreg, r/m16` (R122). -/
def execMovSegRm (sr : SegReg) (rm : RM) (s : State) : Host.Outcome State Fault Refusal :=
  moveOp (2 + rm.dispLen) (.reg (segReg sr)) (.place (rmPlace .word rm)) s

/-- `mov r/m16, sreg` (R123). -/
def execMovRmSeg (rm : RM) (sr : SegReg) (s : State) : Host.Outcome State Fault Refusal :=
  moveOp (2 + rm.dispLen) (rmPlace .word rm) (.place (.reg (segReg sr))) s

end Sys2Proof.Machine
end

