-- ==== Sys2Proof/Machine/Dispatch.lean ====
section
/-! DEFINITION. One arm for each instruction of the opcode table: a direct call of its meaning (spec 50_step_cycle.md
R172, "Dispatch on operation"). -/

namespace Sys2Proof.Machine

/-- The instruction `i` executed at IP: its advance and its effect, or the fatal condition it raises. -/
def exec (i : Instr) (s : State) : Host.Outcome State Fault Refusal :=
  match i with
  -- MOV (spec 40_mov.md R116 to R123)
  | .movRmReg w rm r => Sys2Proof.Machine.execMovRmReg w rm r s
  | .movRegRm w r rm => Sys2Proof.Machine.execMovRegRm w r rm s
  | .movRmImm w rm imm => Sys2Proof.Machine.execMovRmImm w rm imm s
  | .movRegImm w r imm => Sys2Proof.Machine.execMovRegImm w r imm s
  | .movAccMem w addr => Sys2Proof.Machine.execMovAccMem w addr s
  | .movMemAcc w addr => Sys2Proof.Machine.execMovMemAcc w addr s
  | .movSegRm sr rm => Sys2Proof.Machine.execMovSegRm sr rm s
  | .movRmSeg rm sr => Sys2Proof.Machine.execMovRmSeg rm sr s
  -- ADD (spec 41_alu.md R135 to R138)
  | .addRmReg w rm r => Sys2Proof.Machine.execAddRmReg w rm r s
  | .addRegRm w r rm => Sys2Proof.Machine.execAddRegRm w r rm s
  | .addRmImm sb w rm imm => Sys2Proof.Machine.execAddRmImm sb w rm imm s
  | .addAccImm x w imm => Sys2Proof.Machine.execAddAccImm x w imm s
  -- SUB (spec 41_alu.md R139 to R142)
  | .subRmReg w rm r => Sys2Proof.Machine.execSubRmReg w rm r s
  | .subRegRm w r rm => Sys2Proof.Machine.execSubRegRm w r rm s
  | .subRmImm sb w rm imm => Sys2Proof.Machine.execSubRmImm sb w rm imm s
  | .subAccImm x w imm => Sys2Proof.Machine.execSubAccImm x w imm s
  -- CMP (spec 41_alu.md R143 to R146)
  | .cmpRmReg w rm r => Sys2Proof.Machine.execCmpRmReg w rm r s
  | .cmpRegRm w r rm => Sys2Proof.Machine.execCmpRegRm w r rm s
  | .cmpRmImm sb w rm imm => Sys2Proof.Machine.execCmpRmImm sb w rm imm s
  | .cmpAccImm x w imm => Sys2Proof.Machine.execCmpAccImm x w imm s
  -- conditional jumps (spec 42_jcc.md R150 to R165)
  | .jo rel => Sys2Proof.Machine.execJo rel s
  | .jno rel => Sys2Proof.Machine.execJno rel s
  | .jb rel => Sys2Proof.Machine.execJb rel s
  | .jnb rel => Sys2Proof.Machine.execJnb rel s
  | .je rel => Sys2Proof.Machine.execJe rel s
  | .jne rel => Sys2Proof.Machine.execJne rel s
  | .jbe rel => Sys2Proof.Machine.execJbe rel s
  | .ja rel => Sys2Proof.Machine.execJa rel s
  | .js rel => Sys2Proof.Machine.execJs rel s
  | .jns rel => Sys2Proof.Machine.execJns rel s
  | .jp rel => Sys2Proof.Machine.execJp rel s
  | .jnp rel => Sys2Proof.Machine.execJnp rel s
  | .jl rel => Sys2Proof.Machine.execJl rel s
  | .jnl rel => Sys2Proof.Machine.execJnl rel s
  | .jle rel => Sys2Proof.Machine.execJle rel s
  | .jg rel => Sys2Proof.Machine.execJg rel s
  -- LOOP family and JCXZ (spec 43_loop.md R167 to R170)
  | .loopnz rel => Sys2Proof.Machine.execLoopnz rel s
  | .loopz rel => Sys2Proof.Machine.execLoopz rel s
  | .loop rel => Sys2Proof.Machine.execLoop rel s
  | .jcxz rel => Sys2Proof.Machine.execJcxz rel s

end Sys2Proof.Machine
end

