-- ==== Sys2Proof/Machine/Fetch.lean ====
section
/-! DEFINITION. Fetching: the end test, decoding at IP from CODE (spec 50_step_cycle.md R171, R172; 20_memory.md R42),
and placing an instruction where the next step fetches. -/

namespace Sys2Proof.Machine

/-- N, the length of CODE (00_scope.md R6). -/
def State.codeLen (s : State) : Nat := s.launch.code.length

/-- The launch premise N <= 65536 (10_state.md R25). -/
def State.launchOk (s : State) : Bool := decide (s.codeLen ≤ maxCode)

/-- `Halted(s)`: IP >= N, unsigned (R171). -/
def State.halted (s : State) : Bool := decide (s.codeLen ≤ s.ip.toNat)

/-- The bytes of CODE from an offset on; the fetch never reads data memory (R42, R43). -/
def State.codeFrom (s : State) (p : Word) : List Byte := s.launch.code.drop p.toNat

/-- A decode-time fatal condition with the offset of the instruction (60_exceptions.md R187). -/
def decodeFault (p : Word) : DecodeError → Fault
  | .unimplementedOpcode b1 b2 => .unimplementedOpcode p b1 b2
  | .illegalSegmentEncoding b1 b2 => .illegalSegmentEncoding p b1 b2
  | .truncated needed remaining => .truncatedInstruction p needed remaining

/-- The instruction at offset `p`, or the fatal condition its decoding raises. An advance below 2 would be
DecoderInvariantViolation (30_encoding.md R96). -/
def fetch (s : State) (p : Word) : Except Fault Instr :=
  match decode s.launch.params (s.codeFrom p) with
  | .error e => .error (decodeFault p e)
  | .ok (i, len) => if len < 2 then .error (.decoderInvariantViolation p) else .ok i

/-- CODE with `bytes` laid over it from offset `p` on: a shorter buffer is filled up with zeros before `p`, and the
buffer never grows past 65536 bytes. -/
def overlayCode (code : List Byte) (p : Nat) (bytes : List Byte) : List Byte :=
  (code.take p ++ List.replicate (p - code.length) 0#8 ++ bytes ++ code.drop (p + bytes.length)).take maxCode

end Sys2Proof.Machine
end

