-- ==== Sys2Proof/Machine/Step.lean ====
section
/-! DEFINITION. One step of the core (spec 50_step_cycle.md R171 to R173). -/

namespace Sys2Proof.Machine

/-- One step: the launch premise, the end test, then the instruction at IP is decoded and executed, or the fatal
condition its decoding raises stops the machine. -/
def step (s : State) : Host.Outcome State Fault Refusal :=
  if s.launchOk = false then .refused .codeTooLong
  else if s.halted then .refused .runEnded
  else match fetch s s.ip with
    | .error f => raise f
    | .ok i => exec i s

/-- The instruction whose table bits are `w`, laid over CODE at IP, so that the next step fetches and runs it. -/
def State.withFetchWord (s : State) (nbits w : Nat) : State :=
  { s with launch := { s.launch with code := overlayCode s.launch.code s.ip.toNat (tableCode nbits w) } }

end Sys2Proof.Machine
end

