-- ==== Sys2Proof/Machine/Run.lean ====
section
/-! DEFINITION. A run and its outcome (spec 50_step_cycle.md R174, R180; 60_exceptions.md R190). -/

namespace Sys2Proof.Machine

/-- The outcomes of a bounded run: "a sum type (final state, or abort), not a state with an error flag" (R190). -/
inductive RunResult where
  /-- The run reached a state with IP >= N: the final state (R174 (a), R180). -/
  | final (s : State)
  /-- A step raised a fatal condition: its information is the only outcome (R174 (b), R190). -/
  | abort (f : Fault)
  /-- The launch was refused (10_state.md R25). -/
  | notStarted (r : Refusal)
  /-- The step budget ran out, "an outcome of the model, not of the core" (R174). -/
  | outOfFuel (s : State)
  deriving DecidableEq, Repr

/-- At most `fuel` steps from `s` (R174). -/
def run : Nat → State → RunResult
  | 0, s => if s.launchOk = false then .notStarted .codeTooLong else if s.halted then .final s else .outOfFuel s
  | fuel + 1, s =>
    match step s with
    | .next t => run fuel t
    | .fault f => .abort f
    | .refused .runEnded => .final s
    | .refused r => .notStarted r

end Sys2Proof.Machine
end

