-- ==== Sys2Proof/Machine/Render.lean ====
section
/-! DEFINITION. The texts the core can give about itself: assembly text (spec 30_encoding.md R103 to R109), linear
disassembly (50_step_cycle.md R178), and the trace's state deltas and summary (R176). They are outside the state
machine (00_scope.md R4): no step reads them. -/

namespace Sys2Proof.Machine

/-- A line of text. -/
abbrev Text := List Char

/-! ## Operands -/

/-- The text of a slot's name (R104). -/
def slotText : Slot → Text
  | .ax => ['a', 'x']
  | .bx => ['b', 'x']
  | .cx => ['c', 'x']
  | .dx => ['d', 'x']
  | .sp => ['s', 'p']
  | .bp => ['b', 'p']
  | .si => ['s', 'i']
  | .di => ['d', 'i']
  | .es => ['e', 's']
  | .cs => ['c', 's']
  | .ss => ['s', 's']
  | .ds => ['d', 's']

/-- The letter a byte half's name begins with. -/
def byteSlotLetter : ByteSlot → Char
  | .ax => 'a'
  | .bx => 'b'
  | .cx => 'c'
  | .dx => 'd'

/-- The text of a register reference (R104). -/
def regText : {w : Width} → Reg w → Text
  | _, .full x => slotText x
  | _, .low x => [byteSlotLetter x, 'l']
  | _, .high x => [byteSlotLetter x, 'h']

/-- An unsigned decimal number. -/
def natText (n : Nat) : Text := Nat.toDigits 10 n

/-- A decimal number with its sign, `+` included. -/
def signedText (v : Int) : Text := (if v < 0 then '-' else '+') :: natText v.natAbs

/-- The text of a base sum (R105). -/
def baseText : Base → Text
  | .bxSi => ['b', 'x', '+', 's', 'i']
  | .bxDi => ['b', 'x', '+', 'd', 'i']
  | .bpSi => ['b', 'p', '+', 's', 'i']
  | .bpDi => ['b', 'p', '+', 'd', 'i']
  | .si => ['s', 'i']
  | .di => ['d', 'i']
  | .bp => ['b', 'p']
  | .bx => ['b', 'x']

/-- The text of a memory operand (R105): a direct address unsigned, a displacement signed and omitted when zero. -/
def memText (m : MemOperand) : Text :=
  match m.kind with
  | .direct => ['['] ++ natText m.disp.toNat ++ [']']
  | .based b => ['['] ++ baseText b ++ (if m.disp = 0#16 then [] else signedText m.disp.toInt) ++ [']']

/-- The text of an operand that can be written. -/
def placeText {w : Width} : Place w → Text
  | .reg r => regText r
  | .mem m => memText m

/-- The text of a source operand: an immediate is the unsigned value of imm[n-1:0] (R106). -/
def sourceText {w : Width} : Source w → Text
  | .place p => placeText p
  | .imm v => natText (immValue w v).toNat

/-- The size mark before a memory destination of an immediate (R106). -/
def sizeMark : Width → Text
  | .byte => ['b', 'y', 't', 'e', ' ']
  | .word => ['w', 'o', 'r', 'd', ' ']

/-- `mnemonic dst, src` (R103, R106). -/
def twoOperands {w : Width} (mnemonic : Text) (dst : Place w) (src : Source w) : Text :=
  let mark := match dst, src with
    | .mem _, .imm _ => sizeMark w
    | _, _ => []
  mnemonic ++ [' '] ++ mark ++ placeText dst ++ [',', ' '] ++ sourceText src

/-- `mnemonic $target`: the signed number rel + 2, always with its sign (R107). -/
def branchText (mnemonic : Text) (rel : Byte) : Text := mnemonic ++ [' ', '$'] ++ signedText (rel.toInt + 2)

/-! ## Instructions (R103, R108) -/

/-- `mov`. -/
def movText : Text := ['m', 'o', 'v']

/-- `add`. -/
def addText : Text := ['a', 'd', 'd']

/-- `sub`. -/
def subText : Text := ['s', 'u', 'b']

/-- `cmp`. -/
def cmpText : Text := ['c', 'm', 'p']

/-- The assembly text of an instruction. -/
def render : Instr → Text
  | .movRmReg w rm r => twoOperands movText (rmPlace w rm) (.place (regPlace w r))
  | .movRegRm w r rm => twoOperands movText (regPlace w r) (.place (rmPlace w rm))
  | .movRmImm w rm imm => twoOperands movText (rmPlace w rm) (.imm imm)
  | .movRegImm w r imm => twoOperands movText (regPlace w r) (.imm imm)
  | .movAccMem w addr => twoOperands movText (.reg (acc w)) (.place (directPlace w addr))
  | .movMemAcc w addr => twoOperands movText (directPlace w addr) (.place (.reg (acc w)))
  | .movSegRm sr rm => twoOperands movText (.reg (segReg sr)) (.place (rmPlace .word rm))
  | .movRmSeg rm sr => twoOperands movText (rmPlace .word rm) (.place (.reg (segReg sr)))
  | .addRmReg w rm r => twoOperands addText (rmPlace w rm) (.place (regPlace w r))
  | .addRegRm w r rm => twoOperands addText (regPlace w r) (.place (rmPlace w rm))
  | .addRmImm _ w rm imm => twoOperands addText (rmPlace w rm) (.imm imm)
  | .addAccImm _ w imm => twoOperands addText (.reg (acc w)) (.imm imm)
  | .subRmReg w rm r => twoOperands subText (rmPlace w rm) (.place (regPlace w r))
  | .subRegRm w r rm => twoOperands subText (regPlace w r) (.place (rmPlace w rm))
  | .subRmImm _ w rm imm => twoOperands subText (rmPlace w rm) (.imm imm)
  | .subAccImm _ w imm => twoOperands subText (.reg (acc w)) (.imm imm)
  | .cmpRmReg w rm r => twoOperands cmpText (rmPlace w rm) (.place (regPlace w r))
  | .cmpRegRm w r rm => twoOperands cmpText (regPlace w r) (.place (rmPlace w rm))
  | .cmpRmImm _ w rm imm => twoOperands cmpText (rmPlace w rm) (.imm imm)
  | .cmpAccImm _ w imm => twoOperands cmpText (.reg (acc w)) (.imm imm)
  | .jo rel => branchText ['j', 'o'] rel
  | .jno rel => branchText ['j', 'n', 'o'] rel
  | .jb rel => branchText ['j', 'b'] rel
  | .jnb rel => branchText ['j', 'n', 'b'] rel
  | .je rel => branchText ['j', 'e'] rel
  | .jne rel => branchText ['j', 'n', 'e'] rel
  | .jbe rel => branchText ['j', 'b', 'e'] rel
  | .ja rel => branchText ['j', 'a'] rel
  | .js rel => branchText ['j', 's'] rel
  | .jns rel => branchText ['j', 'n', 's'] rel
  | .jp rel => branchText ['j', 'p'] rel
  | .jnp rel => branchText ['j', 'n', 'p'] rel
  | .jl rel => branchText ['j', 'l'] rel
  | .jnl rel => branchText ['j', 'n', 'l'] rel
  | .jle rel => branchText ['j', 'l', 'e'] rel
  | .jg rel => branchText ['j', 'g'] rel
  | .loopnz rel => branchText ['l', 'o', 'o', 'p', 'n', 'z'] rel
  | .loopz rel => branchText ['l', 'o', 'o', 'p', 'z'] rel
  | .loop rel => branchText ['l', 'o', 'o', 'p'] rel
  | .jcxz rel => branchText ['j', 'c', 'x', 'z'] rel

/-! ## Linear disassembly (R178) -/

/-- One line for each instruction from offset `p` on, following no jump; `bs` is what remains of the buffer from `p` on.
Every instruction has two bytes or more, so `fuel` = the buffer's length is enough. R178 says that a decode-time
condition is raised and not whether the lines rendered before it are still output: DESIGN CHOICE (log 18), the answer is
the condition alone, without them. R178 does not say either whether the launch premise N <= 65536 holds here or how wide
the offset is: DESIGN CHOICE (log 20), a buffer of any length is disassembled, `p` counts on as a natural number, and the
offset a condition records (60_exceptions.md R187) is `p` mod 2^16. -/
def disassembleFrom (c : Params) : Nat → Nat → List Byte → Except Fault (List Text)
  | _, _, [] => .ok []
  | 0, _, _ => .ok []
  | fuel + 1, p, bs =>
    match decode c bs with
    | .error e => .error (decodeFault (BitVec.ofNat 16 p) e)
    | .ok (i, len) => (disassembleFrom c fuel (p + len) (bs.drop len)).map fun lines => render i :: lines

/-- The whole output: `bits 16`, a blank line, then the instructions (R103). It is no launch: no buffer is refused for its
length (log 20). -/
def disassemble (c : Params) (code : List Byte) : Except Fault (List Text) :=
  (disassembleFrom c code.length 0 code).map fun lines => ['b', 'i', 't', 's', ' ', '1', '6'] :: [] :: lines

/-! ## The trace (R176) -/

/-- The twelve slots in the source's order. -/
def allSlots : List Slot := [.ax, .bx, .cx, .dx, .sp, .bp, .si, .di, .es, .cs, .ss, .ds]

/-- The letters of the set flags, in the order C P A Z S O. -/
def Flags.letters (f : Flags) : Text :=
  (if f.cf then ['C'] else []) ++ (if f.pf then ['P'] else []) ++ (if f.af then ['A'] else []) ++
    (if f.zf then ['Z'] else []) ++ (if f.sf then ['S'] else []) ++ (if f.of then ['O'] else [])

/-- What changed in one step: the slots with their old and new values, IP, and the flags. The text around them is left
open by R176. -/
structure Delta where
  slots : List (Slot × Word × Word)
  ip : Option (Word × Word)
  flags : Option (Text × Text)
  deriving DecidableEq, Repr

/-- The state deltas from `s` to `t` (R176 (b), (c)). -/
def delta (s t : State) : Delta :=
  { slots := (allSlots.filter fun x => s.regs.get x != t.regs.get x).map fun x => (x, s.regs.get x, t.regs.get x)
    ip := if s.ip = t.ip then none else some (s.ip, t.ip)
    flags := if s.flags = t.flags then none else some (s.flags.letters, t.flags.letters) }

/-- The final summary: the slots that are not zero, IP if it is not, and the flags that are set (R176 (d)). -/
structure Summary where
  slots : List (Slot × Word)
  ip : Option Word
  flags : Text
  deriving DecidableEq, Repr

/-- The summary of a final state. -/
def summary (s : State) : Summary :=
  { slots := (allSlots.filter fun x => s.regs.get x != 0#16).map fun x => (x, s.regs.get x)
    ip := if s.ip = 0#16 then none else some s.ip
    flags := s.flags.letters }

/-- The instruction the next step executes, as text, and the deltas of that step (R176 (a)); none where the step answers
no next state. -/
def traceOf (s : State) : Option (Text × Delta) :=
  match fetch s s.ip, step s with
  | .ok i, .next t => some (render i, delta s t)
  | _, _ => none

end Sys2Proof.Machine
end

