-- ==== Sys2Proof/Safety.lean ====
section
/-! DEFINITION. The terms statements are made in: the machine's invariant, when an operand can be accessed, what a
destination covers, and the views that say that a part of the state plays no role. -/

namespace Sys2Proof.Machine

/-! ## The invariant -/

/-- The data memory is in its canonical form and CODE is short enough to start (10_state.md R25, R33). -/
def State.inv (s : State) : Bool := s.mem.wf && s.launchOk

/-! ## Operands -/

/-- The operand can be accessed: a register always, memory unless the access is out of range (20_memory.md R55). -/
def Place.ready {w : Width} (p : Place w) (s : State) : Bool :=
  match p with
  | .reg _ => true
  | .mem m => !rangeFaults s.policy (m.ea s.regs) w

/-- The operand that is read can be accessed: an immediate always. -/
def Source.ready {w : Width} (o : Source w) (s : State) : Bool :=
  match o with
  | .place p => p.ready s
  | .imm _ => true

/-- The data addresses the operand covers; none for a register. -/
def Place.cells {w : Width} (p : Place w) (s : State) : List Nat :=
  match p with
  | .reg _ => []
  | .mem m => accessed s.policy (m.ea s.regs) w

/-- Two register references share a bit: the same slot, and not its two different halves (10_state.md R13). -/
def Reg.overlaps : {w w' : Width} → Reg w → Reg w' → Bool
  | _, _, .low _, .high _ => false
  | _, _, .high _, .low _ => false
  | _, _, r, q => r.slot == q.slot

/-- The operand shares a bit with a register reference; a memory operand shares none. -/
def Place.overlaps {w w' : Width} (p : Place w) (q : Reg w') : Bool :=
  match p with
  | .reg r => r.overlaps q
  | .mem _ => false

/-- From `s` to `t` no register outside the operand, no byte of memory outside it and nothing of the launch has
changed. The operand's address is computed in `s`. IP and the flags are not spoken of. -/
def ChangesOnly {w : Width} (p : Place w) (s t : State) : Prop :=
  (∀ (w' : Width) (q : Reg w'), p.overlaps q = false → t.regs.readReg q = s.regs.readReg q) ∧
  (∀ a : Nat, a ∉ p.cells s → t.mem.read a = s.mem.read a) ∧
  t.launch = s.launch

end Sys2Proof.Machine

namespace Sys2Proof

open Sys2Proof.Machine

/-! ## What an instruction writes, row by row -/

/-- The slots an instruction writes, IP and FLAGS apart (10_state.md, "Summary of every piece of state"). -/
def Instr.slots : Instr → List Slot
  | .movRmReg w (.reg d) _ => [(regOf w d).slot]
  | .movRegRm w r _ => [(regOf w r).slot]
  | .movRmImm w (.reg d) _ => [(regOf w d).slot]
  | .movRegImm w r _ => [(regOf w r).slot]
  | .movAccMem _ _ => [.ax]
  | .movSegRm sr _ => [segSlot sr]
  | .movRmSeg (.reg d) _ => [(regOf .word d).slot]
  | .addRmReg w (.reg d) _ => [(regOf w d).slot]
  | .addRegRm w r _ => [(regOf w r).slot]
  | .addRmImm _ w (.reg d) _ => [(regOf w d).slot]
  | .addAccImm _ _ _ => [.ax]
  | .subRmReg w (.reg d) _ => [(regOf w d).slot]
  | .subRegRm w r _ => [(regOf w r).slot]
  | .subRmImm _ w (.reg d) _ => [(regOf w d).slot]
  | .subAccImm _ _ _ => [.ax]
  | .loopnz _ => [.cx]
  | .loopz _ => [.cx]
  | .loop _ => [.cx]
  | _ => []

/-- The data addresses an instruction stores to, computed as its meaning computes them (20_memory.md R57). -/
def Instr.stores (i : Instr) (s : State) : List Nat :=
  match i with
  | .movRmReg w rm _ => (rmPlace w rm).cells s
  | .movRmImm w rm _ => (rmPlace w rm).cells s
  | .movMemAcc w addr => (directPlace w addr).cells s
  | .movRmSeg rm _ => (rmPlace .word rm).cells s
  | .addRmReg w rm _ => (rmPlace w rm).cells s
  | .addRmImm _ w rm _ => (rmPlace w rm).cells s
  | .subRmReg w rm _ => (rmPlace w rm).cells s
  | .subRmImm _ w rm _ => (rmPlace w rm).cells s
  | _ => []

/-- The instruction is an ADD, a SUB or a CMP: the only writers of the flags (10_state.md R29). -/
def Instr.isAlu : Instr → Bool
  | .addRmReg _ _ _ | .addRegRm _ _ _ | .addRmImm _ _ _ _ | .addAccImm _ _ _ => true
  | .subRmReg _ _ _ | .subRegRm _ _ _ | .subRmImm _ _ _ _ | .subAccImm _ _ _ => true
  | .cmpRmReg _ _ _ | .cmpRegRm _ _ _ | .cmpRmImm _ _ _ _ | .cmpAccImm _ _ _ => true
  | _ => false

/-- The flags an ADD, SUB or CMP writes: those of its own operation on the values its two operands hold before it
(41_alu.md R132, R135 to R146); none for the other instructions. -/
def Instr.flagsFrom? (i : Instr) (s : State) : Option Flags :=
  match i with
  | .addRmReg w rm r => some (aluFlags .add ((rmPlace w rm).value s) (s.regs.readReg (regOf w r)))
  | .addRegRm w r rm => some (aluFlags .add (s.regs.readReg (regOf w r)) ((rmPlace w rm).value s))
  | .addRmImm _ w rm imm => some (aluFlags .add ((rmPlace w rm).value s) (imm.setWidth w.bits))
  | .addAccImm _ w imm => some (aluFlags .add (s.regs.readReg (acc w)) (imm.setWidth w.bits))
  | .subRmReg w rm r => some (aluFlags .sub ((rmPlace w rm).value s) (s.regs.readReg (regOf w r)))
  | .subRegRm w r rm => some (aluFlags .sub (s.regs.readReg (regOf w r)) ((rmPlace w rm).value s))
  | .subRmImm _ w rm imm => some (aluFlags .sub ((rmPlace w rm).value s) (imm.setWidth w.bits))
  | .subAccImm _ w imm => some (aluFlags .sub (s.regs.readReg (acc w)) (imm.setWidth w.bits))
  | .cmpRmReg w rm r => some (aluFlags .cmp ((rmPlace w rm).value s) (s.regs.readReg (regOf w r)))
  | .cmpRegRm w r rm => some (aluFlags .cmp (s.regs.readReg (regOf w r)) ((rmPlace w rm).value s))
  | .cmpRmImm _ w rm imm => some (aluFlags .cmp ((rmPlace w rm).value s) (imm.setWidth w.bits))
  | .cmpAccImm _ w imm => some (aluFlags .cmp (s.regs.readReg (acc w)) (imm.setWidth w.bits))
  | _ => none

/-- The displacement of a format J instruction, the only instructions that may branch (10_state.md R26). -/
def Instr.rel? : Instr → Option Byte
  | .jo rel | .jno rel | .jb rel | .jnb rel | .je rel | .jne rel | .jbe rel | .ja rel => some rel
  | .js rel | .jns rel | .jp rel | .jnp rel | .jl rel | .jnl rel | .jle rel | .jg rel => some rel
  | .loopnz rel | .loopz rel | .loop rel | .jcxz rel => some rel
  | _ => none

/-- The instruction is a segment-register move (10_state.md R21). -/
def Instr.isSegMove : Instr → Bool
  | .movSegRm _ _ | .movRmSeg _ _ => true
  | _ => false

end Sys2Proof

namespace Sys2Proof.Machine

/-! ## Views -/

/-- The same state with other contents of the four segment registers. -/
def State.withSegs (s : State) (es cs ss ds : Word) : State :=
  { s with regs := { s.regs with es := es, cs := cs, ss := ss, ds := ds } }

/-- The same state with another auxiliary carry. -/
def State.withAf (s : State) (b : Bool) : State := { s with flags := { s.flags with af := b } }

/-- The outcome with its next state, if there is one, changed by `f`. -/
def mapNext (f : State → State) : Host.Outcome State Fault Refusal → Host.Outcome State Fault Refusal
  | .next s => .next (f s)
  | .fault r => .fault r
  | .refused r => .refused r

/-! ## The byte-1 map (30_encoding.md R86) -/

/-- The dispatch bytes that decode or fail later, by the numbers of the byte-1 map under R86. -/
def acceptedPair (c : Params) (b1 b2 : Byte) : Bool :=
  let n := b1.toNat
  let sel := b2.toNat / 8 % 8
  -- formats RM, MA, IR, SR and the loops
  (n ≤ 0x03) || (0x28 ≤ n && n ≤ 0x2B) || (0x38 ≤ n && n ≤ 0x3B) || (0x88 ≤ n && n ≤ 0x8B) || n == 0x8C || n == 0x8E ||
  (0xA0 ≤ n && n ≤ 0xA3) || (0xB0 ≤ n && n ≤ 0xBF) || (0xE0 ≤ n && n ≤ 0xE3) ||
  -- format IA
  n == 0x04 || n == 0x05 || n == 0x2C || n == 0x2D || n == 0x3C || n == 0x3D ||
  (!c.iaStrict && (n == 0x06 || n == 0x07 || n == 0x2E || n == 0x2F || n == 0x3E || n == 0x3F)) ||
  -- format IRM
  (0x80 ≤ n && n ≤ 0x83 && (sel == 0 || sel == 5 || sel == 7)) || ((n == 0xC6 || n == 0xC7) && sel == 0) ||
  -- conditional jumps
  (0x70 ≤ n && n ≤ 0x7F && c.admits (condOf (BitVec.ofNat 4 n)))

end Sys2Proof.Machine
end

