-- ==== Sys2Proof/Certificates/Slice0/Obligations.lean ====
section
/-! DEFINITION. The statements for the provers, each from numbered rules of the spec (cited by number and file). -/

open Sys2Proof Sys2Proof.Machine

/-! ## Encoding -/

/-- Twelve words written out from the encodings (30_encoding.md R70, R79 to R83; 95_test_vectors.md 2.1), at least one
for each of the seven formats RM, IRM, MA, IR, IA, SR and J, decode to what they stand for, with their advance. The
opcode values are the spec's "from general knowledge" (92_eei_decisions.md D7, with D6, D9, D10, D11 and D24; log
10). -/
def Obligations.WrittenOutWordsDecode : Prop :=
  decode Params.spec [0x88#8, 0x67#8, 0x05#8] = .ok (.movRmReg .byte (.mem .bx (.d8 5#8)) 0b100#3, 3) ∧
  decode Params.spec [0xC7#8, 0x06#8, 0x64#8, 0x00#8, 0x34#8, 0x12#8] =
    .ok (.movRmImm .word (.direct 100#16) 0x1234#16, 6) ∧
  decode Params.spec [0xB5#8, 0xF4#8] = .ok (.movRegImm .byte 0b101#3 244#16, 2) ∧
  decode Params.spec [0xA1#8, 0xFB#8, 0x09#8] = .ok (.movAccMem .word 2555#16, 3) ∧
  decode Params.spec [0x8E#8, 0x50#8, 0x10#8] = .ok (.movSegRm .ss (.mem .bxSi (.d8 16#8)), 3) ∧
  decode Params.spec [0x00#8, 0x7A#8, 0x04#8] = .ok (.addRmReg .byte (.mem .bpSi (.d8 4#8)) 0b111#3, 3) ∧
  decode Params.spec [0x83#8, 0x29#8, 0x1D#8] = .ok (.subRmImm true .word (.mem .bxDi .none) 29#16, 3) ∧
  decode Params.spec [0x3D#8, 0xE8#8, 0x03#8] = .ok (.cmpAccImm false .word 1000#16, 3) ∧
  decode Params.spec [0x3B#8, 0x18#8] = .ok (.cmpRegRm .word 0b011#3 (.mem .bxSi .none), 2) ∧
  decode Params.spec [0x7C#8, 0x80#8] = .ok (.jl 0x80#8, 2) ∧
  decode Params.spec [0xE2#8, 0xF6#8] = .ok (.loop 0xF6#8, 2) ∧
  decode Params.spec [0xE3#8, 0xFE#8] = .ok (.jcxz 0xFE#8, 2)

/-- Decoding an encoded instruction gives it back, whatever bytes follow it: every well-formed instruction the
parameters allow, with every operand (30_encoding.md R67, R70 to R77; the half of R110 that is about bytes). The
instruction is the model's `Instr`, which keeps fields of its encoding (log 9); the opcode values and layouts are
general knowledge and the spec's decisions D7 to D11, D21 and D24 (log 10, log 2). -/
def Obligations.DecodeOfEncode : Prop :=
  ∀ (c : Params) (i : Instr) (rest : List Byte), i.wf = true → c.allows i = true →
    decode c (encode i ++ rest) = .ok (i, i.length)

/-- What the decoder accepts is the encoding of what it answers: a decoded instruction is well-formed and allowed, its
advance is its length, and the bytes consumed are its encoding and no others (30_encoding.md R67, R95). Several byte
sequences decode to one instruction of the spec (R71, R84, R110); that the bytes are exactly `encode i` rests on the
model's choice to keep the displacement size, the S bit and the bit of format IA in `Instr` (log 9). The opcode values
and layouts are general knowledge and the spec's decisions D7 to D11, D21 and D24 (log 10). -/
def Obligations.EncodeOfDecode : Prop :=
  ∀ (c : Params) (bs : List Byte) (i : Instr) (len : Nat), decode c bs = .ok (i, len) →
    i.wf = true ∧ c.allows i = true ∧ len = i.length ∧ bs = encode i ++ bs.drop len

/-- Every successful decode has an advance of 2 to 6, and no step raises DecoderInvariantViolation (30_encoding.md
section 7, the spec's own derivation "from rule R95"). -/
def Obligations.AdvanceIsTwoToSix : Prop :=
  (∀ (c : Params) (bs : List Byte) (i : Instr) (len : Nat), decode c bs = .ok (i, len) → 2 ≤ len ∧ len ≤ 6) ∧
  (∀ (s : State) (p : Word), step s ≠ .fault (.decoderInvariantViolation p))

/-- A step raises UnimplementedOpcode exactly when the dispatch bytes are outside the byte-1 map (60_exceptions.md
R182), whatever bytes follow, and it records the offset and the two bytes. The map under 30_encoding.md R86 is the
spec's own derivation, and its opcode values are "from general knowledge" (92_eei_decisions.md D7, with D6, D8 and D9;
log 10, log 2). -/
def Obligations.UnimplementedOpcodes : Prop :=
  ∀ (s : State) (b1 b2 : Byte) (tail : List Byte), s.launchOk = true → s.codeFrom s.ip = b1 :: b2 :: tail →
    (step s = .fault (.unimplementedOpcode s.ip b1 b2) ↔ acceptedPair s.launch.params b1 b2 = false) ∧
    ∀ p c1 c2, step s = .fault (.unimplementedOpcode p c1 c2) → p = s.ip ∧ c1 = b1 ∧ c2 = b2

/-- A step raises IllegalSegmentEncoding exactly for a segment-register move with bit 5 of byte 2 set, from the two
dispatch bytes alone, whatever bytes follow or are missing (60_exceptions.md R183). -/
def Obligations.IllegalSegmentBit : Prop :=
  ∀ (s : State) (b1 b2 : Byte) (tail : List Byte), s.launchOk = true → s.codeFrom s.ip = b1 :: b2 :: tail →
    (step s = .fault (.illegalSegmentEncoding s.ip b1 b2) ↔
      (b1 = 0x8E#8 ∨ b1 = 0x8C#8) ∧ b2.getLsbD 5 = true)

/-- A one-byte tail is TruncatedInstruction with 2 bytes needed and 1 remaining, whatever the byte is
(60_exceptions.md R184; 30_encoding.md R97). The offset is recorded by the spec's decision D16 (log 11). -/
def Obligations.OneByteTailIsTruncated : Prop :=
  ∀ (s : State) (b : Byte), s.launchOk = true → s.codeFrom s.ip = [b] →
    step s = .fault (.truncatedInstruction s.ip 2 1)

/-- An instruction cut short anywhere is TruncatedInstruction: more bytes are needed than remain and no more than the
instruction has, and the bytes remaining are recorded (30_encoding.md R97). -/
def Obligations.CutInstructionIsTruncated : Prop :=
  ∀ (c : Params) (i : Instr) (k : Nat), i.wf = true → c.allows i = true → k < i.length →
    ∃ needed, k < needed ∧ needed ≤ i.length ∧ decode c ((encode i).take k) = .error (.truncated needed k)

/-- The order in which decode-time conditions are detected, on the spec's own cases (60_exceptions.md R191): `8E E0`
at the end is IllegalSegmentEncoding, `81 C8` followed by nothing is UnimplementedOpcode, `8E` alone is truncated, and
a missing displacement is noticed before a missing immediate. The order is the spec's own decision D18: "The source
does not state an order". -/
def Obligations.DetectionOrder : Prop :=
  decode Params.spec [0x8E#8, 0xE0#8] = .error (.illegalSegmentEncoding 0x8E#8 0xE0#8) ∧
  decode Params.spec [0x81#8, 0xC8#8] = .error (.unimplementedOpcode 0x81#8 0xC8#8) ∧
  decode Params.spec [0x8E#8] = .error (.truncated 2 1) ∧
  decode Params.spec [0xC7#8, 0x06#8, 0x64#8] = .error (.truncated 4 3) ∧
  decode Params.spec [0xC7#8, 0x06#8, 0x64#8, 0x00#8, 0x34#8] = .error (.truncated 6 5)

/-- With two register operands the two directions are one instruction: both encodings do the same (30_encoding.md
R71), for MOV, ADD, SUB and CMP. `d` is the destination (the first operand of CMP), `r` the source. -/
def Obligations.DirectionDuplicates : Prop :=
  ∀ (w : Width) (d r : BitVec 3) (s : State),
    exec (.movRmReg w (.reg d) r) s = exec (.movRegRm w d (.reg r)) s ∧
    exec (.addRmReg w (.reg d) r) s = exec (.addRegRm w d (.reg r)) s ∧
    exec (.subRmReg w (.reg d) r) s = exec (.subRegRm w d (.reg r)) s ∧
    exec (.cmpRmReg w (.reg d) r) s = exec (.cmpRegRm w d (.reg r)) s

/-- Bits that do not matter, by the spec's own decisions D8 and D21 (92_eei_decisions.md): in format IA bit 1 of byte
1 has no effect (30_encoding.md R84), and byte 1 = 0x82 means the same as 0x80 (R80): a byte operation uses only the
immediate's low byte. That the operation uses the low n bits of a sign-extended immediate is its decision D29. -/
def Obligations.IgnoredBitsHaveNoEffect : Prop :=
  (∀ (w : Width) (imm : Word) (s : State),
    exec (.addAccImm true w imm) s = exec (.addAccImm false w imm) s ∧
    exec (.subAccImm true w imm) s = exec (.subAccImm false w imm) s ∧
    exec (.cmpAccImm true w imm) s = exec (.cmpAccImm false w imm) s) ∧
  (∀ (rm : RM) (b : Byte) (s : State),
    exec (.addRmImm true .byte rm (b.signExtend 16)) s = exec (.addRmImm false .byte rm (b.setWidth 16)) s ∧
    exec (.subRmImm true .byte rm (b.signExtend 16)) s = exec (.subRmImm false .byte rm (b.setWidth 16)) s ∧
    exec (.cmpRmImm true .byte rm (b.signExtend 16)) s = exec (.cmpRmImm false .byte rm (b.setWidth 16)) s)

/-! ## The step -/

/-- A step runs the decoded instruction (50_step_cycle.md R172): when the launch premise holds, the run has not ended
and the bytes at IP decode to `i`, the step is `exec i`. IP moves past the instruction inside `exec`. -/
def Obligations.StepRunsDecodedInstruction : Prop :=
  ∀ (s : State) (i : Instr) (len : Nat), s.launchOk = true → s.halted = false →
    decode s.launch.params (s.codeFrom s.ip) = .ok (i, len) → step s = exec i s

/-- When the bytes at IP do not decode, the step raises that condition with the offset IP (60_exceptions.md R187,
R188). That the offset is recorded is the spec's decision D16, and that the condition is the whole outcome its
decision D17 (log 11). -/
def Obligations.StepRaisesDecodeConditions : Prop :=
  ∀ (s : State) (e : DecodeError), s.launchOk = true → s.halted = false →
    decode s.launch.params (s.codeFrom s.ip) = .error e → step s = .fault (decodeFault s.ip e)

/-- The end test (50_step_cycle.md R171, the spec's decision D26): no step is taken when IP >= N, and the model
refuses by name there, and for a buffer longer than 65536 bytes (10_state.md R25, D13); in every other state a step is
a next state or a fatal condition. The two refusals' names are the model's own choice (log 4, log 5). -/
def Obligations.StepRefusesOnlyAtTheEnd : Prop :=
  ∀ s : State,
    (65536 < s.launch.code.length → step s = .refused .codeTooLong) ∧
    (s.launch.code.length ≤ 65536 → s.launch.code.length ≤ s.ip.toNat → step s = .refused .runEnded) ∧
    (s.launch.code.length ≤ 65536 → s.ip.toNat < s.launch.code.length →
      (∃ t, step s = .next t) ∨ ∃ f, step s = .fault f)

/-- Stores are never seen by instruction fetch (20_memory.md section 7, the spec's own derivation "from rule R41 and
rule R42"): after any step the instruction, or the condition, at every offset is what it was before. -/
def Obligations.StoresNeverReachFetch : Prop :=
  ∀ s t : State, step s = .next t → (∀ p : Word, fetch t p = fetch s p) ∧ t.launch = s.launch

/-- A run's outcome does not depend on the step budget once it is reached (50_step_cycle.md R174: "CODE and MEM_INIT
determine the outcome"), and a final state has IP >= N (R180). That an aborted run has no final state is the spec's
decision D17 (log 11); the budget is the model's. -/
def Obligations.RunOutcomeIsStable : Prop :=
  ∀ (n k : Nat) (s : State),
    (∀ t, run n s = .final t → run (n + k) s = .final t ∧ t.launch.code.length ≤ t.ip.toNat) ∧
    (∀ f, run n s = .abort f → run (n + k) s = .abort f)

/-! ## Invariants -/

/-- Every step keeps the machine's invariant: the memory stays in its canonical form (all addresses below MEM_SIZE)
and CODE stays short enough (10_state.md R25, R33, R34). The canonical form is the model's choice (log 6); the bound
on CODE is the spec's decision D13. -/
def Obligations.StepKeepsInvariant : Prop :=
  ∀ s t : State, s.inv = true → step s = .next t → t.inv = true

/-- The invariant holds at reset, and in every state a launch with a canonical MEM_INIT and at most 65536 bytes of
CODE starts in (10_state.md R40, R25; the spec's decisions D3 and D13; the canonical form is the model's choice, log
6). -/
def Obligations.LaunchMeetsInvariant : Prop :=
  State.reset.inv = true ∧
  ∀ (code : List Byte) (memInit : Memory) (c : Params), memInit.wf = true → code.length ≤ 65536 →
    (State.launched code memInit c).inv = true

/-- Addresses 0x10000 to 0xFFFFF keep their contents for the whole run (20_memory.md R49): every step keeps the
invariant that memory from 0x10000 on is a given image. WORD_AT_FFFF = linear is the one reading under which a word at
0xFFFF would reach 0x10000 (R55, D12), so it is excluded. This is the spec's own derivation "from rule R47 and rule
R55". -/
def Obligations.HighMemoryKeepsItsContents : Prop :=
  ∀ (image : Nat → Byte) (s t : State),
    (s.policy ≠ .linear ∧ ∀ a, 0x10000 ≤ a → s.mem.read a = image a) → step s = .next t →
    (t.policy ≠ .linear ∧ ∀ a, 0x10000 ≤ a → t.mem.read a = image a)

/-- Reset (70_reset_and_hazards.md R197): every register, IP and FLAGS hold 0x0000 and the data memory holds MEM_INIT,
by default all 0x00. The values are the spec's decisions D2 and D3 (log 7, log 6). -/
def Obligations.ResetLeavesZero : Prop :=
  (∀ x : Slot, State.reset.regs.get x = 0x0000#16) ∧ State.reset.ip = 0x0000#16 ∧
  State.reset.flags = Flags.clear ∧ State.reset.flags.toWord = 0x0000#16 ∧ (∀ a : Nat, State.reset.mem.read a = 0x00#8) ∧
  ∀ (code : List Byte) (memInit : Memory) (c : Params),
    State.launched code memInit c =
      { State.reset with mem := memInit, launch := { code := code, params := c } }

/-! ## Registers, flags word, addresses, memory -/

/-- The register numbers of 10_state.md R17, both columns, and the segment register numbers of R20: the 8086's
numbering, which the spec supplies "from general knowledge" (D7, D11, log 10). -/
def Obligations.RegisterNumbers : Prop :=
  ([0b000#3, 0b001#3, 0b010#3, 0b011#3, 0b100#3, 0b101#3, 0b110#3, 0b111#3].map (regOf .word) =
    [.full .ax, .full .cx, .full .dx, .full .bx, .full .sp, .full .bp, .full .si, .full .di]) ∧
  ([0b000#3, 0b001#3, 0b010#3, 0b011#3, 0b100#3, 0b101#3, 0b110#3, 0b111#3].map (regOf .byte) =
    [.low .ax, .low .cx, .low .dx, .low .bx, .high .ax, .high .cx, .high .dx, .high .bx]) ∧
  ([0b00#2, 0b01#2, 0b10#2, 0b11#2].map segOf = [.es, .cs, .ss, .ds]) ∧
  ([SegReg.es, .cs, .ss, .ds].map segReg = [.full .es, .full .cs, .full .ss, .full .ds])

/-- The two laws of 10_state.md R16: writing the low half and then the high half leaves their concatenation in the
slot, and a whole write is read back by the two halves. -/
def Obligations.HalfRegisterAliasing : Prop :=
  ∀ (rf : RegFile) (x : ByteSlot) (a b : Byte) (v : Word),
    ((rf.writeReg (.low x) a).writeReg (.high x) b).get x.slot = b ++ a ∧
    (rf.set x.slot v).readReg (.low x) = v.extractLsb' 0 8 ∧
    (rf.set x.slot v).readReg (.high x) = v.extractLsb' 8 8

/-- The FLAGS word: CF bit 0, PF 2, AF 4, ZF 6, SF 7, OF 11 (10_state.md R27), and bits 1, 3, 5, 8, 9, 10, 12 to 15
are 0 in every state (R28): the spec's decision D4 (log 3). -/
def Obligations.FlagsWordLayout : Prop :=
  ∀ f : Flags,
    f.toWord.getLsbD 0 = f.cf ∧ f.toWord.getLsbD 2 = f.pf ∧ f.toWord.getLsbD 4 = f.af ∧
    f.toWord.getLsbD 6 = f.zf ∧ f.toWord.getLsbD 7 = f.sf ∧ f.toWord.getLsbD 11 = f.of ∧
    ∀ k ∈ [1, 3, 5, 8, 9, 10, 12, 13, 14, 15], f.toWord.getLsbD k = false

/-- Effective addresses (20_memory.md R47, R48): the base sum plus the displacement as natural numbers, mod 2^16, for
each of the nine kinds. -/
def Obligations.EffectiveAddresses : Prop :=
  ∀ (rf : RegFile) (d : Word),
    (MemOperand.ea ⟨.based .bxSi, d⟩ rf).toNat = (rf.bx.toNat + rf.si.toNat + d.toNat) % 65536 ∧
    (MemOperand.ea ⟨.based .bxDi, d⟩ rf).toNat = (rf.bx.toNat + rf.di.toNat + d.toNat) % 65536 ∧
    (MemOperand.ea ⟨.based .bpSi, d⟩ rf).toNat = (rf.bp.toNat + rf.si.toNat + d.toNat) % 65536 ∧
    (MemOperand.ea ⟨.based .bpDi, d⟩ rf).toNat = (rf.bp.toNat + rf.di.toNat + d.toNat) % 65536 ∧
    (MemOperand.ea ⟨.based .si, d⟩ rf).toNat = (rf.si.toNat + d.toNat) % 65536 ∧
    (MemOperand.ea ⟨.based .di, d⟩ rf).toNat = (rf.di.toNat + d.toNat) % 65536 ∧
    (MemOperand.ea ⟨.based .bp, d⟩ rf).toNat = (rf.bp.toNat + d.toNat) % 65536 ∧
    (MemOperand.ea ⟨.based .bx, d⟩ rf).toNat = (rf.bx.toNat + d.toNat) % 65536 ∧
    MemOperand.ea ⟨.direct, d⟩ rf = d

/-- `MemRead` (20_memory.md R51): a byte is M[addr], a word is M[addr + 1] ++ M[addr], and a word at 0xFFFF raises
MemoryRangeFault at the spec's value of WORD_AT_FFFF (R55, the spec's decision D12). -/
def Obligations.MemoryReads : Prop :=
  ∀ (p ea : Word) (s : State),
    memRead p ea .byte s = .ok (s.mem.read ea.toNat) ∧
    (ea ≠ 0xFFFF#16 → memRead p ea .word s = .ok (s.mem.read (ea.toNat + 1) ++ s.mem.read ea.toNat)) ∧
    (ea = 0xFFFF#16 → s.policy = .fault → memRead p ea .word s = .error (.memoryRangeFault p ea .word))

/-- `MemWrite` (20_memory.md R52) in a canonical memory: a byte write leaves v[7:0] at the address, a word write
v[7:0] there and v[15:8] at the next, every other byte and every register is unchanged, and a word write at 0xFFFF
raises MemoryRangeFault at the spec's value of WORD_AT_FFFF (R55, the spec's decision D12). -/
def Obligations.MemoryWrites : Prop :=
  ∀ (p ea : Word) (s : State), s.mem.wf = true →
    (∀ v : Byte, ∃ t, memWrite p ea .byte v s = .ok t ∧ t.mem.read ea.toNat = v ∧
      (∀ a, a ≠ ea.toNat → t.mem.read a = s.mem.read a) ∧ t.regs = s.regs ∧ t.ip = s.ip ∧ t.flags = s.flags) ∧
    (∀ v : Word, ea ≠ 0xFFFF#16 → ∃ t, memWrite p ea .word v s = .ok t ∧
      t.mem.read ea.toNat = v.extractLsb' 0 8 ∧ t.mem.read (ea.toNat + 1) = v.extractLsb' 8 8 ∧
      (∀ a, a ≠ ea.toNat → a ≠ ea.toNat + 1 → t.mem.read a = s.mem.read a) ∧
      t.regs = s.regs ∧ t.ip = s.ip ∧ t.flags = s.flags) ∧
    (∀ v : Word, ea = 0xFFFF#16 → s.policy = .fault → memWrite p ea .word v s = .error (.memoryRangeFault p ea .word))

/-- The other two readings of a word at 0xFFFF (92_eei_decisions.md D12; 20_memory.md R55 leaves them to a parameter):
the high byte is at 0x10000 (linear) or at 0x0000 (wrap16), for reads and for writes. -/
def Obligations.TopWordUnderOtherPolicies : Prop :=
  ∀ (p : Word) (s : State) (hi : Nat),
    (s.policy = .linear ∧ hi = 0x10000) ∨ (s.policy = .wrap16 ∧ hi = 0) → s.mem.wf = true →
    memRead p 0xFFFF#16 .word s = .ok (s.mem.read hi ++ s.mem.read 0xFFFF) ∧
    ∀ v : Word, ∃ t, memWrite p 0xFFFF#16 .word v s = .ok t ∧
      t.mem.read 0xFFFF = v.extractLsb' 0 8 ∧ t.mem.read hi = v.extractLsb' 8 8 ∧
      ∀ a, a ≠ 0xFFFF → a ≠ hi → t.mem.read a = s.mem.read a

/-- A word access at EA = 0xFFFF raises MemoryRangeFault at the spec's value of WORD_AT_FFFF (20_memory.md R55;
60_exceptions.md R185), by every instruction form with a word memory operand, whether it reads or writes it; the
offset recorded is the instruction's own, not the advanced IP (R187, R189). The spec's decisions D12, D16 and D17 (log
11). -/
def Obligations.TopWordAccessStops : Prop :=
  ∀ (s : State), s.policy = .fault →
    (∀ (rm : RM) (m : MemOperand) (r : BitVec 3) (imm : Word) (sr : SegReg) (sb : Bool) (i : Instr),
      rmPlace .word rm = .mem m → m.ea s.regs = 0xFFFF#16 →
      i ∈ [.movRmReg .word rm r, .movRegRm .word r rm, .movRmImm .word rm imm, .movSegRm sr rm, .movRmSeg rm sr,
        .addRmReg .word rm r, .addRegRm .word r rm, .addRmImm sb .word rm imm,
        .subRmReg .word rm r, .subRegRm .word r rm, .subRmImm sb .word rm imm,
        .cmpRmReg .word rm r, .cmpRegRm .word r rm, .cmpRmImm sb .word rm imm] →
      exec i s = .fault (.memoryRangeFault s.ip 0xFFFF#16 .word)) ∧
    exec (.movAccMem .word 0xFFFF#16) s = .fault (.memoryRangeFault s.ip 0xFFFF#16 .word) ∧
    exec (.movMemAcc .word 0xFFFF#16) s = .fault (.memoryRangeFault s.ip 0xFFFF#16 .word)

/-- The only execute-time condition is MemoryRangeFault, and its one reachable cause is a 16-bit access at EA = 0xFFFF
(60_exceptions.md R185): whatever the instruction, `exec` answers a next state or that, and no instruction is refused.
The spec's decision D12, and D16 for the offset recorded (log 11). -/
def Obligations.ExecStopsOnlyAtTopWord : Prop :=
  ∀ (i : Instr) (s : State),
    (∃ t, exec i s = .next t) ∨
    (s.policy = .fault ∧ exec i s = .fault (.memoryRangeFault s.ip 0xFFFF#16 .word))

/-! ## Whole-machine rules -/

/-- The whole frame of every instruction: no slot outside those of its row and no byte outside those it stores to
changes, and the launch never does (10_state.md R10, R26; 20_memory.md R52, R57). That no instruction names IP is the
spec's own derivation in R26; what a word store at 0xFFFF covers is its decision D12. -/
def Obligations.EveryInstructionKeepsTheRest : Prop :=
  ∀ (i : Instr) (s t : State), exec i s = .next t →
    (∀ x : Slot, x ∉ i.slots → t.regs.get x = s.regs.get x) ∧
    (∀ a : Nat, a ∉ i.stores s → t.mem.read a = s.mem.read a) ∧
    t.launch = s.launch

/-- The flags' writers (10_state.md R29): an instruction other than ADD, SUB and CMP leaves all six flags as they
were. An ADD, SUB or CMP writes all six every time, so that what it does never depends on the old flags, and what it
writes is the flag generator's answer for its own operation on its own operands' old values (41_alu.md R126 to R132). AF
is the spec's decision D15, and a memory first operand (R133) its decision D14. -/
def Obligations.OnlyAluWritesFlags : Prop :=
  ∀ (i : Instr) (s : State),
    (i.isAlu = false → ∀ t, exec i s = .next t → t.flags = s.flags) ∧
    (i.isAlu = true → ∀ g : Flags, exec i { s with flags := g } = exec i s) ∧
    (i.isAlu = true → ∀ t, exec i s = .next t → i.flagsFrom? s = some t.flags)

/-- AF is read by no instruction (10_state.md R30): two states that differ in AF alone have outcomes that differ in AF
at most. -/
def Obligations.AuxiliaryCarryIsNeverRead : Prop :=
  ∀ (i : Instr) (s : State) (b : Bool),
    mapNext (fun t => t.withAf false) (exec i (s.withAf b)) = mapNext (fun t => t.withAf false) (exec i s)

/-- The segment registers are plain storage (10_state.md R19, R21): no instruction other than the segment-register
moves reads or writes one, whether for an address or otherwise. The spec's own derivation "from `30_encoding.md` rule
R76". The segment moves are decoded by its decision D11. -/
def Obligations.SegmentRegistersAreInert : Prop :=
  ∀ (i : Instr) (s : State) (es cs ss ds : Word), i.isSegMove = false →
    exec i (s.withSegs es cs ss ds) = mapNext (fun t => t.withSegs es cs ss ds) (exec i s)

/-- Where IP goes (10_state.md R24): past the instruction, and for a format J instruction possibly on by its signed
displacement; mod 2^16 (R25, the spec's decision D13). -/
def Obligations.IpAdvancesByLength : Prop :=
  ∀ (i : Instr) (s t : State), exec i s = .next t →
    (i.rel? = none → t.ip = s.ip + BitVec.ofNat 16 i.length) ∧
    (∀ rel, i.rel? = some rel →
      i.length = 2 ∧ (t.ip = s.ip + 2#16 ∨ t.ip = s.ip + 2#16 + rel.signExtend 16))

/-! ## MOV -/

/-- `mov r/m, reg` and `mov reg, r/m` (40_mov.md R116, R117; execution R115): unless the memory operand is out of
range they complete, the destination holds the source's old value, IP is past the instruction, and no flag changes.
The address is computed from the registers the instruction started with (R114, the spec's decision D23). -/
def Obligations.MovBetweenRegisterAndPlace : Prop :=
  ∀ (w : Width) (rm : RM) (r : BitVec 3) (s : State), (rmPlace w rm).ready s = true →
    (∃ t, exec (.movRmReg w rm r) s = .next t ∧
      (s.mem.wf = true → (rmPlace w rm).value t = s.regs.readReg (regOf w r)) ∧
      t.ip = s.ip + BitVec.ofNat 16 (2 + rm.dispLen) ∧ t.flags = s.flags) ∧
    (∃ t, exec (.movRegRm w r rm) s = .next t ∧
      t.regs.readReg (regOf w r) = (rmPlace w rm).value s ∧
      t.ip = s.ip + BitVec.ofNat 16 (2 + rm.dispLen) ∧ t.flags = s.flags)

/-- `mov r/m, imm` (40_mov.md R118) and `mov reg, imm` (R119): the destination holds imm[n-1:0]. -/
def Obligations.MovImmediate : Prop :=
  (∀ (w : Width) (rm : RM) (imm : Word) (s : State), (rmPlace w rm).ready s = true →
    ∃ t, exec (.movRmImm w rm imm) s = .next t ∧
      (s.mem.wf = true → (rmPlace w rm).value t = imm.setWidth w.bits) ∧
      t.ip = s.ip + BitVec.ofNat 16 (2 + rm.dispLen + w.immLen) ∧ t.flags = s.flags) ∧
  (∀ (w : Width) (r : BitVec 3) (imm : Word) (s : State),
    ∃ t, exec (.movRegImm w r imm) s = .next t ∧
      t.regs.readReg (regOf w r) = imm.setWidth w.bits ∧
      t.ip = s.ip + BitVec.ofNat 16 (1 + w.immLen) ∧ t.flags = s.flags)

/-- `mov acc, [addr]` (40_mov.md R120) and `mov [addr], acc` (R121): AL or AX and the byte or word at the constant
address; the length is 3 whatever the width. -/
def Obligations.MovAccumulatorMemory : Prop :=
  ∀ (w : Width) (addr : Word) (s : State), rangeFaults s.policy addr w = false →
    (∃ t, exec (.movAccMem w addr) s = .next t ∧
      t.regs.readReg (acc w) = s.mem.load s.policy addr w ∧ t.ip = s.ip + 3#16 ∧ t.flags = s.flags) ∧
    (∃ t, exec (.movMemAcc w addr) s = .next t ∧
      (s.mem.wf = true → t.mem.load s.policy addr w = s.regs.readReg (acc w)) ∧
      t.ip = s.ip + 3#16 ∧ t.flags = s.flags)

/-- `mov sreg, r/m16` (40_mov.md R122) and `mov r/m16, sreg` (R123): all 16 bits move, CS is a destination like the
others and writing it does not move the fetch (10_state.md R22, the spec's decision D11). -/
def Obligations.MovSegment : Prop :=
  ∀ (sr : SegReg) (rm : RM) (s : State), (rmPlace .word rm).ready s = true →
    (∃ t, exec (.movSegRm sr rm) s = .next t ∧
      t.regs.get (segSlot sr) = (rmPlace .word rm).value s ∧
      t.ip = s.ip + BitVec.ofNat 16 (2 + rm.dispLen) ∧ t.flags = s.flags) ∧
    (∃ t, exec (.movRmSeg rm sr) s = .next t ∧
      (s.mem.wf = true → (rmPlace .word rm).value t = s.regs.get (segSlot sr)) ∧
      t.ip = s.ip + BitVec.ofNat 16 (2 + rm.dispLen) ∧ t.flags = s.flags)

/-- The frame of the eight MOV forms: nothing but the destination and IP changes (40_mov.md R115; 20_memory.md R52).
The address stored to is that of the destination operand, computed in the state before. -/
def Obligations.MovChangesOnlyItsDestination : Prop :=
  ∀ (w : Width) (rm : RM) (r : BitVec 3) (imm addr : Word) (sr : SegReg) (s t : State),
    (exec (.movRmReg w rm r) s = .next t → ChangesOnly (rmPlace w rm) s t ∧ t.flags = s.flags) ∧
    (exec (.movRegRm w r rm) s = .next t → ChangesOnly (regPlace w r) s t ∧ t.flags = s.flags) ∧
    (exec (.movRmImm w rm imm) s = .next t → ChangesOnly (rmPlace w rm) s t ∧ t.flags = s.flags) ∧
    (exec (.movRegImm w r imm) s = .next t → ChangesOnly (regPlace w r) s t ∧ t.flags = s.flags) ∧
    (exec (.movAccMem w addr) s = .next t → ChangesOnly (regPlace w 0b000#3) s t ∧ t.flags = s.flags) ∧
    (exec (.movMemAcc w addr) s = .next t → ChangesOnly (directPlace w addr) s t ∧ t.flags = s.flags) ∧
    (exec (.movSegRm sr rm) s = .next t → ChangesOnly (.reg (segReg sr)) s t ∧ t.flags = s.flags) ∧
    (exec (.movRmSeg rm sr) s = .next t → ChangesOnly (rmPlace .word rm) s t ∧ t.flags = s.flags)

/-! ## ADD, SUB, CMP -/

/-- The result (41_alu.md R125): the sum mod 2^n, or the difference mod 2^n, for SUB and CMP alike. -/
def Obligations.AluResultIsModular : Prop :=
  ∀ (w : Width) (a b : BitVec w.bits),
    (aluResult .add a b).toNat = (a.toNat + b.toNat) % 2 ^ w.bits ∧
    (aluResult .sub a b).toNat = (a.toNat + 2 ^ w.bits - b.toNat) % 2 ^ w.bits ∧
    aluResult .cmp a b = aluResult .sub a b

/-- Carry, overflow, sign, zero and parity (41_alu.md R126, R128 to R131), each by its rule's own formula, at both
widths: `sign(x)` is bit n-1, parity counts the set bits among the low eight, and OF says that the true signed sum or
difference lies outside -2^(n-1) to 2^(n-1) - 1. -/
def Obligations.FlagRules : Prop :=
  ∀ (w : Width) (a b : BitVec w.bits),
    ((aluFlags .add a b).cf = true ↔ a.toNat + b.toNat > 2 ^ w.bits - 1) ∧
    ((aluFlags .add a b).of = true ↔
      a.getLsbD (w.bits - 1) = b.getLsbD (w.bits - 1) ∧
      (aluResult .add a b).getLsbD (w.bits - 1) ≠ a.getLsbD (w.bits - 1)) ∧
    ((aluFlags .add a b).of = true ↔
      a.toInt + b.toInt < -(2 ^ (w.bits - 1) : Int) ∨ 2 ^ (w.bits - 1) - 1 < a.toInt + b.toInt) ∧
    (∀ op : AluOp, op ≠ .add →
      ((aluFlags op a b).cf = true ↔ a.toNat < b.toNat) ∧
      ((aluFlags op a b).of = true ↔
        a.getLsbD (w.bits - 1) ≠ b.getLsbD (w.bits - 1) ∧
        (aluResult op a b).getLsbD (w.bits - 1) ≠ a.getLsbD (w.bits - 1)) ∧
      ((aluFlags op a b).of = true ↔
        a.toInt - b.toInt < -(2 ^ (w.bits - 1) : Int) ∨ 2 ^ (w.bits - 1) - 1 < a.toInt - b.toInt)) ∧
    (∀ op : AluOp,
      (aluFlags op a b).sf = (aluResult op a b).getLsbD (w.bits - 1) ∧
      ((aluFlags op a b).zf = true ↔ (aluResult op a b).toNat = 0) ∧
      ((aluFlags op a b).pf = true ↔
        (List.range 8).countP (fun k => (aluResult op a b).getLsbD k) % 2 = 0))

/-- The auxiliary carry (41_alu.md R127, the spec's decision D15): carry or borrow between bit 3 and bit 4 of the
n-bit inputs, and its other reading, bit 4 of a xor b xor r. -/
def Obligations.AuxiliaryCarryRules : Prop :=
  ∀ (w : Width) (a b : BitVec w.bits),
    ((aluFlags .add a b).af = true ↔ (a.extractLsb' 0 4).toNat + (b.extractLsb' 0 4).toNat > 15) ∧
    (∀ op : AluOp, op ≠ .add →
      ((aluFlags op a b).af = true ↔ (a.extractLsb' 0 4).toNat < (b.extractLsb' 0 4).toNat)) ∧
    (∀ op : AluOp, (aluFlags op a b).af = (a ^^^ b ^^^ aluResult op a b).getLsbD 4)

/-- What the two overflow flags say of the result (41_alu.md section 1): OF that, read as a signed number, it is not
the true signed sum or difference, and CF that, read as an unsigned number, it is not the true unsigned one. -/
def Obligations.FlagsSayWhatWasLost : Prop :=
  ∀ (w : Width) (a b : BitVec w.bits),
    ((aluFlags .add a b).of = true ↔ (aluResult .add a b).toInt ≠ a.toInt + b.toInt) ∧
    ((aluFlags .sub a b).of = true ↔ (aluResult .sub a b).toInt ≠ a.toInt - b.toInt) ∧
    ((aluFlags .add a b).cf = true ↔ (aluResult .add a b).toNat ≠ a.toNat + b.toNat) ∧
    ((aluFlags .sub a b).cf = true ↔ ((aluResult .sub a b).toNat : Int) ≠ (a.toNat : Int) - (b.toNat : Int))

/-- `add/sub/cmp r/m, reg` (41_alu.md R135, R139, R143; execution R132, with memory destinations R133): unless the
memory operand is out of range they complete; the first operand holds the result (for CMP nothing is written), and all
six flags are those of the operation on the old values. The memory-destination case is the spec's decision D14. -/
def Obligations.AluRegisterIntoPlace : Prop :=
  ∀ (op : AluOp) (mk : Width → RM → BitVec 3 → Instr),
    (op, mk) ∈ [(AluOp.add, Instr.addRmReg), (AluOp.sub, Instr.subRmReg), (AluOp.cmp, Instr.cmpRmReg)] →
    ∀ (w : Width) (rm : RM) (r : BitVec 3) (s : State), (rmPlace w rm).ready s = true →
      ∃ t, exec (mk w rm r) s = .next t ∧
        t.flags = aluFlags op ((rmPlace w rm).value s) (s.regs.readReg (regOf w r)) ∧
        (op ≠ .cmp → s.mem.wf = true →
          (rmPlace w rm).value t = aluResult op ((rmPlace w rm).value s) (s.regs.readReg (regOf w r))) ∧
        (op = .cmp → t.regs = s.regs ∧ t.mem = s.mem) ∧
        t.ip = s.ip + BitVec.ofNat 16 (2 + rm.dispLen)

/-- `add/sub/cmp reg, r/m` (41_alu.md R136, R140, R144; execution R132): the register is the first operand. -/
def Obligations.AluPlaceIntoRegister : Prop :=
  ∀ (op : AluOp) (mk : Width → BitVec 3 → RM → Instr),
    (op, mk) ∈ [(AluOp.add, Instr.addRegRm), (AluOp.sub, Instr.subRegRm), (AluOp.cmp, Instr.cmpRegRm)] →
    ∀ (w : Width) (rm : RM) (r : BitVec 3) (s : State), (rmPlace w rm).ready s = true →
      ∃ t, exec (mk w r rm) s = .next t ∧
        t.flags = aluFlags op (s.regs.readReg (regOf w r)) ((rmPlace w rm).value s) ∧
        (op ≠ .cmp → t.regs.readReg (regOf w r) =
          aluResult op (s.regs.readReg (regOf w r)) ((rmPlace w rm).value s)) ∧
        (op = .cmp → t.regs = s.regs) ∧ t.mem = s.mem ∧
        t.ip = s.ip + BitVec.ofNat 16 (2 + rm.dispLen)

/-- `add/sub/cmp r/m, imm` (41_alu.md R137, R141, R145; execution R132): the second operand is imm[n-1:0]. The
memory-destination case (R133) is the spec's decision D14; the S = 1 immediate is its decision D29. -/
def Obligations.AluImmediateIntoPlace : Prop :=
  ∀ (op : AluOp) (mk : Bool → Width → RM → Word → Instr),
    (op, mk) ∈ [(AluOp.add, Instr.addRmImm), (AluOp.sub, Instr.subRmImm), (AluOp.cmp, Instr.cmpRmImm)] →
    ∀ (sb : Bool) (w : Width) (rm : RM) (imm : Word) (s : State), (rmPlace w rm).ready s = true →
      ∃ t, exec (mk sb w rm imm) s = .next t ∧
        t.flags = aluFlags op ((rmPlace w rm).value s) (imm.setWidth w.bits) ∧
        (op ≠ .cmp → s.mem.wf = true →
          (rmPlace w rm).value t = aluResult op ((rmPlace w rm).value s) (imm.setWidth w.bits)) ∧
        (op = .cmp → t.regs = s.regs ∧ t.mem = s.mem) ∧
        t.ip = s.ip + BitVec.ofNat 16 (2 + rm.dispLen + immLenS sb w)

/-- `add/sub/cmp acc, imm` (41_alu.md R138, R142, R146; execution R132): AL or AX and imm[n-1:0], in every state. -/
def Obligations.AluImmediateIntoAccumulator : Prop :=
  ∀ (op : AluOp) (mk : Bool → Width → Word → Instr),
    (op, mk) ∈ [(AluOp.add, Instr.addAccImm), (AluOp.sub, Instr.subAccImm), (AluOp.cmp, Instr.cmpAccImm)] →
    ∀ (x : Bool) (w : Width) (imm : Word) (s : State),
      ∃ t, exec (mk x w imm) s = .next t ∧
        t.flags = aluFlags op (s.regs.readReg (acc w)) (imm.setWidth w.bits) ∧
        (op ≠ .cmp → t.regs.readReg (acc w) = aluResult op (s.regs.readReg (acc w)) (imm.setWidth w.bits)) ∧
        (op = .cmp → t.regs = s.regs) ∧ t.mem = s.mem ∧
        t.ip = s.ip + BitVec.ofNat 16 (1 + w.immLen)

/-- The frame of ADD and SUB, all eight forms: nothing but the first operand, the flags and IP changes (41_alu.md
R132; 20_memory.md R52). CMP's frame is CmpWritesNothing. The memory-destination case (R133) is the spec's decision
D14. -/
def Obligations.AddSubChangeOnlyTheirDestination : Prop :=
  ∀ (sb : Bool) (w : Width) (rm : RM) (r : BitVec 3) (imm : Word) (s t : State),
    (∀ i ∈ [Instr.addRmReg w rm r, .addRmImm sb w rm imm, .subRmReg w rm r, .subRmImm sb w rm imm],
      exec i s = .next t → ChangesOnly (rmPlace w rm) s t) ∧
    (∀ i ∈ [Instr.addRegRm w r rm, .subRegRm w r rm], exec i s = .next t → ChangesOnly (regPlace w r) s t) ∧
    (∀ i ∈ [Instr.addAccImm sb w imm, .subAccImm sb w imm],
      exec i s = .next t → ChangesOnly (regPlace w 0b000#3) s t)

/-- CMP purity (41_alu.md R134), all four forms: CMP changes FLAGS and IP and nothing else, and its flags are those of
the SUB with the same operands, which completes whenever the CMP does. With it the table of corner cases under the
rule, which the spec marks as derived from R125 to R131, every row: the fixed operands (0 + 0 at both widths), and a
value subtracted from itself or added to itself at width n. A memory first operand (R133) is the spec's decision D14,
and AF its decision D15. -/
def Obligations.CmpWritesNothing : Prop :=
  (∀ (sb : Bool) (w : Width) (rm : RM) (r : BitVec 3) (imm : Word) (i j : Instr) (s t : State),
    (i, j) ∈ [(Instr.cmpRmReg w rm r, Instr.subRmReg w rm r), (.cmpRegRm w r rm, .subRegRm w r rm),
      (.cmpRmImm sb w rm imm, .subRmImm sb w rm imm), (.cmpAccImm sb w imm, .subAccImm sb w imm)] →
    exec i s = .next t →
    t.regs = s.regs ∧ t.mem = s.mem ∧ t.launch = s.launch ∧
    ∃ u, exec j s = .next u ∧ u.flags = t.flags ∧ u.ip = t.ip) ∧
  (∀ (op : AluOp) (a b r : Byte) (f : List Char), (op, a, b, r, f) ∈
    [(AluOp.add, 0xFF#8, 0x01#8, 0x00#8, ['C', 'P', 'A', 'Z']), (.add, 0x7F#8, 0x01#8, 0x80#8, ['A', 'S', 'O']),
      (.add, 0x80#8, 0x80#8, 0x00#8, ['C', 'P', 'Z', 'O']), (.add, 0x00#8, 0x00#8, 0x00#8, ['P', 'Z']),
      (.sub, 0x00#8, 0x01#8, 0xFF#8, ['C', 'P', 'A', 'S']), (.sub, 0x80#8, 0x01#8, 0x7F#8, ['A', 'O'])] →
    aluResult op a b = r ∧ (aluFlags op a b).letters = f) ∧
  (∀ (op : AluOp) (a b r : Word) (f : List Char), (op, a, b, r, f) ∈
    [(AluOp.add, 0x7FFF#16, 0x0001#16, 0x8000#16, ['P', 'A', 'S', 'O']),
      (.add, 0x00FF#16, 0x0001#16, 0x0100#16, ['P', 'A']), (.add, 0x0000#16, 0x0000#16, 0x0000#16, ['P', 'Z']),
      (.sub, 0x0000#16, 0x8000#16, 0x8000#16, ['C', 'P', 'S', 'O'])] →
    aluResult op a b = r ∧ (aluFlags op a b).letters = f) ∧
  (∀ (w : Width) (x : BitVec w.bits),
    (aluResult .sub x x).toNat = 0 ∧ (aluFlags .sub x x).letters = ['P', 'Z'] ∧
    (aluResult .add x x).toNat = 2 * x.toNat % 2 ^ w.bits)

/-- Subtracting a register from itself leaves 0 in it with flags P and Z, comparing it with itself sets the same flags
(41_alu.md R139, R143), and adding it to itself doubles it mod 2^n (the table under R134). That both reads come before
the write is the spec's decision D23. -/
def Obligations.RegisterWithItself : Prop :=
  ∀ (w : Width) (r : BitVec 3) (s : State),
    (∃ t, exec (.subRmReg w (.reg r) r) s = .next t ∧ (t.regs.readReg (regOf w r)).toNat = 0 ∧
      t.flags = { cf := false, pf := true, af := false, zf := true, sf := false, of := false }) ∧
    (∃ t, exec (.cmpRmReg w (.reg r) r) s = .next t ∧ t.regs = s.regs ∧
      t.flags = { cf := false, pf := true, af := false, zf := true, sf := false, of := false }) ∧
    (∃ t, exec (.addRmReg w (.reg r) r) s = .next t ∧
      (t.regs.readReg (regOf w r)).toNat = 2 * (s.regs.readReg (regOf w r)).toNat % 2 ^ w.bits)

/-! ## Jumps and loops -/

/-- The condition evaluator (42_jcc.md R147): the sixteen conditions, and every odd opcode's condition is the exact
complement of the even one before it. The conditions are the 8086's, which the spec supplies "from general knowledge"
(92_eei_decisions.md D6, log 10). -/
def Obligations.ConditionTable : Prop :=
  ∀ f : Flags,
    (evalCond f .o = true ↔ f.of = true) ∧ (evalCond f .b = true ↔ f.cf = true) ∧
    (evalCond f .e = true ↔ f.zf = true) ∧ (evalCond f .be = true ↔ f.cf = true ∨ f.zf = true) ∧
    (evalCond f .s = true ↔ f.sf = true) ∧ (evalCond f .p = true ↔ f.pf = true) ∧
    (evalCond f .l = true ↔ f.sf ≠ f.of) ∧ (evalCond f .le = true ↔ f.zf = true ∨ f.sf ≠ f.of) ∧
    ∀ cc : BitVec 4, cc.getLsbD 0 = true → evalCond f (condOf cc) = !evalCond f (condOf (cc - 1#4))

/-- What the conditions mean after `cmp a, b` or `sub` (42_jcc.md R149), at both widths: equality, unsigned and signed
order, the sign and the fit of the signed difference, and its low byte's parity. The spec's own derivation "from rule
R126, rule R128, rule R129, rule R130 and rule R147". The conditions are general knowledge (D6, log 10). For `jo` and
`jno` R149's row reads the other way round ("the signed difference does / does not fit n bits") and contradicts R128
with R147 and R150: the statement follows these, `jo` true when the difference does not fit, and departs from the row
by the model's choice (log 19, DESIGN CHOICE): 90_conflicts.md C9 makes R126 to R131 and R147 the defining rules, but
does not name the row. -/
def Obligations.ConditionsAfterComparison : Prop :=
  ∀ (op : AluOp) (w : Width) (a b : BitVec w.bits), op ≠ .add →
    (evalCond (aluFlags op a b) .e = true ↔ a = b) ∧ (evalCond (aluFlags op a b) .ne = true ↔ a ≠ b) ∧
    (evalCond (aluFlags op a b) .b = true ↔ a.toNat < b.toNat) ∧
    (evalCond (aluFlags op a b) .nb = true ↔ a.toNat ≥ b.toNat) ∧
    (evalCond (aluFlags op a b) .be = true ↔ a.toNat ≤ b.toNat) ∧
    (evalCond (aluFlags op a b) .a = true ↔ a.toNat > b.toNat) ∧
    (evalCond (aluFlags op a b) .l = true ↔ a.toInt < b.toInt) ∧
    (evalCond (aluFlags op a b) .nl = true ↔ a.toInt ≥ b.toInt) ∧
    (evalCond (aluFlags op a b) .le = true ↔ a.toInt ≤ b.toInt) ∧
    (evalCond (aluFlags op a b) .g = true ↔ a.toInt > b.toInt) ∧
    (evalCond (aluFlags op a b) .s = (a - b).getLsbD (w.bits - 1)) ∧
    (evalCond (aluFlags op a b) .ns = !(a - b).getLsbD (w.bits - 1)) ∧
    (evalCond (aluFlags op a b) .no = true ↔
      -(2 ^ (w.bits - 1) : Int) ≤ a.toInt - b.toInt ∧ a.toInt - b.toInt ≤ 2 ^ (w.bits - 1) - 1) ∧
    (evalCond (aluFlags op a b) .o = !evalCond (aluFlags op a b) .no) ∧
    (evalCond (aluFlags op a b) .p = true ↔ (List.range 8).countP (fun k => (a - b).getLsbD k) % 2 = 0) ∧
    (evalCond (aluFlags op a b) .np = !evalCond (aluFlags op a b) .p)

/-- The sixteen conditional jumps (42_jcc.md R148, R150 to R165): each completes in every state; IP goes to A + 2 plus
the sign-extended displacement when its condition on the flags holds, to A + 2 otherwise, and nothing else changes.
Which condition each jump tests is supplied by the spec "from general knowledge" (R147, 92_eei_decisions.md D6, log
10). -/
def Obligations.ConditionalJumps : Prop :=
  ∀ (rel : Byte) (s : State) (i : Instr) (taken : Bool),
    (i, taken) ∈ [(Instr.jo rel, s.flags.of), (.jno rel, !s.flags.of), (.jb rel, s.flags.cf), (.jnb rel, !s.flags.cf),
      (.je rel, s.flags.zf), (.jne rel, !s.flags.zf), (.jbe rel, s.flags.cf || s.flags.zf),
      (.ja rel, !s.flags.cf && !s.flags.zf), (.js rel, s.flags.sf), (.jns rel, !s.flags.sf), (.jp rel, s.flags.pf),
      (.jnp rel, !s.flags.pf), (.jl rel, s.flags.sf ^^ s.flags.of), (.jnl rel, !(s.flags.sf ^^ s.flags.of)),
      (.jle rel, s.flags.zf || (s.flags.sf ^^ s.flags.of)), (.jg rel, !s.flags.zf && !(s.flags.sf ^^ s.flags.of))] →
    exec i s = .next { s with ip := if taken then s.ip + 2#16 + rel.signExtend 16 else s.ip + 2#16 }

/-- Where a branch lands (42_jcc.md R148): a jump or loop at offset A either goes on at A + 2 or lands on the address
of the instruction + 2 + D, D the signed displacement, as numbers mod 2^16; all twenty format J rows. The wrap mod
2^16 is the spec's decision D13. -/
def Obligations.BranchTargets : Prop :=
  ∀ (rel : Byte) (i : Instr) (s t : State),
    i ∈ [Instr.jo rel, .jno rel, .jb rel, .jnb rel, .je rel, .jne rel, .jbe rel, .ja rel, .js rel, .jns rel, .jp rel,
      .jnp rel, .jl rel, .jnl rel, .jle rel, .jg rel, .loopnz rel, .loopz rel, .loop rel, .jcxz rel] →
    exec i s = .next t →
    t.ip.toNat = (s.ip.toNat + 2) % 65536 ∨ (t.ip.toNat : Int) = ((s.ip.toNat : Int) + 2 + rel.toInt) % 65536

/-- LOOPNZ, LOOPZ, LOOP and JCXZ (43_loop.md R166): each completes in every state. The three loops decrement CX mod
2^16 whether or not they branch, and branch when the decremented CX is not zero and, for LOOPZ and LOOPNZ, the old ZF
is set or clear. JCXZ branches when CX is zero and does not decrement. Nothing else changes. The full 16-bit CX and
the wrap at CX = 0 are the spec's decision D28. -/
def Obligations.LoopInstructions : Prop :=
  ∀ (rel : Byte) (s : State),
    (∀ (i : Instr) (flagOk : Bool),
      (i, flagOk) ∈ [(Instr.loopnz rel, !s.flags.zf), (.loopz rel, s.flags.zf), (.loop rel, true)] →
      exec i s = .next { s with
        regs := { s.regs with cx := s.regs.cx - 1#16 }
        ip := if s.regs.cx ≠ 1#16 ∧ flagOk = true then s.ip + 2#16 + rel.signExtend 16 else s.ip + 2#16 }) ∧
    exec (.jcxz rel) s =
      .next { s with ip := if s.regs.cx = 0#16 then s.ip + 2#16 + rel.signExtend 16 else s.ip + 2#16 }

/-- JCXZ (43_loop.md R170): it completes in every state, branches when all 16 bits of CX are zero, and changes nothing
but IP. The full 16-bit CX is the spec's decision D28. -/
def Obligations.JcxzTestsAllOfCx : Prop :=
  ∀ (rel : Byte) (s : State),
    exec (.jcxz rel) s =
      .next { s with ip := if s.regs.cx.toNat = 0 then s.ip + 2#16 + rel.signExtend 16 else s.ip + 2#16 }

/-- The frame of all twenty format J rows: no flag, no byte of memory, no register but CX (for the three loops), and
nothing of the launch changes (42_jcc.md R148; 43_loop.md R166). The decrement of the full 16-bit CX is the spec's
decision D28. -/
def Obligations.BranchesChangeOnlyIpAndCx : Prop :=
  ∀ (rel : Byte) (i : Instr) (s t : State), exec i s = .next t →
    (i ∈ [Instr.jo rel, .jno rel, .jb rel, .jnb rel, .je rel, .jne rel, .jbe rel, .ja rel, .js rel, .jns rel, .jp rel,
      .jnp rel, .jl rel, .jnl rel, .jle rel, .jg rel, .jcxz rel] → t = { s with ip := t.ip }) ∧
    (i ∈ [Instr.loopnz rel, .loopz rel, .loop rel] →
      t.regs.cx = s.regs.cx - 1#16 ∧ t = { s with ip := t.ip, regs := { s.regs with cx := t.regs.cx } })

/-- LOOP with CX = 0 on entry wraps to 0xFFFF and branches; with CX = 1 it leaves 0 and falls through (43_loop.md
R166, R169). The wrap at CX = 0 is the spec's decision D28. -/
def Obligations.LoopAtTheEnds : Prop :=
  ∀ (rel : Byte) (s : State),
    (s.regs.cx = 0#16 → ∃ t, exec (.loop rel) s = .next t ∧ t.regs.cx = 0xFFFF#16 ∧
      t.ip = s.ip + 2#16 + rel.signExtend 16) ∧
    (s.regs.cx = 1#16 → ∃ t, exec (.loop rel) s = .next t ∧ t.regs.cx = 0#16 ∧ t.ip = s.ip + 2#16)
end

