-- ==== Sys2Proof/Laws/Decode.lean ====
section
/-! SUPPORT. The decoder and the encoder piece by piece: the fields of a byte put together from its fields, the operand
resolver and the immediates on the encoder's bytes. -/

namespace Sys2Proof

open Sys2Proof.Machine

/-! ## Fields of a byte put together from its fields -/

theorem modField_join (m : BitVec 2) (r b : BitVec 3) : modField (m ++ r ++ b : Byte) = m := by
  revert m r b; decide

theorem regField_join (m : BitVec 2) (r b : BitVec 3) : regField (m ++ r ++ b : Byte) = r := by
  revert m r b; decide

theorem rmField_join (m : BitVec 2) (r b : BitVec 3) : rmField (m ++ r ++ b : Byte) = b := by
  revert m r b; decide

@[simp] theorem modField_modRmByte (rm : RM) (mid : BitVec 3) : modField (modRmByte rm mid) = rm.modBits :=
  modField_join _ _ _

@[simp] theorem regField_modRmByte (rm : RM) (mid : BitVec 3) : regField (modRmByte rm mid) = mid :=
  regField_join _ _ _

@[simp] theorem rmField_modRmByte (rm : RM) (mid : BitVec 3) : rmField (modRmByte rm mid) = rm.rmBits :=
  rmField_join _ _ _

/-- A byte is its MOD, REG and RM fields. -/
theorem join_fields (b : Byte) : (modField b ++ regField b ++ rmField b : Byte) = b := by
  revert b; decide

@[simp] theorem baseOf_bits (b : Base) : baseOf b.bits = b := by cases b <;> rfl

theorem bits_baseOf (r : BitVec 3) : (baseOf r).bits = r := by revert r; decide

@[simp] theorem segOf_bits (x : SegReg) : segOf x.bits = x := by cases x <;> rfl

theorem bits_segOf (r : BitVec 2) : (segOf r).bits = r := by revert r; decide

@[simp] theorem wField_opcodeW (op : BitVec 7) (w : Width) : wField (opcodeW op w) = w := by
  cases w <;> revert op <;> decide

@[simp] theorem wField_opcodeBW (op : BitVec 6) (b : Bool) (w : Width) : wField (opcodeBW op b w) = w := by
  cases w <;> cases b <;> revert op <;> decide

@[simp] theorem dField_opcodeBW (op : BitVec 6) (b : Bool) (w : Width) : dField (opcodeBW op b w) = b := by
  cases w <;> cases b <;> revert op <;> decide

/-- Byte 1 is its top six bits, bit 1 and W. -/
theorem join_opcodeBW (b : Byte) : opcodeBW (top6 b) (dField b) (wField b) = b := by
  revert b; decide

/-- Byte 1 is its top seven bits and W. -/
theorem join_opcodeW (b : Byte) : opcodeW (b.extractLsb' 1 7) (wField b) = b := by
  revert b; decide

/-- Byte 1 of format IR is its top four bits, W and the register number. -/
theorem join_opcodeIR (b : Byte) : (b.extractLsb' 4 4 ++ (wFieldIR b).bit ++ b.extractLsb' 0 3 : Byte) = b := by
  revert b; decide

/-- Bytes of a 16-bit field. -/
theorem wordOf_bytes (v : Word) : wordOf (v.extractLsb' 0 8) (v.extractLsb' 8 8) = v := by
  unfold wordOf
  ext i hi
  simp only [BitVec.getElem_append, BitVec.getElem_extractLsb']
  split
  · simp [BitVec.getLsbD_eq_getElem hi]
  · next h =>
    have : 8 + (i - 8) = i := by omega
    simp [this, BitVec.getLsbD_eq_getElem hi]

theorem low_wordOf (lo hi : Byte) : (wordOf lo hi).extractLsb' 0 8 = lo := by
  unfold wordOf
  ext i h
  simp only [BitVec.getElem_extractLsb', BitVec.getLsbD_append]
  simp [h]

theorem high_wordOf (lo hi : Byte) : (wordOf lo hi).extractLsb' 8 8 = hi := by
  unfold wordOf
  ext i h
  simp only [BitVec.getElem_extractLsb', BitVec.getLsbD_append]
  simp [BitVec.getLsbD_eq_getElem h]

@[simp] theorem wordBytes_wordOf (lo hi : Byte) : wordBytes (wordOf lo hi) = [lo, hi] := by
  unfold wordBytes
  rw [low_wordOf, high_wordOf]

@[simp] theorem take16_wordBytes (k n : Nat) (v : Word) (rest : List Byte) : take16 k n (wordBytes v ++ rest) = .ok v := by
  simp only [wordBytes, List.cons_append, List.nil_append, take16, wordOf_bytes]

/-! ## Lengths -/

@[simp] theorem wordBytes_length (v : Word) : (wordBytes v).length = 2 := rfl

@[simp] theorem dispBytes_length (rm : RM) : rm.dispBytes.length = rm.dispLen := by
  cases rm with
  | reg r => rfl
  | direct a => rfl
  | mem b d => cases d <;> rfl

@[simp] theorem immBytes_length (w : Width) (v : Word) : (immBytes w v).length = w.immLen := by
  cases w <;> rfl

@[simp] theorem immBytesS_length (s : Bool) (w : Width) (v : Word) : (immBytesS s w v).length = immLenS s w := by
  cases s <;> cases w <;> rfl

theorem dispLen_le (rm : RM) : rm.dispLen ≤ 2 := by
  cases rm with
  | reg r => simp [RM.dispLen]
  | direct a => simp [RM.dispLen]
  | mem b d => cases d <;> simp [RM.dispLen]

theorem immLen_bounds (w : Width) : 1 ≤ w.immLen ∧ w.immLen ≤ 2 := by
  cases w <;> decide

theorem immLenS_bounds (s : Bool) (w : Width) : 1 ≤ immLenS s w ∧ immLenS s w ≤ 2 := by
  cases s <;> cases w <;> decide

/-! ## The resolver and the immediates on the encoder's bytes -/

/-- The operand resolver reads back the operand's own fields and displacement bytes (R87 to R91). -/
@[simp] theorem resolveRM_encoded (n : Nat) (rm : RM) (rest : List Byte) (h : rm.wf = true) :
    resolveRM n rm.modBits rm.rmBits (rm.dispBytes ++ rest) = .ok (rm, rm.dispLen) := by
  cases rm with
  | reg r => rfl
  | direct a =>
    simp only [resolveRM, RM.modBits, RM.rmBits, RM.dispBytes, RM.dispLen, take16_wordBytes]
    rfl
  | mem b d =>
    cases d with
    | none => cases b <;> first | rfl | cases h
    | d8 d =>
      simp only [resolveRM, RM.modBits, RM.rmBits, RM.dispBytes, RM.dispLen, baseOf_bits]
      rfl
    | d16 d =>
      simp only [resolveRM, RM.modBits, RM.rmBits, RM.dispBytes, RM.dispLen, take16_wordBytes, baseOf_bits]
      rfl

/-- The other direction: the fields and bytes an operand was resolved from are its own. -/
theorem resolveRM_ok {n : Nat} {md : BitVec 2} {r : BitVec 3} {tail : List Byte} {rm : RM} {k : Nat}
    (h : resolveRM n md r tail = .ok (rm, k)) :
    rm.wf = true ∧ rm.modBits = md ∧ rm.rmBits = r ∧ k = rm.dispLen ∧ tail = rm.dispBytes ++ tail.drop k := by
  unfold resolveRM at h
  split at h
  · next hm =>
    cases h
    exact ⟨rfl, hm.symm, rfl, rfl, rfl⟩
  · split at h
    · next hm =>
      split at h
      · next hr =>
        match tail with
        | lo :: hi :: rest =>
          simp only [take16, Except.map, Except.ok.injEq, Prod.mk.injEq] at h
          obtain ⟨rfl, rfl⟩ := h
          exact ⟨rfl, hm.symm, hr.symm, rfl, by simp [RM.dispBytes]⟩
        | [_] => cases h
        | [] => cases h
      · next hr =>
        cases h
        refine ⟨?_, hm.symm, bits_baseOf r, rfl, rfl⟩
        have : baseOf r ≠ .bp := fun e => hr (by rw [← bits_baseOf r, e]; rfl)
        cases hb : baseOf r <;> first | rfl | exact absurd hb this
    · split at h
      · next hm =>
        match tail with
        | d :: rest =>
          simp only [take8, Except.map, Except.ok.injEq, Prod.mk.injEq] at h
          obtain ⟨rfl, rfl⟩ := h
          exact ⟨by cases baseOf r <;> rfl, hm.symm, bits_baseOf r, rfl, rfl⟩
        | [] => cases h
      · next h3 h0 h1 =>
        have hm : md = 0b10#2 := by
          revert h3 h0 h1
          revert md
          decide
        match tail with
        | lo :: hi :: rest =>
          simp only [take16, Except.map, Except.ok.injEq, Prod.mk.injEq] at h
          obtain ⟨rfl, rfl⟩ := h
          exact ⟨by cases baseOf r <;> rfl, hm.symm, bits_baseOf r, rfl, by simp [RM.dispBytes]⟩
        | [_] => cases h
        | [] => cases h

theorem extract_low_eq (v : Word) : v.extractLsb' 0 8 = v.setWidth 8 := by
  ext i hi
  simp only [BitVec.getElem_extractLsb', BitVec.getElem_setWidth, Nat.zero_add]

/-- A byte immediate in its well-formed form is its low byte zero-extended. -/
theorem immWf_byte {v : Word} (h : immWf .byte v = true) : (v.extractLsb' 0 8).setWidth 16 = v := by
  simp only [immWf, beq_iff_eq] at h
  rw [extract_low_eq]
  exact h.symm

theorem immWf_setWidth (b : Byte) : immWf .byte (b.setWidth 16) = true := by
  revert b; decide

theorem immWfS_signExtend (w : Width) (b : Byte) : immWfS true w (b.signExtend 16) = true := by
  cases w <;> revert b <;> decide

theorem low_setWidth (b : Byte) : (b.setWidth 16 : Word).extractLsb' 0 8 = b := by
  revert b; decide

theorem low_signExtend (b : Byte) : (b.signExtend 16 : Word).extractLsb' 0 8 = b := by
  revert b; decide

/-- `ReadImm` reads back the encoder's immediate (R92). -/
@[simp] theorem readImm_encoded (n q : Nat) (s : Bool) (w : Width) (v : Word) (rest : List Byte)
    (h : immWfS s w v = true) : readImm n q s w (immBytesS s w v ++ rest) = .ok (v, immLenS s w) := by
  cases s with
  | true =>
    simp only [immWfS, beq_iff_eq] at h
    have hv : (v.extractLsb' 0 8).signExtend 16 = v := by
      rw [extract_low_eq]
      exact h.symm
    simp only [readImm, immBytesS, immLenS, if_true, List.cons_append, List.nil_append, take8, Except.map, hv]
  | false =>
    cases w with
    | byte =>
      have hv := immWf_byte h
      simp [readImm, immBytesS, immBytes, immLenS, Width.immLen, take8, Except.map, hv]
    | word => simp [readImm, immBytesS, immBytes, immLenS, Width.immLen, Except.map]

/-- The other direction: an immediate that was read is the encoder's. -/
theorem readImm_ok {n q : Nat} {s : Bool} {w : Width} {bs : List Byte} {v : Word} {k : Nat}
    (h : readImm n q s w bs = .ok (v, k)) :
    immWfS s w v = true ∧ k = immLenS s w ∧ bs = immBytesS s w v ++ bs.drop k := by
  unfold readImm at h
  cases s with
  | true =>
    match bs with
    | b :: rest =>
      simp only [if_true, take8, Except.map, Except.ok.injEq, Prod.mk.injEq] at h
      obtain ⟨rfl, rfl⟩ := h
      exact ⟨immWfS_signExtend w b, rfl, by simp [immBytesS, low_signExtend]⟩
    | [] => cases h
  | false =>
    cases w with
    | word =>
      match bs with
      | lo :: hi :: rest =>
        simp only [Bool.false_eq_true, if_false, take16, Except.map, Except.ok.injEq, Prod.mk.injEq] at h
        obtain ⟨rfl, rfl⟩ := h
        exact ⟨rfl, rfl, by simp [immBytesS, immBytes]⟩
      | [_] => cases h
      | [] => cases h
    | byte =>
      match bs with
      | b :: rest =>
        simp only [Bool.false_eq_true, if_false, take8, Except.map, Except.ok.injEq, Prod.mk.injEq] at h
        obtain ⟨rfl, rfl⟩ := h
        exact ⟨immWf_setWidth b, rfl, by simp [immBytesS, immBytes, low_setWidth]⟩
      | [] => cases h

/-- The immediate of formats IR and IA on the encoder's bytes (R74, R75). -/
theorem readImmFrom2_encoded (n : Nat) (w : Width) (v : Word) (rest : List Byte) (h : immWf w v = true) :
    ∃ b2 tail, immBytes w v ++ rest = b2 :: tail ∧ readImmFrom2 n w b2 tail = .ok (v, 1 + w.immLen) := by
  cases w with
  | byte =>
    refine ⟨_, _, rfl, ?_⟩
    simp only [readImmFrom2, immWf_byte h]
    rfl
  | word =>
    refine ⟨_, _, rfl, ?_⟩
    change Except.ok (wordOf (v.extractLsb' 0 8) (v.extractLsb' 8 8), 3) = Except.ok (v, 1 + Width.word.immLen)
    rw [wordOf_bytes]
    rfl

/-- The other direction. -/
theorem readImmFrom2_ok {n : Nat} {w : Width} {b2 : Byte} {tail : List Byte} {v : Word} {k : Nat}
    (h : readImmFrom2 n w b2 tail = .ok (v, k)) :
    immWf w v = true ∧ k = 1 + w.immLen ∧ b2 :: tail = immBytes w v ++ tail.drop (k - 2) := by
  cases w with
  | byte =>
    simp only [readImmFrom2, Except.ok.injEq, Prod.mk.injEq] at h
    obtain ⟨rfl, rfl⟩ := h
    exact ⟨immWf_setWidth b2, rfl, by simp [immBytes, low_setWidth]⟩
  | word =>
    match tail with
    | hi :: rest =>
      simp only [readImmFrom2, take8, Except.map, Except.ok.injEq, Prod.mk.injEq] at h
      obtain ⟨rfl, rfl⟩ := h
      exact ⟨rfl, rfl, by simp [immBytes]⟩
    | [] => cases h

/-! ## Conditional jumps -/

theorem jccInstr_cond (c : Cond) (rel : Byte) : (jccInstr c rel).cond? = some c := by
  cases c <;> rfl

end Sys2Proof
end

