-- ==== Sys2Proof/Laws/State.lean ====
section
/-! SUPPORT. The small lemmas of the state: one per field per update, and reading a slot after writing one. -/

namespace Sys2Proof.Machine

/-! ## Register slots -/

@[simp] theorem RegFile.get_set_same (rf : RegFile) (x : Slot) (v : Word) : (rf.set x v).get x = v := by
  cases x <;> rfl

theorem RegFile.get_set_other (rf : RegFile) (x y : Slot) (v : Word) (h : y ≠ x) : (rf.set x v).get y = rf.get y := by
  cases x <;> cases y <;> first | rfl | exact absurd rfl h

theorem RegFile.get_set (rf : RegFile) (x y : Slot) (v : Word) :
    (rf.set x v).get y = if y = x then v else rf.get y := by
  split
  · next h => rw [h, RegFile.get_set_same]
  · next h => exact RegFile.get_set_other rf x y v h

/-- A register file is its twelve slots. -/
theorem RegFile.ext_get {rf rf' : RegFile} (h : ∀ x, rf.get x = rf'.get x) : rf = rf' := by
  cases rf
  cases rf'
  simp only [RegFile.mk.injEq]
  exact ⟨h .ax, h .bx, h .cx, h .dx, h .sp, h .bp, h .si, h .di, h .es, h .cs, h .ss, h .ds⟩

/-! ## Updates of the state, field by field -/

@[simp] theorem State.advance_regs (s : State) (n : Nat) : (s.advance n).regs = s.regs := rfl
@[simp] theorem State.advance_flags (s : State) (n : Nat) : (s.advance n).flags = s.flags := rfl
@[simp] theorem State.advance_mem (s : State) (n : Nat) : (s.advance n).mem = s.mem := rfl
@[simp] theorem State.advance_launch (s : State) (n : Nat) : (s.advance n).launch = s.launch := rfl
@[simp] theorem State.advance_policy (s : State) (n : Nat) : (s.advance n).policy = s.policy := rfl
@[simp] theorem State.branch_regs (s : State) (rel : Byte) : (s.branch rel).regs = s.regs := rfl
@[simp] theorem State.branch_flags (s : State) (rel : Byte) : (s.branch rel).flags = s.flags := rfl
@[simp] theorem State.branch_mem (s : State) (rel : Byte) : (s.branch rel).mem = s.mem := rfl
@[simp] theorem State.branch_launch (s : State) (rel : Byte) : (s.branch rel).launch = s.launch := rfl
@[simp] theorem State.branch_policy (s : State) (rel : Byte) : (s.branch rel).policy = s.policy := rfl
@[simp] theorem State.advance_ip (s : State) (n : Nat) : (s.advance n).ip = s.ip + BitVec.ofNat 16 n := rfl
@[simp] theorem State.branch_ip (s : State) (rel : Byte) : (s.branch rel).ip = s.ip + rel.signExtend 16 := rfl
@[simp] theorem State.setRegs_policy (s : State) (r : RegFile) : State.policy { s with regs := r } = s.policy := rfl
@[simp] theorem State.setMem_policy (s : State) (m : Memory) : State.policy { s with mem := m } = s.policy := rfl
@[simp] theorem State.setFlags_policy (s : State) (f : Flags) : State.policy { s with flags := f } = s.policy := rfl
@[simp] theorem State.setIp_policy (s : State) (w : Word) : State.policy { s with ip := w } = s.policy := rfl
@[simp] theorem decCx_flags (s : State) : (decCx s).flags = s.flags := rfl
@[simp] theorem decCx_mem (s : State) : (decCx s).mem = s.mem := rfl
@[simp] theorem decCx_launch (s : State) : (decCx s).launch = s.launch := rfl
@[simp] theorem decCx_ip (s : State) : (decCx s).ip = s.ip := rfl
@[simp] theorem decCx_regs (s : State) : (decCx s).regs = s.regs.set .cx (s.regs.get .cx - 1#16) := rfl
@[simp] theorem branchIf_regs (t : Bool) (rel : Byte) (s : State) : (branchIf t rel s).regs = s.regs := by cases t <;> rfl
@[simp] theorem branchIf_flags (t : Bool) (rel : Byte) (s : State) : (branchIf t rel s).flags = s.flags := by cases t <;> rfl
@[simp] theorem branchIf_mem (t : Bool) (rel : Byte) (s : State) : (branchIf t rel s).mem = s.mem := by cases t <;> rfl
@[simp] theorem branchIf_launch (t : Bool) (rel : Byte) (s : State) : (branchIf t rel s).launch = s.launch := by cases t <;> rfl

/-- Where IP stands after a format J instruction. -/
theorem branchIf_ip (t : Bool) (rel : Byte) (s : State) :
    (branchIf t rel s).ip = if t then s.ip + 2#16 + rel.signExtend 16 else s.ip + 2#16 := by
  cases t <;> rfl

/-! ## The launch and the end test -/

theorem State.launchOk_iff (s : State) : s.launchOk = true ↔ s.launch.code.length ≤ maxCode := by
  unfold State.launchOk State.codeLen
  exact decide_eq_true_iff

theorem State.halted_iff (s : State) : s.halted = true ↔ s.launch.code.length ≤ s.ip.toNat := by
  unfold State.halted State.codeLen
  exact decide_eq_true_iff

theorem State.launchOk_congr {s t : State} (h : t.launch = s.launch) : t.launchOk = s.launchOk := by
  unfold State.launchOk State.codeLen
  rw [h]

end Sys2Proof.Machine
end

