-- ==== Sys2Proof/Laws/Memory.lean ====
section
/-! SUPPORT. The laws of the data memory: reading after writing, the frame of a write, and the canonical form. -/

namespace Sys2Proof.Machine

/-! ## One byte -/

/-- Nothing below the bound of the canonical form is listed. -/
theorem Memory.read_of_lt {m : Memory} {lo a : Nat} (h : Memory.wfFrom lo m = true) (ha : a < lo) : m.read a = 0#8 := by
  induction m generalizing lo with
  | nil => rfl
  | cons c rest ih =>
    obtain ⟨b, v⟩ := c
    simp only [Memory.wfFrom, Bool.and_eq_true, decide_eq_true_eq] at h
    have hne : a ≠ b := by omega
    simp only [Memory.read, hne, if_false]
    exact ih h.2 (by omega)

/-- Writing leaves every other address alone, in any memory. -/
theorem Memory.read_write_other (m : Memory) {a b : Nat} (v : Byte) (h : b ≠ a) : (m.write a v).read b = m.read b := by
  induction m with
  | nil =>
    unfold Memory.write
    split <;> simp [Memory.read, h]
  | cons c rest ih =>
    obtain ⟨d, u⟩ := c
    unfold Memory.write
    split
    · split <;> simp [Memory.read, h]
    · split
      · next hd => subst hd; split <;> simp [Memory.read, h]
      · simp only [Memory.read, ih]

/-- Reading the address just written gives the byte written. -/
theorem Memory.read_write_same_from {m : Memory} {lo : Nat} (a : Nat) (v : Byte) (h : Memory.wfFrom lo m = true) :
    (m.write a v).read a = v := by
  induction m generalizing lo with
  | nil =>
    unfold Memory.write
    split
    · next hv => simp [Memory.read, hv]
    · simp [Memory.read]
  | cons c rest ih =>
    obtain ⟨d, u⟩ := c
    simp only [Memory.wfFrom, Bool.and_eq_true, decide_eq_true_eq] at h
    unfold Memory.write
    split
    · next hlt =>
      split
      · next hv =>
        have hne : a ≠ d := by omega
        simp only [Memory.read, hne, if_false, hv]
        exact Memory.read_of_lt h.2 (by omega)
      · simp [Memory.read]
    · split
      · next hd =>
        subst hd
        split
        · next hv => rw [hv]; exact Memory.read_of_lt h.2 (by omega)
        · simp [Memory.read]
      · next hd => simp only [Memory.read, hd, if_false]; exact ih h.2

theorem Memory.read_write_same {m : Memory} (a : Nat) (v : Byte) (h : m.wf = true) : (m.write a v).read a = v :=
  Memory.read_write_same_from a v h

/-- A larger bound is a weaker form. -/
theorem Memory.wfFrom_mono {m : Memory} {lo lo' : Nat} (h : Memory.wfFrom lo m = true) (hle : lo' ≤ lo) :
    Memory.wfFrom lo' m = true := by
  cases m with
  | nil => rfl
  | cons c rest =>
    obtain ⟨d, u⟩ := c
    simp only [Memory.wfFrom, Bool.and_eq_true, decide_eq_true_eq] at h ⊢
    exact ⟨⟨⟨by omega, h.1.1.2⟩, h.1.2⟩, h.2⟩

/-- A write inside the address space keeps the canonical form. -/
theorem Memory.wfFrom_write {m : Memory} {lo : Nat} {a : Nat} (v : Byte) (h : Memory.wfFrom lo m = true) (hlo : lo ≤ a)
    (ha : a < memSize) : Memory.wfFrom lo (m.write a v) = true := by
  induction m generalizing lo with
  | nil =>
    unfold Memory.write
    split
    · rfl
    · next hv => simp [Memory.wfFrom, hlo, ha, hv]
  | cons c rest ih =>
    obtain ⟨d, u⟩ := c
    have h' := h
    simp only [Memory.wfFrom, Bool.and_eq_true, decide_eq_true_eq] at h
    unfold Memory.write
    split
    · next hlt =>
      split
      · exact h'
      · next hv =>
        simp only [Memory.wfFrom, Bool.and_eq_true, decide_eq_true_eq]
        exact ⟨⟨⟨hlo, ha⟩, hv⟩, ⟨⟨by omega, h.1.1.2⟩, h.1.2⟩, h.2⟩
    · split
      · next hd =>
        subst hd
        split
        · exact Memory.wfFrom_mono h.2 (by omega)
        · next hv =>
          simp only [Memory.wfFrom, Bool.and_eq_true, decide_eq_true_eq]
          exact ⟨⟨⟨hlo, ha⟩, hv⟩, h.2⟩
      · next hd =>
        simp only [Memory.wfFrom, Bool.and_eq_true, decide_eq_true_eq]
        exact ⟨h.1, ih h.2 (by omega)⟩

theorem Memory.wf_write {m : Memory} {a : Nat} (v : Byte) (h : m.wf = true) (ha : a < memSize) :
    (m.write a v).wf = true :=
  Memory.wfFrom_write v h (Nat.zero_le a) ha

/-- Two memories in canonical form that read the same everywhere are the same data. -/
theorem Memory.eq_of_read_from {m m' : Memory} {lo : Nat} (h : Memory.wfFrom lo m = true)
    (h' : Memory.wfFrom lo m' = true) (hr : ∀ a, m.read a = m'.read a) : m = m' := by
  induction m generalizing lo m' with
  | nil =>
    cases m' with
    | nil => rfl
    | cons c rest =>
      obtain ⟨d, u⟩ := c
      simp only [Memory.wfFrom, Bool.and_eq_true, decide_eq_true_eq] at h'
      exact absurd (by simpa [Memory.read] using (hr d).symm) h'.1.2
  | cons c rest ih =>
    obtain ⟨d, u⟩ := c
    simp only [Memory.wfFrom, Bool.and_eq_true, decide_eq_true_eq] at h
    cases m' with
    | nil => exact absurd (by simpa [Memory.read] using hr d) h.1.2
    | cons c' rest' =>
      obtain ⟨d', u'⟩ := c'
      simp only [Memory.wfFrom, Bool.and_eq_true, decide_eq_true_eq] at h'
      have hd : d = d' := by
        rcases Nat.lt_trichotomy d d' with hlt | heq | hgt
        · have hz : Memory.read ((d', u') :: rest') d = 0#8 := by
            have hne : d ≠ d' := by omega
            simp only [Memory.read, hne, if_false]
            exact Memory.read_of_lt h'.2 (by omega)
          have hd := hr d
          rw [hz] at hd
          exact absurd (by simpa [Memory.read] using hd) h.1.2
        · exact heq
        · have hz : Memory.read ((d, u) :: rest) d' = 0#8 := by
            have hne : d' ≠ d := by omega
            simp only [Memory.read, hne, if_false]
            exact Memory.read_of_lt h.2 (by omega)
          have hd := hr d'
          rw [hz] at hd
          exact absurd (by simpa [Memory.read] using hd.symm) h'.1.2
      subst hd
      have hu : u = u' := by simpa [Memory.read] using hr d
      subst hu
      refine congrArg _ (ih h.2 h'.2 fun a => ?_)
      by_cases hle : a < d + 1
      · rw [Memory.read_of_lt h.2 hle, Memory.read_of_lt h'.2 hle]
      · have hne : a ≠ d := by omega
        simpa [Memory.read, hne] using hr a

theorem Memory.eq_of_read {m m' : Memory} (h : m.wf = true) (h' : m'.wf = true) (hr : ∀ a, m.read a = m'.read a) :
    m = m' :=
  Memory.eq_of_read_from h h' hr

/-! ## Accesses of a width -/

theorem highAddr_lt (policy : WordAtFFFF) (ea : Word) : highAddr policy ea < memSize := by
  unfold highAddr memSize
  have := ea.isLt
  split
  · split <;> omega
  · omega

theorem highAddr_ne (policy : WordAtFFFF) (ea : Word) : highAddr policy ea ≠ ea.toNat := by
  unfold highAddr
  split
  · next h => subst h; split <;> decide
  · omega

/-- Every address an access touches is inside the data memory (R56). -/
theorem accessed_lt {policy : WordAtFFFF} {ea : Word} {w : Width} {a : Nat} (h : a ∈ accessed policy ea w) :
    a < memSize := by
  have hea := ea.isLt
  have hhi := highAddr_lt policy ea
  cases w <;> simp only [accessed, List.mem_cons, List.not_mem_nil, or_false] at h <;> unfold memSize at * <;> omega

/-- A store leaves every byte outside the addresses it touches alone, in any memory. -/
theorem Memory.read_store_other (m : Memory) {policy : WordAtFFFF} {ea : Word} {w : Width} (v : BitVec w.bits) {a : Nat}
    (h : a ∉ accessed policy ea w) : (m.store policy ea w v).read a = m.read a := by
  cases w <;> simp only [accessed, List.mem_cons, List.not_mem_nil, or_false, not_or] at h
  · exact Memory.read_write_other m _ h
  · simp only [Memory.store]
    rw [Memory.read_write_other _ _ h.2, Memory.read_write_other _ _ h.1]

/-- A store keeps the canonical form. -/
theorem Memory.wf_store {m : Memory} (policy : WordAtFFFF) (ea : Word) {w : Width} (v : BitVec w.bits)
    (h : m.wf = true) : (m.store policy ea w v).wf = true := by
  have hea : ea.toNat < memSize := by
    have := ea.isLt
    unfold memSize
    omega
  cases w
  · exact Memory.wf_write _ h hea
  · exact Memory.wf_write _ (Memory.wf_write _ h hea) (highAddr_lt policy ea)

/-- The two halves of a word, joined. -/
theorem halves_append (v : BitVec 16) : (v.extractLsb' 8 8 ++ v.extractLsb' 0 8 : BitVec 16) = v := by
  ext i hi
  simp only [BitVec.getElem_append, BitVec.getElem_extractLsb']
  split
  · simp [BitVec.getLsbD_eq_getElem hi]
  · next h =>
    have : 8 + (i - 8) = i := by omega
    simp [this, BitVec.getLsbD_eq_getElem hi]

/-- Loading what was stored gives the value stored. -/
theorem Memory.load_store {m : Memory} (policy : WordAtFFFF) (ea : Word) {w : Width} (v : BitVec w.bits)
    (h : m.wf = true) : (m.store policy ea w v).load policy ea w = v := by
  have hea : ea.toNat < memSize := by
    have := ea.isLt
    unfold memSize
    omega
  cases w
  · exact Memory.read_write_same _ _ h
  · simp only [Memory.store, Memory.load]
    rw [Memory.read_write_same _ _ (Memory.wf_write _ h hea),
      Memory.read_write_other _ _ (highAddr_ne policy ea).symm, Memory.read_write_same _ _ h]
    exact halves_append v

/-- What a read can do: the fatal condition of an out-of-range access, or the value in memory. -/
theorem memRead_eq (p ea : Word) (w : Width) (s : State) :
    (rangeFaults s.policy ea w = true ∧ memRead p ea w s = .error (.memoryRangeFault p ea w)) ∨
    (rangeFaults s.policy ea w = false ∧ memRead p ea w s = .ok (s.mem.load s.policy ea w)) := by
  cases h : rangeFaults s.policy ea w <;> simp [memRead, h]

/-- What a write can do: the fatal condition of an out-of-range access, or the store. -/
theorem memWrite_eq (p ea : Word) (w : Width) (v : BitVec w.bits) (s : State) :
    (rangeFaults s.policy ea w = true ∧ memWrite p ea w v s = .error (.memoryRangeFault p ea w)) ∨
    (rangeFaults s.policy ea w = false ∧ memWrite p ea w v s = .ok { s with mem := s.mem.store s.policy ea w v }) := by
  cases h : rangeFaults s.policy ea w <;> simp [memWrite, h]

/-- When an access is out of range. -/
theorem rangeFaults_iff (policy : WordAtFFFF) (ea : Word) (w : Width) :
    rangeFaults policy ea w = true ↔ w = .word ∧ ea = 0xFFFF#16 ∧ policy = .fault := by
  cases w <;> simp [rangeFaults]

end Sys2Proof.Machine
end

