-- ==== Sys2Proof/Laws/Operands.lean ====
section
/-! SUPPORT. What reading and writing an operand can do: one lemma for each shared operation. -/

namespace Sys2Proof.Machine

/-! ## Bits of a joined pair of bytes -/

@[simp] theorem extract_low_append (h l : BitVec 8) : (BitVec.append h l).extractLsb' 0 8 = l := by
  change BitVec.extractLsb' 0 8 (h ++ l) = l
  ext i hi
  simp only [BitVec.getElem_extractLsb', BitVec.getLsbD_append]
  simp [hi]

@[simp] theorem extract_high_append (h l : BitVec 8) : (BitVec.append h l).extractLsb' 8 8 = h := by
  change BitVec.extractLsb' 8 8 (h ++ l) = h
  ext i hi
  simp only [BitVec.getElem_extractLsb', BitVec.getLsbD_append]
  simp [BitVec.getLsbD_eq_getElem hi]

/-! ## Registers -/

theorem RegFile.readReg_writeReg_same (rf : RegFile) {w : Width} (r : Reg w) (v : BitVec w.bits) :
    (rf.writeReg r v).readReg r = v := by
  cases r with
  | full x => exact RegFile.get_set_same rf x v
  | low x => simp only [RegFile.readReg, RegFile.writeReg, RegFile.get_set_same]; exact extract_low_append _ v
  | high x => simp only [RegFile.readReg, RegFile.writeReg, RegFile.get_set_same]; exact extract_high_append v _

theorem RegFile.get_writeReg_other (rf : RegFile) {w : Width} (r : Reg w) (v : BitVec w.bits) {y : Slot}
    (h : y ≠ r.slot) : (rf.writeReg r v).get y = rf.get y := by
  cases r <;> exact RegFile.get_set_other rf _ y _ h

theorem ByteSlot.slot_inj {x y : ByteSlot} (h : x.slot = y.slot) : x = y := by
  cases x <;> cases y <;> first | rfl | cases h

/-- A register write leaves every register reference that shares no bit with it alone (R10, R13). -/
theorem RegFile.readReg_writeReg_other (rf : RegFile) {w w' : Width} (r : Reg w) (v : BitVec w.bits) (q : Reg w')
    (h : r.overlaps q = false) : (rf.writeReg r v).readReg q = rf.readReg q := by
  have other : r.slot ≠ q.slot → (rf.writeReg r v).readReg q = rf.readReg q := by
    intro hne
    cases q <;> simp only [RegFile.readReg] <;>
      rw [RegFile.get_writeReg_other rf r v (fun e => hne (by rw [← e]; rfl))]
  cases r with
  | full x => cases q <;> exact other (by simpa [Reg.overlaps] using h)
  | low x =>
    cases q with
    | full y => exact other (by simpa [Reg.overlaps] using h)
    | low y => exact other (by simpa [Reg.overlaps] using h)
    | high y =>
      by_cases hxy : x = y
      · subst hxy
        simp only [RegFile.readReg, RegFile.writeReg, RegFile.get_set_same]
        exact extract_high_append _ v
      · exact other fun e => hxy (ByteSlot.slot_inj e)
  | high x =>
    cases q with
    | full y => exact other (by simpa [Reg.overlaps] using h)
    | high y => exact other (by simpa [Reg.overlaps] using h)
    | low y =>
      by_cases hxy : x = y
      · subst hxy
        simp only [RegFile.readReg, RegFile.writeReg, RegFile.get_set_same]
        exact extract_low_append v _
      · exact other fun e => hxy (ByteSlot.slot_inj e)

/-! ## Operands do not see IP and the flags -/

@[simp] theorem Place.value_advance {w : Width} (p : Place w) (s : State) (n : Nat) :
    p.value (s.advance n) = p.value s := by
  cases p <;> rfl

@[simp] theorem Place.ready_advance {w : Width} (p : Place w) (s : State) (n : Nat) :
    p.ready (s.advance n) = p.ready s := by
  cases p <;> rfl

@[simp] theorem Place.cells_advance {w : Width} (p : Place w) (s : State) (n : Nat) :
    p.cells (s.advance n) = p.cells s := by
  cases p <;> rfl

@[simp] theorem Source.value_advance {w : Width} (o : Source w) (s : State) (n : Nat) :
    o.value (s.advance n) = o.value s := by
  cases o <;> simp [Source.value]

@[simp] theorem Source.ready_advance {w : Width} (o : Source w) (s : State) (n : Nat) :
    o.ready (s.advance n) = o.ready s := by
  cases o <;> simp [Source.ready]

@[simp] theorem Place.value_setFlags {w : Width} (p : Place w) (s : State) (f : Flags) :
    p.value { s with flags := f } = p.value s := by
  cases p <;> rfl

@[simp] theorem Place.ready_reg {w : Width} (r : Reg w) (s : State) : (Place.reg r).ready s = true := rfl

@[simp] theorem Place.ready_mem {w : Width} (m : MemOperand) (s : State) :
    (Place.mem m : Place w).ready s = !rangeFaults s.policy (m.ea s.regs) w := rfl

@[simp] theorem Place.cells_reg {w : Width} (r : Reg w) (s : State) : (Place.reg r).cells s = [] := rfl

@[simp] theorem Place.value_reg {w : Width} (r : Reg w) (s : State) : (Place.reg r).value s = s.regs.readReg r := rfl

@[simp] theorem Source.ready_place {w : Width} (p : Place w) (s : State) : (Source.place p).ready s = p.ready s := rfl

@[simp] theorem Source.ready_imm {w : Width} (v : Word) (s : State) : (Source.imm v : Source w).ready s = true := rfl

@[simp] theorem Source.value_place {w : Width} (p : Place w) (s : State) : (Source.place p).value s = p.value s := rfl

@[simp] theorem Source.value_imm {w : Width} (v : Word) (s : State) :
    (Source.imm v : Source w).value s = v.setWidth w.bits := rfl

/-- An operand that is not ready is a word in memory at 0xFFFF under WORD_AT_FFFF = fault. -/
theorem Place.not_ready {w : Width} {p : Place w} {s : State} (h : p.ready s = false) :
    w = .word ∧ s.policy = .fault ∧ ∃ m, p = .mem m ∧ m.ea s.regs = 0xFFFF#16 := by
  cases p with
  | reg r => cases h
  | mem m =>
    have h' : rangeFaults s.policy (m.ea s.regs) w = true := by simpa [Place.ready] using h
    obtain ⟨hw, hea, hp⟩ := (rangeFaults_iff _ _ _).1 h'
    exact ⟨hw, hp, m, rfl, hea⟩

/-! ## Reading and writing an operand -/

/-- The fatal condition of an operand that is not ready. -/
def topWordFault (pc : Word) : Fault := .memoryRangeFault pc 0xFFFF#16 .word

/-- All that reading an operand can do (R112). -/
theorem readPlace_spec {w : Width} (pc : Word) (p : Place w) (s : State) :
    (p.ready s = true ∧ readPlace pc p s = .ok (p.value s)) ∨
    (p.ready s = false ∧ readPlace pc p s = .error (topWordFault pc)) := by
  cases p with
  | reg r => exact .inl ⟨rfl, rfl⟩
  | mem m =>
    rcases memRead_eq pc (m.ea s.regs) w s with ⟨h, e⟩ | ⟨h, e⟩
    · refine .inr ⟨by simp [Place.ready, h], ?_⟩
      obtain ⟨hw, hea, -⟩ := (rangeFaults_iff _ _ _).1 h
      rw [readPlace, e, hea, hw, topWordFault]
    · exact .inl ⟨by simp [Place.ready, h], e⟩

/-- All that reading a source operand can do (R112). -/
theorem readSource_spec {w : Width} (pc : Word) (o : Source w) (s : State) :
    (o.ready s = true ∧ readSource pc o s = .ok (o.value s)) ∨
    (o.ready s = false ∧ readSource pc o s = .error (topWordFault pc)) := by
  cases o with
  | place p => exact readPlace_spec pc p s
  | imm v => exact .inl ⟨rfl, rfl⟩

/-- The value `v` has been written to the operand, and nothing else has changed. -/
structure Written {w : Width} (p : Place w) (v : BitVec w.bits) (s t : State) : Prop where
  ip : t.ip = s.ip
  flags : t.flags = s.flags
  only : ChangesOnly p s t
  regs : p.cells s ≠ [] → t.regs = s.regs
  mem : p.cells s = [] → t.mem = s.mem
  slots : ∀ y, (∀ r, p = .reg r → y ≠ r.slot) → t.regs.get y = s.regs.get y
  wf : s.mem.wf = true → t.mem.wf = true
  value : s.mem.wf = true ∨ p.cells s = [] → p.value t = v

/-- All that writing an operand can do (R113). -/
theorem writePlace_spec {w : Width} (pc : Word) (p : Place w) (v : BitVec w.bits) (s : State) :
    (p.ready s = true ∧ ∃ t, writePlace pc p v s = .ok t ∧ Written p v s t) ∨
    (p.ready s = false ∧ writePlace pc p v s = .error (topWordFault pc)) := by
  cases p with
  | reg r =>
    refine .inl ⟨rfl, _, rfl, rfl, rfl, ⟨?_, ?_, rfl⟩, ?_, fun _ => rfl, ?_, id, ?_⟩
    · intro w' q hq
      exact RegFile.readReg_writeReg_other s.regs r v q hq
    · intro a _
      rfl
    · intro h
      exact absurd rfl h
    · intro y hy
      exact RegFile.get_writeReg_other s.regs r v (hy r rfl)
    · intro _
      exact RegFile.readReg_writeReg_same s.regs r v
  | mem m =>
    rcases memWrite_eq pc (m.ea s.regs) w v s with ⟨h, e⟩ | ⟨h, e⟩
    · refine .inr ⟨by simp [Place.ready, h], ?_⟩
      obtain ⟨hw, hea, -⟩ := (rangeFaults_iff _ _ _).1 h
      subst hw
      rw [writePlace, e, hea, topWordFault]
    · refine .inl ⟨by simp [Place.ready, h], _, e, rfl, rfl, ⟨?_, ?_, rfl⟩, fun _ => rfl, ?_, ?_, ?_, ?_⟩
      · intro w' q _
        rfl
      · intro a ha
        exact Memory.read_store_other s.mem v ha
      · intro hc
        cases w <;> simp [Place.cells, accessed] at hc
      · intro y _
        rfl
      · intro hwf
        exact Memory.wf_store _ _ _ hwf
      · rintro (hwf | hc)
        · exact Memory.load_store _ _ _ hwf
        · cases w <;> simp [Place.cells, accessed] at hc

end Sys2Proof.Machine
end

