-- ==== Sys2Proof/Laws/Exec.lean ====
section
/-! SUPPORT. What the shared operations behind the meanings can do, said once each: MOV's `moveOp`, the ALU's `aluOp`,
and the branches. -/

namespace Sys2Proof.Machine

/-! ## MOV -/

/-- All that `moveOp` can do (R115): the destination receives the source's value, or an operand out of range stops the
machine. -/
theorem moveOp_spec {w : Width} (len : Nat) (dst : Place w) (src : Source w) (s : State) :
    (src.ready s = true ∧ dst.ready s = true ∧
      ∃ t, moveOp len dst src s = .next t ∧ Written dst (src.value s) (s.advance len) t) ∨
    ((src.ready s = false ∨ dst.ready s = false) ∧ moveOp len dst src s = .fault (topWordFault s.ip)) := by
  unfold moveOp
  rcases readSource_spec s.ip src (s.advance len) with ⟨hs, e⟩ | ⟨hs, e⟩
  · rw [e]
    simp only [Source.value_advance, Source.ready_advance] at hs ⊢
    rcases writePlace_spec s.ip dst (src.value s) (s.advance len) with ⟨hd, t, e', hw⟩ | ⟨hd, e'⟩
    · rw [e']
      exact .inl ⟨hs, by simpa using hd, t, rfl, hw⟩
    · rw [e']
      exact .inr ⟨.inr (by simpa using hd), rfl⟩
  · rw [e]
    exact .inr ⟨.inl (by simpa using hs), rfl⟩

theorem moveOp_next {w : Width} {len : Nat} {dst : Place w} {src : Source w} {s t : State}
    (h : moveOp len dst src s = .next t) :
    src.ready s = true ∧ dst.ready s = true ∧ Written dst (src.value s) (s.advance len) t := by
  rcases moveOp_spec len dst src s with ⟨hs, hd, u, e, hw⟩ | ⟨-, e⟩
  · rw [e] at h
    cases h
    exact ⟨hs, hd, hw⟩
  · rw [e] at h
    cases h

theorem moveOp_completes {w : Width} {len : Nat} {dst : Place w} {src : Source w} {s : State}
    (hs : src.ready s = true) (hd : dst.ready s = true) :
    ∃ t, moveOp len dst src s = .next t ∧ Written dst (src.value s) (s.advance len) t := by
  rcases moveOp_spec len dst src s with ⟨-, -, h⟩ | ⟨h | h, -⟩
  · exact h
  · rw [hs] at h
    cases h
  · rw [hd] at h
    cases h

/-! ## ADD, SUB, CMP -/

/-- What an ADD, SUB or CMP that completes leaves (R132, R134). -/
structure AluDone {w : Width} (op : AluOp) (len : Nat) (dst : Place w) (src : Source w) (s t : State) : Prop where
  ip : t.ip = s.ip + BitVec.ofNat 16 len
  flags : t.flags = aluFlags op (dst.value s) (src.value s)
  only : ChangesOnly dst s t
  launch : t.launch = s.launch
  wf : s.mem.wf = true → t.mem.wf = true
  slots : ∀ y, (∀ r, dst = .reg r → y ≠ r.slot) → t.regs.get y = s.regs.get y
  mem : dst.cells s = [] → t.mem = s.mem
  stored : op ≠ .cmp → s.mem.wf = true ∨ dst.cells s = [] → dst.value t = aluResult op (dst.value s) (src.value s)
  compared : op = .cmp → t.regs = s.regs ∧ t.mem = s.mem

/-- All that `aluOp` can do (R132). -/
theorem aluOp_spec {w : Width} (op : AluOp) (len : Nat) (dst : Place w) (src : Source w) (s : State) :
    (dst.ready s = true ∧ src.ready s = true ∧ ∃ t, aluOp op len dst src s = .next t ∧ AluDone op len dst src s t) ∨
    ((dst.ready s = false ∨ src.ready s = false) ∧ aluOp op len dst src s = .fault (topWordFault s.ip)) := by
  unfold aluOp
  rcases readPlace_spec s.ip dst (s.advance len) with ⟨hd, e⟩ | ⟨hd, e⟩
  · rw [e]
    rcases readSource_spec s.ip src (s.advance len) with ⟨hs, e'⟩ | ⟨hs, e'⟩
    · rw [e']
      simp only [Place.value_advance, Source.value_advance, Place.ready_advance, Source.ready_advance] at hd hs ⊢
      refine .inl ⟨hd, hs, ?_⟩
      have stores : ∀ op', op' = op → op' ≠ .cmp → ∃ t,
          writePlace s.ip dst (aluResult op (dst.value s) (src.value s)) (s.advance len) = .ok t ∧
          AluDone op len dst src s { t with flags := aluFlags op (dst.value s) (src.value s) } := by
        intro op' hop hne
        subst hop
        rcases writePlace_spec s.ip dst (aluResult op' (dst.value s) (src.value s)) (s.advance len) with
          ⟨-, t, e'', hw⟩ | ⟨hd', -⟩
        · refine ⟨t, e'', ⟨hw.ip, rfl, ?_, hw.only.2.2, hw.wf, hw.slots, ?_, ?_, fun h => absurd h hne⟩⟩
          · exact ⟨hw.only.1, fun a ha => hw.only.2.1 a (by simpa using ha), hw.only.2.2⟩
          · intro hc
            exact hw.mem (by simpa using hc)
          · intro _ hwf
            rw [Place.value_setFlags]
            exact hw.value (by simpa using hwf)
        · rw [Place.ready_advance, hd] at hd'
          cases hd'
      cases op with
      | add =>
        obtain ⟨t, e'', h⟩ := stores .add rfl (by decide)
        rw [storeResult, e'']
        exact ⟨_, rfl, h⟩
      | sub =>
        obtain ⟨t, e'', h⟩ := stores .sub rfl (by decide)
        rw [storeResult, e'']
        exact ⟨_, rfl, h⟩
      | cmp =>
        exact ⟨_, rfl, ⟨rfl, rfl, ⟨fun _ _ _ => rfl, fun _ _ => rfl, rfl⟩, rfl, id, fun _ _ => rfl, fun _ => rfl,
          fun h => absurd rfl h, fun _ => ⟨rfl, rfl⟩⟩⟩
    · rw [e']
      exact .inr ⟨.inr (by simpa using hs), rfl⟩
  · rw [e]
    exact .inr ⟨.inl (by simpa using hd), rfl⟩

theorem aluOp_next {w : Width} {op : AluOp} {len : Nat} {dst : Place w} {src : Source w} {s t : State}
    (h : aluOp op len dst src s = .next t) :
    dst.ready s = true ∧ src.ready s = true ∧ AluDone op len dst src s t := by
  rcases aluOp_spec op len dst src s with ⟨hd, hs, u, e, hu⟩ | ⟨-, e⟩
  · rw [e] at h
    cases h
    exact ⟨hd, hs, hu⟩
  · rw [e] at h
    cases h

theorem aluOp_completes {w : Width} {op : AluOp} {len : Nat} {dst : Place w} {src : Source w} {s : State}
    (hd : dst.ready s = true) (hs : src.ready s = true) :
    ∃ t, aluOp op len dst src s = .next t ∧ AluDone op len dst src s t := by
  rcases aluOp_spec op len dst src s with ⟨-, -, h⟩ | ⟨h | h, -⟩
  · exact h
  · rw [hd] at h
    cases h
  · rw [hs] at h
    cases h

/-! ## The branches -/

/-- All that a conditional jump can do (R148): it completes, and only IP changes. -/
theorem jumpOp_eq (c : Cond) (rel : Byte) (s : State) :
    jumpOp c rel s =
      .next { s with ip := if evalCond s.flags c then s.ip + 2#16 + rel.signExtend 16 else s.ip + 2#16 } := by
  unfold jumpOp branchIf
  cases evalCond s.flags c <;> rfl

/-- All that LOOP, LOOPZ and LOOPNZ can do (R166): they complete, and only CX and IP change. -/
theorem loopOp_eq (flagOk : Bool) (rel : Byte) (s : State) :
    loopOp flagOk rel s =
      .next { s with
        regs := s.regs.set .cx (s.regs.get .cx - 1#16)
        ip := if s.regs.get .cx - 1#16 ≠ 0#16 ∧ flagOk = true then s.ip + 2#16 + rel.signExtend 16 else s.ip + 2#16 } := by
  unfold loopOp branchIf
  simp only [decCx_regs, RegFile.get_set_same]
  by_cases h : s.regs.get .cx - 1#16 = 0#16 <;> cases flagOk <;> simp [h, State.advance, State.branch, decCx]

/-- All that JCXZ can do (R170): it completes, and only IP changes. -/
theorem execJcxz_eq (rel : Byte) (s : State) :
    execJcxz rel s =
      .next { s with ip := if s.regs.get .cx = 0#16 then s.ip + 2#16 + rel.signExtend 16 else s.ip + 2#16 } := by
  unfold execJcxz branchIf
  by_cases h : s.regs.get .cx = 0#16 <;> simp [h, State.advance, State.branch]

/-! ## The dispatch, family by family -/

/-- An instruction with its operands resolved (30_encoding.md R100), its length beside it. -/
inductive Shape where
  | move (w : Width) (len : Nat) (dst : Place w) (src : Source w)
  | alu (op : AluOp) (w : Width) (len : Nat) (dst : Place w) (src : Source w)
  | jump (c : Cond) (rel : Byte)
  | loopnz (rel : Byte)
  | loopz (rel : Byte)
  | loop (rel : Byte)
  | jcxz (rel : Byte)

/-- The shape of each row. -/
def shapeOf : Instr → Shape
  | .movRmReg w rm r => .move w (2 + rm.dispLen) (rmPlace w rm) (.place (regPlace w r))
  | .movRegRm w r rm => .move w (2 + rm.dispLen) (regPlace w r) (.place (rmPlace w rm))
  | .movRmImm w rm imm => .move w (2 + rm.dispLen + w.immLen) (rmPlace w rm) (.imm imm)
  | .movRegImm w r imm => .move w (1 + w.immLen) (regPlace w r) (.imm imm)
  | .movAccMem w addr => .move w 3 (.reg (acc w)) (.place (directPlace w addr))
  | .movMemAcc w addr => .move w 3 (directPlace w addr) (.place (.reg (acc w)))
  | .movSegRm sr rm => .move .word (2 + rm.dispLen) (.reg (segReg sr)) (.place (rmPlace .word rm))
  | .movRmSeg rm sr => .move .word (2 + rm.dispLen) (rmPlace .word rm) (.place (.reg (segReg sr)))
  | .addRmReg w rm r => .alu .add w (2 + rm.dispLen) (rmPlace w rm) (.place (regPlace w r))
  | .addRegRm w r rm => .alu .add w (2 + rm.dispLen) (regPlace w r) (.place (rmPlace w rm))
  | .addRmImm sb w rm imm => .alu .add w (2 + rm.dispLen + immLenS sb w) (rmPlace w rm) (.imm imm)
  | .addAccImm _ w imm => .alu .add w (1 + w.immLen) (.reg (acc w)) (.imm imm)
  | .subRmReg w rm r => .alu .sub w (2 + rm.dispLen) (rmPlace w rm) (.place (regPlace w r))
  | .subRegRm w r rm => .alu .sub w (2 + rm.dispLen) (regPlace w r) (.place (rmPlace w rm))
  | .subRmImm sb w rm imm => .alu .sub w (2 + rm.dispLen + immLenS sb w) (rmPlace w rm) (.imm imm)
  | .subAccImm _ w imm => .alu .sub w (1 + w.immLen) (.reg (acc w)) (.imm imm)
  | .cmpRmReg w rm r => .alu .cmp w (2 + rm.dispLen) (rmPlace w rm) (.place (regPlace w r))
  | .cmpRegRm w r rm => .alu .cmp w (2 + rm.dispLen) (regPlace w r) (.place (rmPlace w rm))
  | .cmpRmImm sb w rm imm => .alu .cmp w (2 + rm.dispLen + immLenS sb w) (rmPlace w rm) (.imm imm)
  | .cmpAccImm _ w imm => .alu .cmp w (1 + w.immLen) (.reg (acc w)) (.imm imm)
  | .jo rel => .jump .o rel
  | .jno rel => .jump .no rel
  | .jb rel => .jump .b rel
  | .jnb rel => .jump .nb rel
  | .je rel => .jump .e rel
  | .jne rel => .jump .ne rel
  | .jbe rel => .jump .be rel
  | .ja rel => .jump .a rel
  | .js rel => .jump .s rel
  | .jns rel => .jump .ns rel
  | .jp rel => .jump .p rel
  | .jnp rel => .jump .np rel
  | .jl rel => .jump .l rel
  | .jnl rel => .jump .nl rel
  | .jle rel => .jump .le rel
  | .jg rel => .jump .g rel
  | .loopnz rel => .loopnz rel
  | .loopz rel => .loopz rel
  | .loop rel => .loop rel
  | .jcxz rel => .jcxz rel

/-- What an instruction of a shape does. -/
def Shape.run : Shape → State → Host.Outcome State Fault Refusal
  | .move _ len dst src, s => moveOp len dst src s
  | .alu op _ len dst src, s => aluOp op len dst src s
  | .jump c rel, s => jumpOp c rel s
  | .loopnz rel, s => loopOp (!s.flags.zf) rel s
  | .loopz rel, s => loopOp s.flags.zf rel s
  | .loop rel, s => loopOp true rel s
  | .jcxz rel, s => execJcxz rel s

/-- Every instruction does what its shape does: with this a claim over all instructions has seven cases. -/
theorem exec_eq_shape (i : Instr) (s : State) : exec i s = (shapeOf i).run s := by
  cases i <;> rfl

/-- What an instruction of a shape leaves when it completes. -/
def Shape.Post : Shape → State → State → Prop
  | .move _ len dst src, s, t => Written dst (src.value s) (s.advance len) t
  | .alu op _ len dst src, s, t => AluDone op len dst src s t
  | .jump c rel, s, t =>
    t = { s with ip := if evalCond s.flags c then s.ip + 2#16 + rel.signExtend 16 else s.ip + 2#16 }
  | .loopnz rel, s, t =>
    t = { s with
      regs := s.regs.set .cx (s.regs.get .cx - 1#16)
      ip := if s.regs.get .cx - 1#16 ≠ 0#16 ∧ (!s.flags.zf) = true then s.ip + 2#16 + rel.signExtend 16
        else s.ip + 2#16 }
  | .loopz rel, s, t =>
    t = { s with
      regs := s.regs.set .cx (s.regs.get .cx - 1#16)
      ip := if s.regs.get .cx - 1#16 ≠ 0#16 ∧ s.flags.zf = true then s.ip + 2#16 + rel.signExtend 16
        else s.ip + 2#16 }
  | .loop rel, s, t =>
    t = { s with
      regs := s.regs.set .cx (s.regs.get .cx - 1#16)
      ip := if s.regs.get .cx - 1#16 ≠ 0#16 ∧ true = true then s.ip + 2#16 + rel.signExtend 16 else s.ip + 2#16 }
  | .jcxz rel, s, t =>
    t = { s with ip := if s.regs.get .cx = 0#16 then s.ip + 2#16 + rel.signExtend 16 else s.ip + 2#16 }

/-- The operands of a shape can be accessed; a branch has none. -/
def Shape.ready : Shape → State → Bool
  | .move _ _ dst src, s => src.ready s && dst.ready s
  | .alu _ _ _ dst src, s => dst.ready s && src.ready s
  | _, _ => true

/-- All that an instruction of a shape can do: it completes when its operands can be accessed, and otherwise stops
with MemoryRangeFault. -/
theorem Shape.run_spec (sh : Shape) (s : State) :
    (sh.ready s = true ∧ ∃ t, sh.run s = .next t ∧ sh.Post s t) ∨
    (sh.ready s = false ∧ sh.run s = .fault (topWordFault s.ip)) := by
  cases sh with
  | move w len dst src =>
    rcases moveOp_spec len dst src s with ⟨hs, hd, h⟩ | ⟨h, e⟩
    · exact .inl ⟨by simp [Shape.ready, hs, hd], h⟩
    · exact .inr ⟨by simpa only [Shape.ready, Bool.and_eq_false_iff] using h, e⟩
  | alu op w len dst src =>
    rcases aluOp_spec op len dst src s with ⟨hd, hs, h⟩ | ⟨h, e⟩
    · exact .inl ⟨by simp [Shape.ready, hs, hd], h⟩
    · exact .inr ⟨by simpa only [Shape.ready, Bool.and_eq_false_iff] using h, e⟩
  | jump c rel => exact .inl ⟨rfl, _, jumpOp_eq c rel s, rfl⟩
  | loopnz rel => exact .inl ⟨rfl, _, loopOp_eq _ rel s, rfl⟩
  | loopz rel => exact .inl ⟨rfl, _, loopOp_eq _ rel s, rfl⟩
  | loop rel => exact .inl ⟨rfl, _, loopOp_eq _ rel s, rfl⟩
  | jcxz rel => exact .inl ⟨rfl, _, execJcxz_eq rel s, rfl⟩

/-- All that `exec` can do, in terms of the instruction's shape. -/
theorem exec_spec (i : Instr) (s : State) :
    ((shapeOf i).ready s = true ∧ ∃ t, exec i s = .next t ∧ (shapeOf i).Post s t) ∨
    ((shapeOf i).ready s = false ∧ exec i s = .fault (topWordFault s.ip)) := by
  rw [exec_eq_shape]
  exact Shape.run_spec (shapeOf i) s

/-- What a completed instruction leaves: with this a claim about every next state has seven cases. -/
theorem exec_next {i : Instr} {s t : State} (h : exec i s = .next t) : (shapeOf i).Post s t := by
  rcases exec_spec i s with ⟨-, u, e, hu⟩ | ⟨-, e⟩
  · rw [e] at h
    cases h
    exact hu
  · rw [e] at h
    cases h

/-- Operands that can be accessed make the instruction complete. -/
theorem exec_completes {i : Instr} {s : State} (h : (shapeOf i).ready s = true) :
    ∃ t, exec i s = .next t ∧ (shapeOf i).Post s t := by
  rcases exec_spec i s with ⟨-, h'⟩ | ⟨h', -⟩
  · exact h'
  · rw [h] at h'
    cases h'

/-- Operands that cannot be accessed stop it. -/
theorem exec_stops {i : Instr} {s : State} (h : (shapeOf i).ready s = false) :
    exec i s = .fault (topWordFault s.ip) := by
  rcases exec_spec i s with ⟨h', -⟩ | ⟨-, e⟩
  · rw [h] at h'
    cases h'
  · exact e

/-- A shape that is not ready has a memory operand at the top of the segment, under WORD_AT_FFFF = fault. -/
theorem Shape.not_ready {sh : Shape} {s : State} (h : sh.ready s = false) : s.policy = .fault := by
  have place : ∀ {w : Width} (p : Place w), p.ready s = false → s.policy = .fault := fun p hp => (Place.not_ready hp).2.1
  have source : ∀ {w : Width} (o : Source w), o.ready s = false → s.policy = .fault := by
    intro w o ho
    cases o with
    | place p => exact place p ho
    | imm v => cases ho
  cases sh <;> simp only [Shape.ready, Bool.and_eq_false_iff, reduceCtorEq] at h
  · exact h.elim (source _) (place _)
  · exact h.elim (place _) (source _)

end Sys2Proof.Machine
end

