-- ==== Sys2Proof/Laws/Equations.lean ====
section
/-! SUPPORT. The shared operations of MOV and the ALU as equations: one `if` on whether the operands can be accessed.
They say what a change of the state outside the operands does to the outcome. -/

namespace Sys2Proof.Machine

/-- The state after `v` has been written to an operand that can be accessed. -/
def Place.put {w : Width} (p : Place w) (v : BitVec w.bits) (s : State) : State :=
  match p with
  | .reg r => { s with regs := s.regs.writeReg r v }
  | .mem m => { s with mem := s.mem.store s.policy (m.ea s.regs) w v }

theorem readPlace_eq {w : Width} (pc : Word) (p : Place w) (s : State) :
    readPlace pc p s = if p.ready s then .ok (p.value s) else .error (topWordFault pc) := by
  rcases readPlace_spec pc p s with ⟨h, e⟩ | ⟨h, e⟩ <;> rw [e, h] <;> rfl

theorem readSource_eq {w : Width} (pc : Word) (o : Source w) (s : State) :
    readSource pc o s = if o.ready s then .ok (o.value s) else .error (topWordFault pc) := by
  rcases readSource_spec pc o s with ⟨h, e⟩ | ⟨h, e⟩ <;> rw [e, h] <;> rfl

theorem writePlace_eq {w : Width} (pc : Word) (p : Place w) (v : BitVec w.bits) (s : State) :
    writePlace pc p v s = if p.ready s then .ok (p.put v s) else .error (topWordFault pc) := by
  rcases writePlace_spec pc p v s with ⟨h, t, e, -⟩ | ⟨h, e⟩
  · rw [h]
    cases p with
    | reg r => rfl
    | mem m =>
      have h' : rangeFaults s.policy (m.ea s.regs) w = false := by simpa [Place.ready] using h
      simp [writePlace, memWrite, h', Place.put]
  · rw [e, h]
    rfl

/-- MOV as one equation (40_mov.md R115). -/
theorem moveOp_eq {w : Width} (len : Nat) (dst : Place w) (src : Source w) (s : State) :
    moveOp len dst src s =
      if src.ready s && dst.ready s then .next (dst.put (src.value s) (s.advance len))
      else .fault (topWordFault s.ip) := by
  unfold moveOp
  rw [readSource_eq, Source.ready_advance, Source.value_advance]
  cases src.ready s
  · rfl
  · simp only [if_true, Bool.true_and]
    rw [writePlace_eq, Place.ready_advance]
    cases dst.ready s <;> rfl

/-- ADD, SUB and CMP as one equation (41_alu.md R132). -/
theorem aluOp_eq {w : Width} (op : AluOp) (len : Nat) (dst : Place w) (src : Source w) (s : State) :
    aluOp op len dst src s =
      if dst.ready s && src.ready s then
        .next { (if op = .cmp then s.advance len
            else dst.put (aluResult op (dst.value s) (src.value s)) (s.advance len)) with
          flags := aluFlags op (dst.value s) (src.value s) }
      else .fault (topWordFault s.ip) := by
  unfold aluOp
  rw [readPlace_eq, Place.ready_advance, Place.value_advance]
  cases hd : dst.ready s
  · rfl
  · simp only [if_true, Bool.true_and]
    rw [readSource_eq, Source.ready_advance, Source.value_advance]
    cases src.ready s
    · rfl
    · cases op <;> simp only [if_true, storeResult, writePlace_eq, Place.ready_advance, hd] <;> rfl

/-! ## The operands in a state that differs outside them -/

@[simp] theorem Place.ready_flags {w : Width} (p : Place w) (s : State) (f : Flags) :
    p.ready { s with flags := f } = p.ready s := by
  cases p <;> rfl

@[simp] theorem Source.ready_flags {w : Width} (o : Source w) (s : State) (f : Flags) :
    o.ready { s with flags := f } = o.ready s := by
  cases o with
  | place p => exact Place.ready_flags p s f
  | imm v => rfl

@[simp] theorem Source.value_flags {w : Width} (o : Source w) (s : State) (f : Flags) :
    o.value { s with flags := f } = o.value s := by
  cases o with
  | place p => exact Place.value_setFlags p s f
  | imm v => rfl

theorem Place.put_flags {w : Width} (p : Place w) (v : BitVec w.bits) (s : State) (f : Flags) :
    p.put v { s with flags := f } = { p.put v s with flags := f } := by
  cases p <;> rfl

end Sys2Proof.Machine
end

