-- ==== Sys2Proof/Laws/PerInstr.lean ====
section
/-! SUPPORT. The encoder's output has the length the instruction's row gives, 2 to 6 bytes (spec 30_encoding.md R95),
constructor by constructor. -/

namespace Sys2Proof.Laws.EncodeLength

/-- The encoding of a well-formed instruction has its advance as length, 2 to 6 bytes (R95). -/
def Statement (i : Instr) : Prop :=
  i.wf = true → (encode i).length = i.length ∧ 2 ≤ i.length ∧ i.length ≤ 6

theorem movRmReg (w : Width) (rm : RM) (r : BitVec 3) : Statement (.movRmReg w rm r) := by
  intro _
  have h := dispLen_le rm
  refine ⟨?_, ?_, ?_⟩
  · simp [encode, encodeRM, Instr.length]
    omega
  · simp only [Instr.length]
    omega
  · simp only [Instr.length]
    omega

theorem movRegRm (w : Width) (r : BitVec 3) (rm : RM) : Statement (.movRegRm w r rm) := by
  intro _
  have h := dispLen_le rm
  refine ⟨?_, ?_, ?_⟩
  · simp [encode, encodeRM, Instr.length]
    omega
  · simp only [Instr.length]
    omega
  · simp only [Instr.length]
    omega

theorem movRmImm (w : Width) (rm : RM) (imm : Word) : Statement (.movRmImm w rm imm) := by
  intro _
  have h := dispLen_le rm
  have h' := immLen_bounds w
  refine ⟨?_, ?_, ?_⟩
  · simp [encode, encodeRM, Instr.length]
    omega
  · simp only [Instr.length]
    omega
  · simp only [Instr.length]
    omega

theorem movRegImm (w : Width) (r : BitVec 3) (imm : Word) : Statement (.movRegImm w r imm) :=
  fun _ => by cases w <;> exact ⟨rfl, Nat.le_of_ble_eq_true rfl, Nat.le_of_ble_eq_true rfl⟩

theorem movAccMem (w : Width) (addr : Word) : Statement (.movAccMem w addr) :=
  fun _ => ⟨rfl, Nat.le_of_ble_eq_true rfl, Nat.le_of_ble_eq_true rfl⟩

theorem movMemAcc (w : Width) (addr : Word) : Statement (.movMemAcc w addr) :=
  fun _ => ⟨rfl, Nat.le_of_ble_eq_true rfl, Nat.le_of_ble_eq_true rfl⟩

theorem movSegRm (sr : SegReg) (rm : RM) : Statement (.movSegRm sr rm) := by
  intro _
  have h := dispLen_le rm
  refine ⟨?_, ?_, ?_⟩
  · simp [encode, Instr.length]
    omega
  · simp only [Instr.length]
    omega
  · simp only [Instr.length]
    omega

theorem movRmSeg (rm : RM) (sr : SegReg) : Statement (.movRmSeg rm sr) := by
  intro _
  have h := dispLen_le rm
  refine ⟨?_, ?_, ?_⟩
  · simp [encode, Instr.length]
    omega
  · simp only [Instr.length]
    omega
  · simp only [Instr.length]
    omega

theorem addRmReg (w : Width) (rm : RM) (r : BitVec 3) : Statement (.addRmReg w rm r) := by
  intro _
  have h := dispLen_le rm
  refine ⟨?_, ?_, ?_⟩
  · simp [encode, encodeRM, Instr.length]
    omega
  · simp only [Instr.length]
    omega
  · simp only [Instr.length]
    omega

theorem addRegRm (w : Width) (r : BitVec 3) (rm : RM) : Statement (.addRegRm w r rm) := by
  intro _
  have h := dispLen_le rm
  refine ⟨?_, ?_, ?_⟩
  · simp [encode, encodeRM, Instr.length]
    omega
  · simp only [Instr.length]
    omega
  · simp only [Instr.length]
    omega

theorem addRmImm (s : Bool) (w : Width) (rm : RM) (imm : Word) : Statement (.addRmImm s w rm imm) := by
  intro _
  have h := dispLen_le rm
  have h' := immLenS_bounds s w
  refine ⟨?_, ?_, ?_⟩
  · simp [encode, Instr.length]
    omega
  · simp only [Instr.length]
    omega
  · simp only [Instr.length]
    omega

theorem addAccImm (x : Bool) (w : Width) (imm : Word) : Statement (.addAccImm x w imm) :=
  fun _ => by cases w <;> exact ⟨rfl, Nat.le_of_ble_eq_true rfl, Nat.le_of_ble_eq_true rfl⟩

theorem subRmReg (w : Width) (rm : RM) (r : BitVec 3) : Statement (.subRmReg w rm r) := by
  intro _
  have h := dispLen_le rm
  refine ⟨?_, ?_, ?_⟩
  · simp [encode, encodeRM, Instr.length]
    omega
  · simp only [Instr.length]
    omega
  · simp only [Instr.length]
    omega

theorem subRegRm (w : Width) (r : BitVec 3) (rm : RM) : Statement (.subRegRm w r rm) := by
  intro _
  have h := dispLen_le rm
  refine ⟨?_, ?_, ?_⟩
  · simp [encode, encodeRM, Instr.length]
    omega
  · simp only [Instr.length]
    omega
  · simp only [Instr.length]
    omega

theorem subRmImm (s : Bool) (w : Width) (rm : RM) (imm : Word) : Statement (.subRmImm s w rm imm) := by
  intro _
  have h := dispLen_le rm
  have h' := immLenS_bounds s w
  refine ⟨?_, ?_, ?_⟩
  · simp [encode, Instr.length]
    omega
  · simp only [Instr.length]
    omega
  · simp only [Instr.length]
    omega

theorem subAccImm (x : Bool) (w : Width) (imm : Word) : Statement (.subAccImm x w imm) :=
  fun _ => by cases w <;> exact ⟨rfl, Nat.le_of_ble_eq_true rfl, Nat.le_of_ble_eq_true rfl⟩

theorem cmpRmReg (w : Width) (rm : RM) (r : BitVec 3) : Statement (.cmpRmReg w rm r) := by
  intro _
  have h := dispLen_le rm
  refine ⟨?_, ?_, ?_⟩
  · simp [encode, encodeRM, Instr.length]
    omega
  · simp only [Instr.length]
    omega
  · simp only [Instr.length]
    omega

theorem cmpRegRm (w : Width) (r : BitVec 3) (rm : RM) : Statement (.cmpRegRm w r rm) := by
  intro _
  have h := dispLen_le rm
  refine ⟨?_, ?_, ?_⟩
  · simp [encode, encodeRM, Instr.length]
    omega
  · simp only [Instr.length]
    omega
  · simp only [Instr.length]
    omega

theorem cmpRmImm (s : Bool) (w : Width) (rm : RM) (imm : Word) : Statement (.cmpRmImm s w rm imm) := by
  intro _
  have h := dispLen_le rm
  have h' := immLenS_bounds s w
  refine ⟨?_, ?_, ?_⟩
  · simp [encode, Instr.length]
    omega
  · simp only [Instr.length]
    omega
  · simp only [Instr.length]
    omega

theorem cmpAccImm (x : Bool) (w : Width) (imm : Word) : Statement (.cmpAccImm x w imm) :=
  fun _ => by cases w <;> exact ⟨rfl, Nat.le_of_ble_eq_true rfl, Nat.le_of_ble_eq_true rfl⟩

theorem jo (rel : Byte) : Statement (.jo rel) :=
  fun _ => ⟨rfl, Nat.le_of_ble_eq_true rfl, Nat.le_of_ble_eq_true rfl⟩

theorem jno (rel : Byte) : Statement (.jno rel) :=
  fun _ => ⟨rfl, Nat.le_of_ble_eq_true rfl, Nat.le_of_ble_eq_true rfl⟩

theorem jb (rel : Byte) : Statement (.jb rel) :=
  fun _ => ⟨rfl, Nat.le_of_ble_eq_true rfl, Nat.le_of_ble_eq_true rfl⟩

theorem jnb (rel : Byte) : Statement (.jnb rel) :=
  fun _ => ⟨rfl, Nat.le_of_ble_eq_true rfl, Nat.le_of_ble_eq_true rfl⟩

theorem je (rel : Byte) : Statement (.je rel) :=
  fun _ => ⟨rfl, Nat.le_of_ble_eq_true rfl, Nat.le_of_ble_eq_true rfl⟩

theorem jne (rel : Byte) : Statement (.jne rel) :=
  fun _ => ⟨rfl, Nat.le_of_ble_eq_true rfl, Nat.le_of_ble_eq_true rfl⟩

theorem jbe (rel : Byte) : Statement (.jbe rel) :=
  fun _ => ⟨rfl, Nat.le_of_ble_eq_true rfl, Nat.le_of_ble_eq_true rfl⟩

theorem ja (rel : Byte) : Statement (.ja rel) :=
  fun _ => ⟨rfl, Nat.le_of_ble_eq_true rfl, Nat.le_of_ble_eq_true rfl⟩

theorem js (rel : Byte) : Statement (.js rel) :=
  fun _ => ⟨rfl, Nat.le_of_ble_eq_true rfl, Nat.le_of_ble_eq_true rfl⟩

theorem jns (rel : Byte) : Statement (.jns rel) :=
  fun _ => ⟨rfl, Nat.le_of_ble_eq_true rfl, Nat.le_of_ble_eq_true rfl⟩

theorem jp (rel : Byte) : Statement (.jp rel) :=
  fun _ => ⟨rfl, Nat.le_of_ble_eq_true rfl, Nat.le_of_ble_eq_true rfl⟩

theorem jnp (rel : Byte) : Statement (.jnp rel) :=
  fun _ => ⟨rfl, Nat.le_of_ble_eq_true rfl, Nat.le_of_ble_eq_true rfl⟩

theorem jl (rel : Byte) : Statement (.jl rel) :=
  fun _ => ⟨rfl, Nat.le_of_ble_eq_true rfl, Nat.le_of_ble_eq_true rfl⟩

theorem jnl (rel : Byte) : Statement (.jnl rel) :=
  fun _ => ⟨rfl, Nat.le_of_ble_eq_true rfl, Nat.le_of_ble_eq_true rfl⟩

theorem jle (rel : Byte) : Statement (.jle rel) :=
  fun _ => ⟨rfl, Nat.le_of_ble_eq_true rfl, Nat.le_of_ble_eq_true rfl⟩

theorem jg (rel : Byte) : Statement (.jg rel) :=
  fun _ => ⟨rfl, Nat.le_of_ble_eq_true rfl, Nat.le_of_ble_eq_true rfl⟩

theorem loopnz (rel : Byte) : Statement (.loopnz rel) :=
  fun _ => ⟨rfl, Nat.le_of_ble_eq_true rfl, Nat.le_of_ble_eq_true rfl⟩

theorem loopz (rel : Byte) : Statement (.loopz rel) :=
  fun _ => ⟨rfl, Nat.le_of_ble_eq_true rfl, Nat.le_of_ble_eq_true rfl⟩

theorem loop (rel : Byte) : Statement (.loop rel) :=
  fun _ => ⟨rfl, Nat.le_of_ble_eq_true rfl, Nat.le_of_ble_eq_true rfl⟩

theorem jcxz (rel : Byte) : Statement (.jcxz rel) :=
  fun _ => ⟨rfl, Nat.le_of_ble_eq_true rfl, Nat.le_of_ble_eq_true rfl⟩

end Sys2Proof.Laws.EncodeLength
end

