-- ==== Sys2Proof/Laws/Step.lean ====
section
/-! SUPPORT. All that a step can do (spec 50_step_cycle.md R171, R172), said once: the statements about runs and
invariants cite it and do not unfold `step`. -/

namespace Sys2Proof.Machine

theorem launchOk_iff (s : State) : s.launchOk = true ↔ s.launch.code.length ≤ 65536 := by
  unfold State.launchOk
  exact decide_eq_true_iff

theorem halted_iff (s : State) : s.halted = true ↔ s.launch.code.length ≤ s.ip.toNat := by
  unfold State.halted
  exact decide_eq_true_iff

/-- The run has not ended exactly when there is a byte at IP. -/
theorem halted_eq_false_iff (s : State) : s.halted = false ↔ s.codeFrom s.ip ≠ [] := by
  rw [← Bool.not_eq_true, halted_iff, State.codeFrom, Ne, List.drop_eq_nil_iff]

/-- What a fetch can do, by what the decoder answers. -/
theorem fetch_cases (s : State) (p : Word) :
    (∃ e, decode s.launch.params (s.codeFrom p) = .error e ∧ fetch s p = .error (decodeFault p e)) ∨
    (∃ i len, decode s.launch.params (s.codeFrom p) = .ok (i, len) ∧
      ((len < 2 ∧ fetch s p = .error (.decoderInvariantViolation p)) ∨ (2 ≤ len ∧ fetch s p = .ok i))) := by
  unfold fetch
  cases h : decode s.launch.params (s.codeFrom p) with
  | error e => exact .inl ⟨e, rfl, rfl⟩
  | ok r =>
    obtain ⟨i, len⟩ := r
    refine .inr ⟨i, len, rfl, ?_⟩
    by_cases hl : len < 2
    · exact .inl ⟨hl, if_pos hl⟩
    · exact .inr ⟨Nat.le_of_not_lt hl, if_neg hl⟩

/-- All that a step can do: two refusals, the fatal condition of a fetch, or the fetched instruction. -/
theorem step_cases (s : State) :
    (s.launchOk = false ∧ step s = .refused .codeTooLong) ∨
    (s.launchOk = true ∧ s.halted = true ∧ step s = .refused .runEnded) ∨
    (s.launchOk = true ∧ s.halted = false ∧
      ((∃ f, fetch s s.ip = .error f ∧ step s = .fault f) ∨ (∃ i, fetch s s.ip = .ok i ∧ step s = exec i s))) := by
  unfold step
  cases s.launchOk with
  | false => exact .inl ⟨rfl, rfl⟩
  | true =>
    cases s.halted with
    | true => exact .inr (.inl ⟨rfl, rfl, rfl⟩)
    | false =>
      refine .inr (.inr ⟨rfl, rfl, ?_⟩)
      cases fetch s s.ip with
      | error f => exact .inl ⟨f, rfl, rfl⟩
      | ok i => exact .inr ⟨i, rfl, rfl⟩

/-- A step that answers a next state ran the fetched instruction. -/
theorem step_next {s t : State} (h : step s = .next t) :
    s.launchOk = true ∧ s.halted = false ∧ ∃ i, fetch s s.ip = .ok i ∧ exec i s = .next t := by
  rcases step_cases s with ⟨-, e⟩ | ⟨-, -, e⟩ | ⟨hl, hh, ⟨f, -, e⟩ | ⟨i, hi, e⟩⟩
  · rw [e] at h
    cases h
  · rw [e] at h
    cases h
  · rw [e] at h
    cases h
  · exact ⟨hl, hh, i, hi, e ▸ h⟩

end Sys2Proof.Machine
end

