-- ==== Sys2Proof/Tests/Slice0.lean ====
section
/-! SUPPORT. Tests, each on one word or one step, and the witnesses of the statements' hypotheses. Every expected result
is a vector of spec 95_test_vectors.md (its section is named) or worked out by hand from the rule named. -/

namespace Sys2Proof.Tests

open Sys2Proof Sys2Proof.Machine

/-! ## Helpers -/

/-- The reset state of a run with this CODE, every other byte of memory zero. -/
def start (code : List Byte) (mem : Memory := []) : State := State.launched code mem Params.spec

/-- The same state with other registers. -/
def withRegs (s : State) (f : RegFile → RegFile) : State := { s with regs := f s.regs }

/-- The same state with these flags, in the order C P A Z S O. -/
def withFlags (s : State) (c p a z sg o : Bool) : State :=
  { s with flags := { cf := c, pf := p, af := a, zf := z, sf := sg, of := o } }

/-- What `f` sees of the next state, if there is one. -/
def after {α : Type} (o : Host.Outcome State Fault Refusal) (f : State → α) : Option α :=
  match o with
  | .next t => some (f t)
  | .fault _ => none
  | .refused _ => none

/-- The fatal condition, if there is one. -/
def faultOf (o : Host.Outcome State Fault Refusal) : Option Fault :=
  match o with
  | .next _ => none
  | .fault f => some f
  | .refused _ => none

/-- The refusal, if there is one. -/
def refusalOf (o : Host.Outcome State Fault Refusal) : Option Refusal :=
  match o with
  | .next _ => none
  | .fault _ => none
  | .refused r => some r

/-! ## WellFormed: one ill-formed term for each check -/

/-- `[bp]` with MOD = 00 has no encoding (30_encoding.md R88). -/
theorem test_wf_bp_without_displacement : (Instr.movRegRm .word 0b010#3 (.mem .bp .none)).wf = false := by decide

/-- A byte immediate is one byte, zero-extended (R92). -/
theorem test_wf_byte_immediate : (Instr.movRegImm .byte 0b001#3 0x0100#16).wf = false := by decide

/-- An S = 1 immediate is one byte, sign-extended (R92). -/
theorem test_wf_signed_immediate : (Instr.addRmImm true .word (.reg 0b011#3) 0x0080#16).wf = false := by decide

/-- The S = 1 check holds for byte operations too: byte 1 = 0x82 stores the sign-extended byte (R92). -/
theorem test_wf_signed_byte_immediate : (Instr.subRmImm true .byte (.reg 0b011#3) 0x0080#16).wf = false := by decide

/-- The same terms mended. -/
theorem test_wf_accepts :
    (Instr.movRegRm .word 0b010#3 (.mem .bp (.d8 0#8))).wf = true ∧ (Instr.movRegImm .byte 0b001#3 0x00FF#16).wf = true ∧
    (Instr.addRmImm true .word (.reg 0b011#3) 0xFF80#16).wf = true := by decide

/-! ## Decoding: a word of each row written out from its encoding (95_test_vectors.md 2.1), and its assembly text -/

/-- `1000100w mmrrrbbb`: w = 1, mod = 11, reg = 011, rm = 001. -/
theorem test_decode_movRmReg :
    decode Params.spec [0x89#8, 0xD9#8] = .ok (.movRmReg .word (.reg 0b001#3) 0b011#3, 2) ∧
    render (.movRmReg .word (.reg 0b001#3) 0b011#3) = "mov cx, bx".toList := by decide

/-- `1000101w mmrrrbbb`: w = 1, mod = 01, reg = 011, rm = 011. -/
theorem test_decode_movRegRm :
    decode Params.spec [0x8B#8, 0x5B#8, 0x04#8] = .ok (.movRegRm .word 0b011#3 (.mem .bpDi (.d8 4#8)), 3) ∧
    render (.movRegRm .word 0b011#3 (.mem .bpDi (.d8 4#8))) = "mov bx, [bp+di+4]".toList := by decide

/-- `1100011w mm000bbb`: w = 1, mod = 10, rm = 101; the longest form. -/
theorem test_decode_movRmImm :
    decode Params.spec [0xC7#8, 0x85#8, 0x85#8, 0x03#8, 0x5B#8, 0x01#8] = .ok (.movRmImm .word (.mem .di (.d16 901#16)) 347#16, 6) ∧
    render (.movRmImm .word (.mem .di (.d16 901#16)) 347#16) = "mov word [di+901], 347".toList := by decide

/-- `1011wggg`: w = 0, register 101. -/
theorem test_decode_movRegImm :
    decode Params.spec [0xB5#8, 0xF4#8] = .ok (.movRegImm .byte 0b101#3 244#16, 2) ∧
    render (.movRegImm .byte 0b101#3 244#16) = "mov ch, 244".toList := by decide

/-- `1010000w`: w = 0; the address is two bytes whatever w. -/
theorem test_decode_movAccMem :
    decode Params.spec [0xA0#8, 0x10#8, 0x00#8] = .ok (.movAccMem .byte 16#16, 3) ∧
    render (.movAccMem .byte 16#16) = "mov al, [16]".toList := by decide

/-- `1010001w`: w = 1. -/
theorem test_decode_movMemAcc :
    decode Params.spec [0xA3#8, 0x0F#8, 0x00#8] = .ok (.movMemAcc .word 15#16, 3) ∧
    render (.movMemAcc .word 15#16) = "mov [15], ax".toList := by decide

/-- `10001110 mm0ssbbb`: mod = 01, sr = 10, rm = 000. -/
theorem test_decode_movSegRm :
    decode Params.spec [0x8E#8, 0x50#8, 0x10#8] = .ok (.movSegRm .ss (.mem .bxSi (.d8 16#8)), 3) ∧
    render (.movSegRm .ss (.mem .bxSi (.d8 16#8))) = "mov ss, [bx+si+16]".toList := by decide

/-- `10001100 mm0ssbbb`: mod = 10, sr = 00, rm = 111. -/
theorem test_decode_movRmSeg :
    decode Params.spec [0x8C#8, 0x87#8, 0x02#8, 0x01#8] = .ok (.movRmSeg (.mem .bx (.d16 258#16)) .es, 4) ∧
    render (.movRmSeg (.mem .bx (.d16 258#16)) .es) = "mov [bx+258], es".toList := by decide

/-- `0000000w mmrrrbbb`: w = 0, mod = 01, reg = 111, rm = 010. -/
theorem test_decode_addRmReg :
    decode Params.spec [0x00#8, 0x7A#8, 0x04#8] = .ok (.addRmReg .byte (.mem .bpSi (.d8 4#8)) 0b111#3, 3) ∧
    render (.addRmReg .byte (.mem .bpSi (.d8 4#8)) 0b111#3) = "add [bp+si+4], bh".toList := by decide

/-- `0000001w mmrrrbbb`: w = 1, mod = 00, reg = 011, rm = 000. -/
theorem test_decode_addRegRm :
    decode Params.spec [0x03#8, 0x18#8] = .ok (.addRegRm .word 0b011#3 (.mem .bxSi .none), 2) ∧
    render (.addRegRm .word 0b011#3 (.mem .bxSi .none)) = "add bx, [bx+si]".toList := by decide

/-- `100000sw mm000bbb`: s = 1, w = 1, mod = 10, rm = 010. -/
theorem test_decode_addRmImm :
    decode Params.spec [0x83#8, 0x82#8, 0xE8#8, 0x03#8, 0x1D#8] = .ok (.addRmImm true .word (.mem .bpSi (.d16 1000#16)) 29#16, 5) ∧
    render (.addRmImm true .word (.mem .bpSi (.d16 1000#16)) 29#16) = "add word [bp+si+1000], 29".toList := by decide

/-- `000001xw`: w = 1. -/
theorem test_decode_addAccImm :
    decode Params.spec [0x05#8, 0xE8#8, 0x03#8] = .ok (.addAccImm false .word 1000#16, 3) ∧
    render (.addAccImm false .word 1000#16) = "add ax, 1000".toList := by decide

/-- `0010100w mmrrrbbb`: w = 0, mod = 00, reg = 000, rm = 111 (vector of 2.5). -/
theorem test_decode_subRmReg :
    decode Params.spec [0x28#8, 0x07#8] = .ok (.subRmReg .byte (.mem .bx .none) 0b000#3, 2) ∧
    render (.subRmReg .byte (.mem .bx .none) 0b000#3) = "sub [bx], al".toList := by decide

/-- `0010101w mmrrrbbb`: w = 1, mod = 00, reg = 011, rm = 000. -/
theorem test_decode_subRegRm :
    decode Params.spec [0x2B#8, 0x18#8] = .ok (.subRegRm .word 0b011#3 (.mem .bxSi .none), 2) ∧
    render (.subRegRm .word 0b011#3 (.mem .bxSi .none)) = "sub bx, [bx+si]".toList := by decide

/-- `100000sw mm101bbb`: s = 1, w = 1, mod = 00, rm = 001. -/
theorem test_decode_subRmImm :
    decode Params.spec [0x83#8, 0x29#8, 0x1D#8] = .ok (.subRmImm true .word (.mem .bxDi .none) 29#16, 3) ∧
    render (.subRmImm true .word (.mem .bxDi .none) 29#16) = "sub word [bx+di], 29".toList := by decide

/-- `001011xw`: x = 1, w = 0; bit 1 is not examined (R84). -/
theorem test_decode_subAccImm :
    decode Params.spec [0x2E#8, 0x01#8] = .ok (.subAccImm true .byte 1#16, 2) ∧
    render (.subAccImm true .byte 1#16) = "sub al, 1".toList := by decide

/-- `0011100w mmrrrbbb`: w = 1, mod = 11, reg = 001, rm = 011. -/
theorem test_decode_cmpRmReg :
    decode Params.spec [0x39#8, 0xCB#8] = .ok (.cmpRmReg .word (.reg 0b011#3) 0b001#3, 2) ∧
    render (.cmpRmReg .word (.reg 0b011#3) 0b001#3) = "cmp bx, cx".toList := by decide

/-- `0011101w mmrrrbbb`: w = 1, mod = 00, reg = 011, rm = 000. -/
theorem test_decode_cmpRegRm :
    decode Params.spec [0x3B#8, 0x18#8] = .ok (.cmpRegRm .word 0b011#3 (.mem .bxSi .none), 2) ∧
    render (.cmpRegRm .word 0b011#3 (.mem .bxSi .none)) = "cmp bx, [bx+si]".toList := by decide

/-- `100000sw mm111bbb`: s = 0, w = 1, mod = 00, rm = 110: a direct address. -/
theorem test_decode_cmpRmImm :
    decode Params.spec [0x81#8, 0x3E#8, 0x02#8, 0x00#8, 0x00#8, 0x01#8] = .ok (.cmpRmImm false .word (.direct 2#16) 256#16, 6) ∧
    render (.cmpRmImm false .word (.direct 2#16) 256#16) = "cmp word [2], 256".toList := by decide

/-- `001111xw`: w = 0. -/
theorem test_decode_cmpAccImm :
    decode Params.spec [0x3C#8, 0xE2#8] = .ok (.cmpAccImm false .byte 226#16, 2) ∧
    render (.cmpAccImm false .byte 226#16) = "cmp al, 226".toList := by decide

/-- Byte 1 = 0x70, byte 2 the displacement. -/
theorem test_decode_jo :
    decode Params.spec [0x70#8, 0x10#8] = .ok (.jo 0x10#8, 2) ∧
    render (.jo 0x10#8) = "jo $+18".toList := by decide

/-- Byte 1 = 0x71, byte 2 the displacement. -/
theorem test_decode_jno :
    decode Params.spec [0x71#8, 0x10#8] = .ok (.jno 0x10#8, 2) ∧
    render (.jno 0x10#8) = "jno $+18".toList := by decide

/-- Byte 1 = 0x72, byte 2 the displacement. -/
theorem test_decode_jb :
    decode Params.spec [0x72#8, 0x10#8] = .ok (.jb 0x10#8, 2) ∧
    render (.jb 0x10#8) = "jb $+18".toList := by decide

/-- Byte 1 = 0x73, byte 2 the displacement. -/
theorem test_decode_jnb :
    decode Params.spec [0x73#8, 0x10#8] = .ok (.jnb 0x10#8, 2) ∧
    render (.jnb 0x10#8) = "jnb $+18".toList := by decide

/-- Byte 1 = 0x74, byte 2 the displacement. -/
theorem test_decode_je :
    decode Params.spec [0x74#8, 0xFE#8] = .ok (.je 0xFE#8, 2) ∧
    render (.je 0xFE#8) = "je $+0".toList := by decide

/-- Byte 1 = 0x75, byte 2 the displacement. -/
theorem test_decode_jne :
    decode Params.spec [0x75#8, 0xFC#8] = .ok (.jne 0xFC#8, 2) ∧
    render (.jne 0xFC#8) = "jne $-2".toList := by decide

/-- Byte 1 = 0x76, byte 2 the displacement. -/
theorem test_decode_jbe :
    decode Params.spec [0x76#8, 0x10#8] = .ok (.jbe 0x10#8, 2) ∧
    render (.jbe 0x10#8) = "jbe $+18".toList := by decide

/-- Byte 1 = 0x77, byte 2 the displacement. -/
theorem test_decode_ja :
    decode Params.spec [0x77#8, 0x10#8] = .ok (.ja 0x10#8, 2) ∧
    render (.ja 0x10#8) = "ja $+18".toList := by decide

/-- Byte 1 = 0x78, byte 2 the displacement. -/
theorem test_decode_js :
    decode Params.spec [0x78#8, 0x10#8] = .ok (.js 0x10#8, 2) ∧
    render (.js 0x10#8) = "js $+18".toList := by decide

/-- Byte 1 = 0x79, byte 2 the displacement. -/
theorem test_decode_jns :
    decode Params.spec [0x79#8, 0x10#8] = .ok (.jns 0x10#8, 2) ∧
    render (.jns 0x10#8) = "jns $+18".toList := by decide

/-- Byte 1 = 0x7A, byte 2 the displacement. -/
theorem test_decode_jp :
    decode Params.spec [0x7A#8, 0x10#8] = .ok (.jp 0x10#8, 2) ∧
    render (.jp 0x10#8) = "jp $+18".toList := by decide

/-- Byte 1 = 0x7B, byte 2 the displacement. -/
theorem test_decode_jnp :
    decode Params.spec [0x7B#8, 0x10#8] = .ok (.jnp 0x10#8, 2) ∧
    render (.jnp 0x10#8) = "jnp $+18".toList := by decide

/-- Byte 1 = 0x7C, byte 2 the displacement. -/
theorem test_decode_jl :
    decode Params.spec [0x7C#8, 0x80#8] = .ok (.jl 0x80#8, 2) ∧
    render (.jl 0x80#8) = "jl $-126".toList := by decide

/-- Byte 1 = 0x7D, byte 2 the displacement. -/
theorem test_decode_jnl :
    decode Params.spec [0x7D#8, 0x10#8] = .ok (.jnl 0x10#8, 2) ∧
    render (.jnl 0x10#8) = "jnl $+18".toList := by decide

/-- Byte 1 = 0x7E, byte 2 the displacement. -/
theorem test_decode_jle :
    decode Params.spec [0x7E#8, 0x10#8] = .ok (.jle 0x10#8, 2) ∧
    render (.jle 0x10#8) = "jle $+18".toList := by decide

/-- Byte 1 = 0x7F, byte 2 the displacement. -/
theorem test_decode_jg :
    decode Params.spec [0x7F#8, 0x7F#8] = .ok (.jg 0x7F#8, 2) ∧
    render (.jg 0x7F#8) = "jg $+129".toList := by decide

/-- Byte 1 = 0xE0, byte 2 the displacement. -/
theorem test_decode_loopnz :
    decode Params.spec [0xE0#8, 0xFA#8] = .ok (.loopnz 0xFA#8, 2) ∧
    render (.loopnz 0xFA#8) = "loopnz $-4".toList := by decide

/-- Byte 1 = 0xE1, byte 2 the displacement. -/
theorem test_decode_loopz :
    decode Params.spec [0xE1#8, 0xFC#8] = .ok (.loopz 0xFC#8, 2) ∧
    render (.loopz 0xFC#8) = "loopz $-2".toList := by decide

/-- Byte 1 = 0xE2, byte 2 the displacement. -/
theorem test_decode_loop :
    decode Params.spec [0xE2#8, 0xF6#8] = .ok (.loop 0xF6#8, 2) ∧
    render (.loop 0xF6#8) = "loop $-8".toList := by decide

/-- Byte 1 = 0xE3, byte 2 the displacement. -/
theorem test_decode_jcxz :
    decode Params.spec [0xE3#8, 0xFE#8] = .ok (.jcxz 0xFE#8, 2) ∧
    render (.jcxz 0xFE#8) = "jcxz $+0".toList := by decide

/-- The other order of the operands, direct addresses and displacements as text (2.1). -/
theorem test_render_more :
    render (.movRegRm .word 0b010#3 (.mem .bp (.d8 0#8))) = "mov dx, [bp]".toList ∧
    render (.movRegRm .word 0b000#3 (.mem .bxDi (.d8 0xFE#8))) = "mov ax, [bx+di-2]".toList ∧
    render (.movMemAcc .byte 0xFFFF#16) = "mov [65535], al".toList ∧
    render (.movRmImm .byte (.mem .bp (.d8 0xD9#8)) 0#16) = "mov byte [bp-39], 0".toList := by decide

/-- Linear disassembly follows no jump (50_step_cycle.md R178); the bytes are two rows of 2.1. -/
theorem test_disassemble :
    (disassemble Params.spec [0x74#8, 0xFE#8, 0x89#8, 0xD9#8]).toOption =
      some ["bits 16".toList, [], "je $+0".toList, "mov cx, bx".toList] := by decide

/-- A decode-time condition after a rendered line is the whole answer (log 18), with its offset. -/
theorem test_disassemble_stops :
    disassemble Params.spec [0x89#8, 0xD9#8, 0x90#8, 0x90#8] = .error (.unimplementedOpcode 2#16 0x90#8 0x90#8) := by
  decide

/-- The decoding failures of 2.1: outside the map, the immediate group, MOV immediate, format SR. -/
theorem test_decode_failures :
    decode Params.spec [0xF4#8, 0x90#8] = .error (.unimplementedOpcode 0xF4#8 0x90#8) ∧
    decode Params.spec [0x83#8, 0xD0#8, 0x00#8] = .error (.unimplementedOpcode 0x83#8 0xD0#8) ∧
    decode Params.spec [0xC6#8, 0x48#8, 0x00#8, 0x01#8] = .error (.unimplementedOpcode 0xC6#8 0x48#8) ∧
    decode Params.spec [0xC4#8, 0x00#8] = .error (.unimplementedOpcode 0xC4#8 0x00#8) ∧
    decode Params.spec [0x8C#8, 0x20#8] = .error (.illegalSegmentEncoding 0x8C#8 0x20#8) := by decide

/-- The truncations of 2.1, with the bytes needed and remaining. -/
theorem test_decode_truncations :
    decode Params.spec [0x8B#8, 0x40#8] = .error (.truncated 3 2) ∧
    decode Params.spec [0x8B#8, 0x86#8, 0x00#8] = .error (.truncated 4 3) ∧
    decode Params.spec [0x83#8, 0xC3#8] = .error (.truncated 3 2) ∧
    decode Params.spec [0x81#8, 0xC3#8, 0xE8#8] = .error (.truncated 4 3) ∧
    decode Params.spec [0xA1#8, 0x64#8] = .error (.truncated 3 2) ∧
    decode Params.spec [0xB8#8, 0x05#8] = .error (.truncated 3 2) := by decide

/-- The other values of the parameters: IA_STRICT refuses 0x06 (R84), a jump can be left out of JCC_ADMITTED, but `jo`
cannot (R83). -/
theorem test_decode_parameters :
    decode { Params.spec with iaStrict := true } [0x06#8, 0x05#8] = .error (.unimplementedOpcode 0x06#8 0x05#8) ∧
    decode { Params.spec with jccLeftOut := [.o, .l] } [0x7C#8, 0x80#8] = .error (.unimplementedOpcode 0x7C#8 0x80#8) ∧
    decode { Params.spec with jccLeftOut := [.o, .l] } [0x70#8, 0x10#8] = .ok (.jo 0x10#8, 2) := by decide

/-- The opcode table's words: byte 1 is bits 15:8 (30_encoding.md, conventions of opcode_table.json). -/
theorem test_table_words :
    decodeTableWord 16 0x89D9 = some (.movRmReg .word (.reg 0b001#3) 0b011#3) ∧
    decodeTableWord 16 0xC600 = some (.movRmImm .byte (.mem .bxSi .none) 0#16) ∧
    decodeTableWord 16 0x7C80 = some (.jl 0x80#8) ∧ decodeTableWord 16 0xF490 = none := by decide

/-- A table word placed at IP runs as the first instruction after reset. -/
theorem test_withFetchWord :
    after (step (State.reset.withFetchWord 16 0xB80A)) (fun t => (t.regs.ax, t.ip)) = some (0x000A#16, 3#16) := by decide

/-! ## One step of each instruction -/

/-- `mov ah, al` (2.2): the other half is kept. -/
theorem test_movRmReg :
    after (step (withRegs (start [0x88#8, 0xC4#8]) (fun r => { r with ax := 0x12AB#16 })))
      (fun t => t.regs.ax) = some 0xABAB#16 := by decide

/-- `mov [bx+5], ah` (2.2). -/
theorem test_movRmReg_store :
    after (step (withRegs (start [0x88#8, 0x67#8, 0x05#8]) (fun r => { r with ax := 0xAB12#16, bx := 0x0100#16 })))
      (fun t => t.mem) = some [(0x0105, 0xAB#8)] := by decide

/-- `mov bx, [bx]` (2.2): the address is from the old BX, the word little-endian. -/
theorem test_movRegRm :
    after (step (withRegs (start [0x8B#8, 0x1F#8] [(0x1234, 0x78#8), (0x1235, 0x56#8)]) (fun r => { r with bx := 0x1234#16 })))
      (fun t => t.regs.bx) = some 0x5678#16 := by decide

/-- `mov ax, [bx+si+1]` (2.2): the address wraps mod 2^16. -/
theorem test_movRegRm_wraps :
    after (step (withRegs (start [0x8B#8, 0x40#8, 0x01#8] [(1, 0xCD#8), (2, 0xAB#8)]) (fun r => { r with bx := 0xFFFF#16, si := 0x0001#16 })))
      (fun t => t.regs.ax) = some 0xABCD#16 := by decide

/-- `mov word [bx], 128` (2.2): the high byte 00 overwrites FF. -/
theorem test_movRmImm :
    after (step (withRegs (start [0xC7#8, 0x07#8, 0x80#8, 0x00#8] [(0x11, 0xFF#8)]) (fun r => { r with bx := 0x0010#16 })))
      (fun t => t.mem) = some [(0x10, 0x80#8)] := by decide

/-- `mov byte [bx], 128` (2.2): one byte only. -/
theorem test_movRmImm_byte :
    after (step (withRegs (start [0xC6#8, 0x07#8, 0x80#8] [(0x11, 0xFF#8)]) (fun r => { r with bx := 0x0010#16 })))
      (fun t => t.mem) = some [(0x10, 0x80#8), (0x11, 0xFF#8)] := by decide

/-- `mov ah, 0` (2.2). -/
theorem test_movRegImm :
    after (step (withRegs (start [0xB4#8, 0x00#8]) (fun r => { r with ax := 0xFFFF#16 })))
      (fun t => t.regs.ax) = some 0x00FF#16 := by decide

/-- `mov ax, [65534]` (2.2): the last word in range. -/
theorem test_movAccMem :
    after (step (start [0xA1#8, 0xFE#8, 0xFF#8] [(0xFFFE, 0x11#8), (0xFFFF, 0x22#8)]))
      (fun t => t.regs.ax) = some 0x2211#16 := by decide

/-- `mov [65535], al` (2.2): a byte at the top of the segment. -/
theorem test_movMemAcc :
    after (step (withRegs (start [0xA2#8, 0xFF#8, 0xFF#8]) (fun r => { r with ax := 0x0077#16 })))
      (fun t => t.mem) = some [(0xFFFF, 0x77#8)] := by decide

/-- `mov cs, ax` (2.2): CS is plain storage, IP as usual. -/
theorem test_movSegRm :
    after (step (withRegs (start [0x8E#8, 0xC8#8]) (fun r => { r with ax := 0x4444#16 })))
      (fun t => (t.regs.cs, t.ip)) = some (0x4444#16, 2#16) := by decide

/-- `mov dx, ds` (2.2). -/
theorem test_movRmSeg :
    after (step (withRegs (start [0x8C#8, 0xDA#8]) (fun r => { r with ds := 0x1234#16 })))
      (fun t => t.regs.dx) = some 0x1234#16 := by decide

/-- `mov ss, ax` (2.2): no MOV changes FLAGS = 08D5. -/
theorem test_movKeepsFlags :
    after (step (withFlags (withRegs (start [0x8E#8, 0xD0#8]) (fun r => { r with ax := 0xBEEF#16 })) true true true true true true))
      (fun t => (t.regs.ss, t.flags.toWord)) = some (0xBEEF#16, 0x08D5#16) := by decide

/-- `add [bx], ax` (2.5): the carry goes into the high byte, PF is of the low byte 00. -/
theorem test_addRmReg :
    after (step (withRegs (start [0x01#8, 0x07#8] [(0x20, 0x01#8)]) (fun r => { r with bx := 0x0020#16, ax := 0x00FF#16 })))
      (fun t => (t.mem, t.flags.letters)) = some ([(0x21, 0x01#8)], "PA".toList) := by decide

/-- `add ah, ah` (2.5): ZF is of AH, not of AX. -/
theorem test_addRmReg_half :
    after (step (withRegs (start [0x00#8, 0xE4#8]) (fun r => { r with ax := 0x8001#16 })))
      (fun t => (t.regs.ax, t.flags.letters)) = some (0x0001#16, "CPZO".toList) := by decide

/-- `add bx, [bx]` (2.5): the address is from the old BX; the flags before are all replaced. -/
theorem test_addRegRm :
    after (step (withFlags (withRegs (start [0x03#8, 0x1F#8] [(0x20, 0x05#8)]) (fun r => { r with bx := 0x0020#16 })) true true true true true true))
      (fun t => (t.regs.bx, t.flags.letters)) = some (0x0025#16, []) := by decide

/-- `add bh, 1` (2.5). -/
theorem test_addRmImm :
    after (step (withRegs (start [0x80#8, 0xC7#8, 0x01#8]) (fun r => { r with bx := 0x0FFF#16 })))
      (fun t => (t.regs.bx, t.flags.letters)) = some (0x10FF#16, "A".toList) := by decide

/-- `add bx, 65535` (2.5): the immediate byte is sign-extended. -/
theorem test_addRmImm_signed :
    after (step (withRegs (start [0x83#8, 0xC3#8, 0xFF#8]) (fun r => { r with bx := 0x0001#16 })))
      (fun t => (t.regs.bx, t.flags.letters)) = some (0x0000#16, "CPAZ".toList) := by decide

/-- `add al, 1` (scenario C of 1.1). -/
theorem test_addAccImm :
    after (step (withRegs (start [0x04#8, 0x01#8]) (fun r => { r with ax := 0x00FF#16 })))
      (fun t => (t.regs.ax, t.flags.letters)) = some (0x0000#16, "CPAZ".toList) := by decide

/-- `add ax, 1` (row 7FFF + 0001 of 2.3). -/
theorem test_addAccImm_word :
    after (step (withRegs (start [0x05#8, 0x01#8, 0x00#8]) (fun r => { r with ax := 0x7FFF#16 })))
      (fun t => (t.regs.ax, t.flags.letters)) = some (0x8000#16, "PASO".toList) := by decide

/-- `sub [bx], al` (2.5). -/
theorem test_subRmReg :
    after (step (withRegs (start [0x28#8, 0x07#8]) (fun r => { r with bx := 0x0020#16, ax := 0x0001#16 })))
      (fun t => (t.mem, t.flags.letters)) = some ([(0x20, 0xFF#8)], "CPAS".toList) := by decide

/-- `sub ax, ax` (2.5). -/
theorem test_subRmReg_self :
    after (step (withFlags (withRegs (start [0x29#8, 0xC0#8]) (fun r => { r with ax := 0x1234#16 })) true false false false true true))
      (fun t => (t.regs.ax, t.flags.letters)) = some (0x0000#16, "PZ".toList) := by decide

/-- `sub bx, [bx]` (row 00FE - FFFF of 2.4). -/
theorem test_subRegRm :
    after (step (withRegs (start [0x2B#8, 0x1F#8] [(0xFE, 0xFF#8), (0xFF, 0xFF#8)]) (fun r => { r with bx := 0x00FE#16 })))
      (fun t => (t.regs.bx, t.flags.letters)) = some (0x00FF#16, "CPA".toList) := by decide

/-- `sub bx, 32768` (2.5). -/
theorem test_subRmImm :
    after (step (start [0x81#8, 0xEB#8, 0x00#8, 0x80#8]))
      (fun t => (t.regs.bx, t.flags.letters)) = some (0x8000#16, "CPSO".toList) := by decide

/-- `sub al, 1` (row 80 - 01 of 2.4); AH is kept. -/
theorem test_subAccImm :
    after (step (withRegs (start [0x2C#8, 0x01#8]) (fun r => { r with ax := 0x1280#16 })))
      (fun t => (t.regs.ax, t.flags.letters)) = some (0x127F#16, "AO".toList) := by decide

/-- `cmp [bx], al` (2.5): nothing is written. -/
theorem test_cmpRmReg :
    after (step (withRegs (start [0x38#8, 0x07#8]) (fun r => { r with bx := 0x0020#16, ax := 0x0001#16 })))
      (fun t => (t.mem, t.flags.letters)) = some ([], "CPAS".toList) := by decide

/-- `cmp bx, [bx]` (row 8000 - 0001 of 2.4). -/
theorem test_cmpRegRm :
    after (step (withRegs (start [0x3B#8, 0x1F#8] [(0x8000, 0x01#8)]) (fun r => { r with bx := 0x8000#16 })))
      (fun t => (t.regs.bx, t.flags.letters)) = some (0x8000#16, "PAO".toList) := by decide

/-- `cmp ch, 1` (2.5). -/
theorem test_cmpRmImm :
    after (step (withRegs (start [0x80#8, 0xFD#8, 0x01#8]) (fun r => { r with cx := 0x8000#16 })))
      (fun t => (t.regs.cx, t.flags.letters)) = some (0x8000#16, "AO".toList) := by decide

/-- `cmp cx, 65535` (2.5). -/
theorem test_cmpRmImm_signed :
    after (step (withRegs (start [0x83#8, 0xF9#8, 0xFF#8]) (fun r => { r with cx := 0xFFFF#16 })))
      (fun t => (t.regs.cx, t.flags.letters)) = some (0xFFFF#16, "PZ".toList) := by decide

/-- `cmp al, 128` (2.5). -/
theorem test_cmpAccImm :
    after (step (withRegs (start [0x3C#8, 0x80#8]) (fun r => { r with ax := 0x1200#16 })))
      (fun t => (t.regs.ax, t.flags.letters)) = some (0x1200#16, "CSO".toList) := by decide

/-- `jo $+18` with flags O is taken (2.6, 42_jcc.md R147). -/
theorem test_jo_taken :
    after (step (withFlags (start [0x70#8, 0x10#8]) false false false false false true))
      (fun t => (t.ip, t.flags.letters)) = some (0x0012#16, "O".toList) := by decide

/-- `jo $+18` with flags - is not taken (2.6, R147). -/
theorem test_jo_falls :
    after (step (withFlags (start [0x70#8, 0x10#8]) false false false false false false))
      (fun t => t.ip) = some 0x0002#16 := by decide

/-- `jno $+18` with flags - is taken (2.6, 42_jcc.md R147). -/
theorem test_jno_taken :
    after (step (withFlags (start [0x71#8, 0x10#8]) false false false false false false))
      (fun t => (t.ip, t.flags.letters)) = some (0x0012#16, []) := by decide

/-- `jno $+18` with flags O is not taken (2.6, R147). -/
theorem test_jno_falls :
    after (step (withFlags (start [0x71#8, 0x10#8]) false false false false false true))
      (fun t => t.ip) = some 0x0002#16 := by decide

/-- `jb $+18` with flags C is taken (2.6, 42_jcc.md R147). -/
theorem test_jb_taken :
    after (step (withFlags (start [0x72#8, 0x10#8]) true false false false false false))
      (fun t => (t.ip, t.flags.letters)) = some (0x0012#16, "C".toList) := by decide

/-- `jb $+18` with flags - is not taken (2.6, R147). -/
theorem test_jb_falls :
    after (step (withFlags (start [0x72#8, 0x10#8]) false false false false false false))
      (fun t => t.ip) = some 0x0002#16 := by decide

/-- `jnb $+18` with flags - is taken (2.6, 42_jcc.md R147). -/
theorem test_jnb_taken :
    after (step (withFlags (start [0x73#8, 0x10#8]) false false false false false false))
      (fun t => (t.ip, t.flags.letters)) = some (0x0012#16, []) := by decide

/-- `jnb $+18` with flags C is not taken (2.6, R147). -/
theorem test_jnb_falls :
    after (step (withFlags (start [0x73#8, 0x10#8]) true false false false false false))
      (fun t => t.ip) = some 0x0002#16 := by decide

/-- `je $+18` with flags Z is taken (2.6, 42_jcc.md R147). -/
theorem test_je_taken :
    after (step (withFlags (start [0x74#8, 0x10#8]) false false false true false false))
      (fun t => (t.ip, t.flags.letters)) = some (0x0012#16, "Z".toList) := by decide

/-- `je $+18` with flags A is not taken (2.6, R147). -/
theorem test_je_falls :
    after (step (withFlags (start [0x74#8, 0x10#8]) false false true false false false))
      (fun t => t.ip) = some 0x0002#16 := by decide

/-- `jne $+18` with flags - is taken (2.6, 42_jcc.md R147). -/
theorem test_jne_taken :
    after (step (withFlags (start [0x75#8, 0x10#8]) false false false false false false))
      (fun t => (t.ip, t.flags.letters)) = some (0x0012#16, []) := by decide

/-- `jne $+18` with flags Z is not taken (2.6, R147). -/
theorem test_jne_falls :
    after (step (withFlags (start [0x75#8, 0x10#8]) false false false true false false))
      (fun t => t.ip) = some 0x0002#16 := by decide

/-- `jbe $+18` with flags C is taken (2.6, 42_jcc.md R147). -/
theorem test_jbe_taken :
    after (step (withFlags (start [0x76#8, 0x10#8]) true false false false false false))
      (fun t => (t.ip, t.flags.letters)) = some (0x0012#16, "C".toList) := by decide

/-- `jbe $+18` with flags P A S O is not taken (2.6, R147). -/
theorem test_jbe_falls :
    after (step (withFlags (start [0x76#8, 0x10#8]) false true true false true true))
      (fun t => t.ip) = some 0x0002#16 := by decide

/-- `ja $+18` with flags - is taken (2.6, 42_jcc.md R147). -/
theorem test_ja_taken :
    after (step (withFlags (start [0x77#8, 0x10#8]) false false false false false false))
      (fun t => (t.ip, t.flags.letters)) = some (0x0012#16, []) := by decide

/-- `ja $+18` with flags C is not taken (2.6, R147). -/
theorem test_ja_falls :
    after (step (withFlags (start [0x77#8, 0x10#8]) true false false false false false))
      (fun t => t.ip) = some 0x0002#16 := by decide

/-- `js $+18` with flags S is taken (2.6, 42_jcc.md R147). -/
theorem test_js_taken :
    after (step (withFlags (start [0x78#8, 0x10#8]) false false false false true false))
      (fun t => (t.ip, t.flags.letters)) = some (0x0012#16, "S".toList) := by decide

/-- `js $+18` with flags - is not taken (2.6, R147). -/
theorem test_js_falls :
    after (step (withFlags (start [0x78#8, 0x10#8]) false false false false false false))
      (fun t => t.ip) = some 0x0002#16 := by decide

/-- `jns $+18` with flags - is taken (2.6, 42_jcc.md R147). -/
theorem test_jns_taken :
    after (step (withFlags (start [0x79#8, 0x10#8]) false false false false false false))
      (fun t => (t.ip, t.flags.letters)) = some (0x0012#16, []) := by decide

/-- `jns $+18` with flags S is not taken (2.6, R147). -/
theorem test_jns_falls :
    after (step (withFlags (start [0x79#8, 0x10#8]) false false false false true false))
      (fun t => t.ip) = some 0x0002#16 := by decide

/-- `jp $+18` with flags P is taken (2.6, 42_jcc.md R147). -/
theorem test_jp_taken :
    after (step (withFlags (start [0x7A#8, 0x10#8]) false true false false false false))
      (fun t => (t.ip, t.flags.letters)) = some (0x0012#16, "P".toList) := by decide

/-- `jp $+18` with flags - is not taken (2.6, R147). -/
theorem test_jp_falls :
    after (step (withFlags (start [0x7A#8, 0x10#8]) false false false false false false))
      (fun t => t.ip) = some 0x0002#16 := by decide

/-- `jnp $+18` with flags - is taken (2.6, 42_jcc.md R147). -/
theorem test_jnp_taken :
    after (step (withFlags (start [0x7B#8, 0x10#8]) false false false false false false))
      (fun t => (t.ip, t.flags.letters)) = some (0x0012#16, []) := by decide

/-- `jnp $+18` with flags P is not taken (2.6, R147). -/
theorem test_jnp_falls :
    after (step (withFlags (start [0x7B#8, 0x10#8]) false true false false false false))
      (fun t => t.ip) = some 0x0002#16 := by decide

/-- `jl $+18` with flags S is taken (2.6, 42_jcc.md R147). -/
theorem test_jl_taken :
    after (step (withFlags (start [0x7C#8, 0x10#8]) false false false false true false))
      (fun t => (t.ip, t.flags.letters)) = some (0x0012#16, "S".toList) := by decide

/-- `jl $+18` with flags S O is not taken (2.6, R147). -/
theorem test_jl_falls :
    after (step (withFlags (start [0x7C#8, 0x10#8]) false false false false true true))
      (fun t => t.ip) = some 0x0002#16 := by decide

/-- `jnl $+18` with flags S O is taken (2.6, 42_jcc.md R147). -/
theorem test_jnl_taken :
    after (step (withFlags (start [0x7D#8, 0x10#8]) false false false false true true))
      (fun t => (t.ip, t.flags.letters)) = some (0x0012#16, "SO".toList) := by decide

/-- `jnl $+18` with flags O is not taken (2.6, R147). -/
theorem test_jnl_falls :
    after (step (withFlags (start [0x7D#8, 0x10#8]) false false false false false true))
      (fun t => t.ip) = some 0x0002#16 := by decide

/-- `jle $+18` with flags Z S O is taken (2.6, 42_jcc.md R147). -/
theorem test_jle_taken :
    after (step (withFlags (start [0x7E#8, 0x10#8]) false false false true true true))
      (fun t => (t.ip, t.flags.letters)) = some (0x0012#16, "ZSO".toList) := by decide

/-- `jle $+18` with flags S O is not taken (2.6, R147). -/
theorem test_jle_falls :
    after (step (withFlags (start [0x7E#8, 0x10#8]) false false false false true true))
      (fun t => t.ip) = some 0x0002#16 := by decide

/-- `jg $+18` with flags S O is taken (2.6, 42_jcc.md R147). -/
theorem test_jg_taken :
    after (step (withFlags (start [0x7F#8, 0x10#8]) false false false false true true))
      (fun t => (t.ip, t.flags.letters)) = some (0x0012#16, "SO".toList) := by decide

/-- `jg $+18` with flags Z is not taken (2.6, R147). -/
theorem test_jg_falls :
    after (step (withFlags (start [0x7F#8, 0x10#8]) false false false true false false))
      (fun t => t.ip) = some 0x0002#16 := by decide

/-- `loopnz` with CX = 2 and ZF clear (2.7). -/
theorem test_loopnz_taken :
    after (step (withFlags (withRegs (start [0xE0#8, 0x10#8]) (fun r => { r with cx := 0x0002#16 })) false false false false false false))
      (fun t => (t.regs.cx, t.ip)) = some (0x0001#16, 0x0012#16) := by decide

/-- `loopnz` with CX = 2 and ZF set (2.7). -/
theorem test_loopnz_zf :
    after (step (withFlags (withRegs (start [0xE0#8, 0x10#8]) (fun r => { r with cx := 0x0002#16 })) false false false true false false))
      (fun t => (t.regs.cx, t.ip)) = some (0x0001#16, 0x0002#16) := by decide

/-- `loopz` with CX = 2 and ZF set (2.7). -/
theorem test_loopz_taken :
    after (step (withFlags (withRegs (start [0xE1#8, 0x10#8]) (fun r => { r with cx := 0x0002#16 })) false false false true false false))
      (fun t => (t.regs.cx, t.ip)) = some (0x0001#16, 0x0012#16) := by decide

/-- `loopz` with CX = 2 and ZF clear (2.7). -/
theorem test_loopz_zf :
    after (step (withFlags (withRegs (start [0xE1#8, 0x10#8]) (fun r => { r with cx := 0x0002#16 })) false false false false false false))
      (fun t => (t.regs.cx, t.ip)) = some (0x0001#16, 0x0002#16) := by decide

/-- `loop` with CX = 0 (2.7). -/
theorem test_loop_wraps :
    after (step (start [0xE2#8, 0x10#8]))
      (fun t => (t.regs.cx, t.ip)) = some (0xFFFF#16, 0x0012#16) := by decide

/-- `loop` with CX = 1 (2.7): no flag changes. -/
theorem test_loop_ends :
    after (step (withFlags (withRegs (start [0xE2#8, 0x10#8]) (fun r => { r with cx := 0x0001#16 })) false false false true false false))
      (fun t => (t.regs.cx, t.ip, t.flags.letters)) = some (0x0000#16, 0x0002#16, "Z".toList) := by decide

/-- `jcxz $-126` with CX = 0 (2.7). -/
theorem test_jcxz_back :
    after (step (start [0xE3#8, 0x80#8]))
      (fun t => t.ip) = some 0xFF82#16 := by decide

/-- `jcxz` with CX = 0x0100 (2.7): all 16 bits count. -/
theorem test_jcxz_high :
    after (step (withRegs (start [0xE3#8, 0x10#8]) (fun r => { r with cx := 0x0100#16 })))
      (fun t => (t.regs.cx, t.ip)) = some (0x0100#16, 0x0002#16) := by decide

/-! ## Fatal conditions and the end -/

/-- `mov [bx], ax` with BX = FFFF (2.2): MemoryRangeFault at offset 0. -/
theorem test_top_word_store :
    faultOf (step (withRegs (start [0x89#8, 0x07#8]) (fun r => { r with bx := 0xFFFF#16, ax := 0x0001#16 }))) =
      some (.memoryRangeFault 0#16 0xFFFF#16 .word) := by decide

/-- `add [bx], ax` with BX = FFFF at p = 3 (2.5, 2.8): the recorded offset is the instruction's. -/
theorem test_top_word_offset :
    faultOf (step { withRegs (start [0xBB#8, 0xFF#8, 0xFF#8, 0x01#8, 0x07#8]) (fun r => { r with bx := 0xFFFF#16 }) with
      ip := 3#16 }) = some (.memoryRangeFault 3#16 0xFFFF#16 .word) := by decide

/-- One byte left at p = 3 (2.8). -/
theorem test_step_truncated :
    faultOf (step { start [0xB8#8, 0x01#8, 0x00#8, 0xF4#8] with ip := 3#16 }) =
      some (.truncatedInstruction 3#16 2 1) := by decide

/-- N = 0: no step, the final state is the reset state (2.8). -/
theorem test_empty_run : run 5 State.reset = .final State.reset := by decide

/-- `75 10`: taken past the end, a normal end after one step with IP = 0012 (2.8). -/
theorem test_run_past_the_end :
    run 1 (start [0x75#8, 0x10#8]) = .final { start [0x75#8, 0x10#8] with ip := 0x0012#16 } := by decide

/-- `B8 01 00 F4`: the run aborts at p = 3 and has no final state (2.8). -/
theorem test_run_aborts :
    run 9 (start [0xB8#8, 0x01#8, 0x00#8, 0xF4#8]) = .abort (.truncatedInstruction 3#16 2 1) := by decide

/-- `71 FE` jumps to itself for ever (2.8): the fuel runs out. -/
theorem test_run_for_ever : run 2 (start [0x71#8, 0xFE#8]) = .outOfFuel (start [0x71#8, 0xFE#8]) := by decide

/-- The trace of `add bx, 3` with BX = 5 (scenario A of 1.1): BX and IP change, the flags do not. -/
theorem test_trace :
    traceOf { withRegs (start [0x90#8, 0x90#8, 0x83#8, 0xC3#8, 0x03#8]) (fun r => { r with bx := 5#16 }) with ip := 2#16 } =
      some ("add bx, 3".toList, { slots := [(.bx, 5#16, 8#16)], ip := some (2#16, 5#16), flags := none }) := by decide

/-- The summary of a state (50_step_cycle.md R176 (d)): CX = 1, IP = 2, ZF set. -/
theorem test_summary :
    summary { withFlags (withRegs State.reset (fun r => { r with cx := 1#16 })) false false false true false false with
      ip := 2#16 } = { slots := [(.cx, 1#16)], ip := some 2#16, flags := "Z".toList } := by decide

/-- The host's interface is this machine. -/
theorem test_core : Sys2Proof.core.step = step ∧ Sys2Proof.core.reset = State.reset := ⟨rfl, rfl⟩

/-! ## Witnesses: for each statement with hypotheses, operands that meet them all together -/

/-- DecodeOfEncode, and CutInstructionIsTruncated with k = 5 of 6: an instruction of the greatest length, also under
IA_STRICT and with jumps left out. -/
theorem witness_DecodeOfEncode :
    let c : Params := { jccLeftOut := [.l], iaStrict := true, wordAtFFFF := .linear }
    let i : Instr := .movRmImm .word (.mem .di (.d16 901#16)) 347#16
    i.wf = true ∧ c.allows i = true ∧ 5 < i.length ∧ (Instr.subAccImm true .byte 1#16).wf = true ∧
    Params.spec.allows (.subAccImm true .byte 1#16) = true ∧ c.allows (.subAccImm true .byte 1#16) = false ∧
    c.allows (.jo 1#8) = true := by decide

/-- EncodeOfDecode and AdvanceIsTwoToSix: advances 2 and 6, with bytes left over. -/
theorem witness_EncodeOfDecode :
    decode Params.spec [0x7F#8, 0x7F#8, 0xF4#8] = .ok (.jg 0x7F#8, 2) ∧
    decode Params.spec [0x81#8, 0x3E#8, 0x02#8, 0x00#8, 0x00#8, 0x01#8, 0x00#8] =
      .ok (.cmpRmImm false .word (.direct 2#16) 256#16, 6) := by decide

/-- UnimplementedOpcodes: both sides of its equivalence, on `90 90` and on `B8 01`. -/
theorem witness_UnimplementedOpcodes :
    (start [0x90#8, 0x90#8]).launchOk = true ∧
    (start [0x90#8, 0x90#8]).codeFrom 0#16 = 0x90#8 :: 0x90#8 :: [] ∧
    acceptedPair Params.spec 0x90#8 0x90#8 = false ∧
    faultOf (step (start [0x90#8, 0x90#8])) = some (.unimplementedOpcode 0#16 0x90#8 0x90#8) ∧
    acceptedPair Params.spec 0xB8#8 0x01#8 = true := by decide

/-- IllegalSegmentBit: both sides of its equivalence, on `8E FF` and on `8E D8`. -/
theorem witness_IllegalSegmentBit :
    (start [0x8E#8, 0xFF#8]).launchOk = true ∧
    (start [0x8E#8, 0xFF#8]).codeFrom 0#16 = 0x8E#8 :: 0xFF#8 :: [] ∧ (0xFF#8).getLsbD 5 = true ∧
    faultOf (step (start [0x8E#8, 0xFF#8])) = some (.illegalSegmentEncoding 0#16 0x8E#8 0xFF#8) ∧
    (start [0x8E#8, 0xD8#8]).codeFrom 0#16 = 0x8E#8 :: 0xD8#8 :: [] ∧ (0xD8#8).getLsbD 5 = false := by decide

/-- OneByteTailIsTruncated: the last byte of a buffer, IP = 3. -/
theorem witness_OneByteTailIsTruncated :
    let s : State := { start [0xB8#8, 0x01#8, 0x00#8, 0xF4#8] with ip := 3#16 }
    s.launchOk = true ∧ s.codeFrom s.ip = [0xF4#8] := by decide

/-- StepRunsDecodedInstruction. -/
theorem witness_StepRunsDecodedInstruction :
    let s : State := { start [0x90#8, 0x89#8, 0xD9#8] with ip := 1#16 }
    s.launchOk = true ∧ s.halted = false ∧
    decode s.launch.params (s.codeFrom s.ip) = .ok (.movRmReg .word (.reg 0b001#3) 0b011#3, 2) := by decide

/-- StepRaisesDecodeConditions. -/
theorem witness_StepRaisesDecodeConditions :
    let s : State := { start [0x90#8, 0x8B#8, 0x40#8] with ip := 1#16 }
    s.launchOk = true ∧ s.halted = false ∧ decode s.launch.params (s.codeFrom s.ip) = .error (.truncated 3 2) := by decide

/-- A buffer of `n` bytes. -/
def long (n : Nat) : State := start (List.replicate n 0x90#8)

/-- StepRefusesOnlyAtTheEnd, clause 1 at its boundary: 65537 bytes. -/
theorem witness_codeTooLong : 65536 < (long 65537).launch.code.length := by
  rw [long, start, State.launched, List.length_replicate]
  omega

/-- Clause 2 at its boundary: N = IP = 2, and clause 3 with IP = N - 1. -/
theorem witness_runEnded :
    let s : State := { start [0x90#8, 0x90#8] with ip := 2#16 }
    s.launch.code.length ≤ 65536 ∧ s.launch.code.length ≤ s.ip.toNat ∧ refusalOf (step s) = some .runEnded ∧
    ({ s with ip := 1#16 } : State).ip.toNat < s.launch.code.length := by decide

/-- Clause 3 at its boundary: with N = 65536 the end test fails even at IP = 0xFFFF. -/
theorem witness_longestBuffer :
    (long 65536).launch.code.length ≤ 65536 ∧ (0xFFFF#16).toNat < (long 65536).launch.code.length := by
  rw [long, start, State.launched, List.length_replicate]
  decide

/-- LaunchMeetsInvariant at its boundary: 65536 bytes and a canonical MEM_INIT with the last byte of memory. -/
theorem witness_LaunchMeetsInvariant :
    Memory.wf [(0, 1#8), (0xFFFFF, 0x7F#8)] = true ∧ Memory.wf [(0x100000, 1#8)] = false ∧
    Memory.wf [(3, 0#8)] = false ∧ Memory.wf [(3, 1#8), (3, 2#8)] = false ∧
    (List.replicate 65536 0x90#8).length ≤ 65536 := by
  rw [List.length_replicate]
  decide

/-- A state whose next step stores a word at 0xFFFE, with a byte of MEM_INIT above the reachable 64 KiB. -/
def storing : State :=
  withRegs (start [0x89#8, 0x07#8] [(0x10000, 0x55#8)]) (fun r => { r with bx := 0xFFFE#16, ax := 0x1234#16 })

/-- StepKeepsInvariant and StoresNeverReachFetch. -/
theorem witness_StepKeepsInvariant : storing.inv = true ∧ ∃ t, step storing = .next t := ⟨by decide, _, rfl⟩

/-- HighMemoryKeepsItsContents: the image is the memory itself, which is 0x55 at 0x10000. -/
theorem witness_HighMemory :
    (storing.policy ≠ .linear ∧ ∀ a, 0x10000 ≤ a → storing.mem.read a = storing.mem.read a) ∧
    storing.mem.read 0x10000 = 0x55#8 ∧ (∃ t, step storing = .next t) ∧
    after (step storing) (fun t => t.mem) = some [(0xFFFE, 0x34#8), (0xFFFF, 0x12#8), (0x10000, 0x55#8)] :=
  ⟨⟨by decide, fun _ _ => rfl⟩, by decide, ⟨_, rfl⟩, by decide⟩

/-- The three readings of a word store at 0xFFFF (92_eei_decisions.md D12). -/
def topStore (p : WordAtFFFF) : State :=
  { withRegs (start [0x89#8, 0x07#8]) (fun r => { r with bx := 0xFFFF#16, ax := 0x1234#16 }) with
    launch := { code := [0x89#8, 0x07#8], params := { Params.spec with wordAtFFFF := p } } }

/-- TopWordUnderOtherPolicies, both clauses, and MemoryReads and MemoryWrites at 0xFFFF under `fault`. -/
theorem witness_TopWord :
    ((topStore .linear).policy = .linear ∧ (topStore .linear).mem.wf = true) ∧
    ((topStore .wrap16).policy = .wrap16 ∧ (topStore .wrap16).mem.wf = true) ∧
    ((topStore .fault).policy = .fault ∧ (topStore .fault).mem.wf = true) ∧
    after (step (topStore .linear)) (fun t => t.mem) = some [(0xFFFF, 0x34#8), (0x10000, 0x12#8)] ∧
    after (step (topStore .wrap16)) (fun t => t.mem) = some [(0, 0x12#8), (0xFFFF, 0x34#8)] ∧
    faultOf (step (topStore .fault)) = some (.memoryRangeFault 0#16 0xFFFF#16 .word) := by decide

/-- MemoryReads and MemoryWrites at the last word in range, 0xFFFE. -/
theorem witness_MemoryReads :
    0xFFFE#16 ≠ 0xFFFF#16 ∧ storing.mem.wf = true ∧
    Memory.load [(0xFFFE, 0x11#8), (0xFFFF, 0x22#8)] .fault 0xFFFE#16 .word = 0x2211#16 := by decide

/-- TopWordAccessStops: `[bx]` with BX = 0xFFFF, for an instruction of the list, and the direct form. -/
theorem witness_TopWordAccessStops :
    let s := topStore .fault
    s.policy = .fault ∧ rmPlace .word (.mem .bx .none) = .mem { kind := .based .bx, disp := 0#16 } ∧
    MemOperand.ea { kind := .based .bx, disp := 0#16 } s.regs = 0xFFFF#16 ∧
    faultOf (exec (.cmpRmReg .word (.mem .bx .none) 0b000#3) s) = some (.memoryRangeFault 0#16 0xFFFF#16 .word) ∧
    faultOf (exec (.movSegRm .es (.mem .bx .none)) s) = some (.memoryRangeFault 0#16 0xFFFF#16 .word) ∧
    faultOf (exec (.movMemAcc .word 0xFFFF#16) s) = some (.memoryRangeFault 0#16 0xFFFF#16 .word) :=
  ⟨by decide, rfl, by decide, by decide, by decide, by decide⟩

/-- RunOutcomeIsStable: a final state and an abort. -/
theorem witness_RunOutcomeIsStable :
    (∃ t, run 1 (start [0x75#8, 0x10#8]) = .final t) ∧ ∃ f, run 1 (start [0x90#8, 0x90#8]) = .abort f :=
  ⟨⟨_, test_run_past_the_end⟩, ⟨.unimplementedOpcode 0#16 0x90#8 0x90#8, by decide⟩⟩

/-- EveryInstructionKeepsTheRest, IpAdvancesByLength (its first clause), MovChangesOnlyItsDestination and
MovBetweenRegisterAndPlace: a store that completes, and its addresses. -/
theorem witness_store :
    let i : Instr := .movRmReg .word (.mem .bx .none) 0b000#3
    (rmPlace .word (.mem .bx .none)).ready storing = true ∧ (∃ t, exec i storing = .next t) ∧
    i.stores storing = [0xFFFE, 0xFFFF] ∧ i.slots = [] ∧ i.rel? = none ∧ i.isAlu = false ∧ i.isSegMove = false :=
  ⟨by decide, ⟨_, rfl⟩, by decide, rfl, rfl, rfl, rfl⟩

/-- MovBetweenRegisterAndPlace, MovImmediate, MovSegment and the ALU's forms: which operands are ready. A byte at 0xFFFF
and a register are; a word at 0xFFFF is not. -/
theorem witness_ready :
    let s := topStore .fault
    (rmPlace .byte (.mem .bx .none)).ready s = true ∧ (rmPlace .word (.reg 0b111#3)).ready s = true ∧
    (rmPlace .word (.direct 0xFFFE#16)).ready s = true ∧ (rmPlace .word (.mem .bx .none)).ready s = false ∧
    s.mem.wf = true := by decide

/-- MovAccumulatorMemory: the last byte and the last word. -/
theorem witness_MovAccumulatorMemory :
    rangeFaults State.reset.policy 0xFFFF#16 .byte = false ∧ rangeFaults State.reset.policy 0xFFFE#16 .word = false ∧
    rangeFaults State.reset.policy 0xFFFF#16 .word = true := by decide

/-- MovChangesOnlyItsDestination: each of the eight forms completes. -/
theorem witness_MovChangesOnlyItsDestination :
    (∃ t, exec (.movRegRm .byte 0b100#3 (.reg 0b000#3)) storing = .next t) ∧
    (∃ t, exec (.movRmImm .byte (.mem .bx .none) 7#16) storing = .next t) ∧
    (∃ t, exec (.movRegImm .word 0b000#3 7#16) storing = .next t) ∧
    (∃ t, exec (.movAccMem .word 0xFFFE#16) storing = .next t) ∧
    (∃ t, exec (.movMemAcc .byte 0xFFFF#16) storing = .next t) ∧
    (∃ t, exec (.movSegRm .cs (.reg 0b000#3)) storing = .next t) ∧
    (∃ t, exec (.movRmSeg (.mem .bx .none) .ds) storing = .next t) :=
  ⟨⟨_, rfl⟩, ⟨_, rfl⟩, ⟨_, rfl⟩, ⟨_, rfl⟩, ⟨_, rfl⟩, ⟨_, rfl⟩, ⟨_, rfl⟩⟩

/-- AluRegisterIntoPlace, AluPlaceIntoRegister, AluImmediateIntoPlace and AluImmediateIntoAccumulator: members of their
lists, with `op ≠ cmp` and `op = cmp`. The operands are those of `witness_ready`. -/
theorem witness_Alu :
    (AluOp.sub, Instr.subRmReg) ∈ [(AluOp.add, Instr.addRmReg), (AluOp.sub, Instr.subRmReg), (AluOp.cmp, Instr.cmpRmReg)] ∧
    (AluOp.cmp, Instr.cmpRegRm) ∈ [(AluOp.add, Instr.addRegRm), (AluOp.sub, Instr.subRegRm), (AluOp.cmp, Instr.cmpRegRm)] ∧
    (AluOp.add, Instr.addRmImm) ∈ [(AluOp.add, Instr.addRmImm), (AluOp.sub, Instr.subRmImm), (AluOp.cmp, Instr.cmpRmImm)] ∧
    (AluOp.cmp, Instr.cmpAccImm) ∈
      [(AluOp.add, Instr.addAccImm), (AluOp.sub, Instr.subAccImm), (AluOp.cmp, Instr.cmpAccImm)] ∧
    AluOp.sub ≠ .cmp ∧ AluOp.cmp = .cmp :=
  ⟨by simp, by simp, by simp, by simp, by decide, rfl⟩

/-- AddSubChangeOnlyTheirDestination: a member of each list completes. -/
theorem witness_AddSub :
    (∃ t, exec (.addRmReg .word (.mem .bx .none) 0b000#3) storing = .next t) ∧
    (∃ t, exec (.subRegRm .byte 0b100#3 (.reg 0b000#3)) storing = .next t) ∧
    (∃ t, exec (.subAccImm true .word 0x1235#16) storing = .next t) :=
  ⟨⟨_, rfl⟩, ⟨_, rfl⟩, ⟨_, rfl⟩⟩

/-- CmpWritesNothing: a pair of its list, on a memory operand, and the CMP completes. -/
theorem witness_CmpWritesNothing :
    let rm : RM := .mem .bx .none
    (Instr.cmpRmReg .word rm 0b000#3, Instr.subRmReg .word rm 0b000#3) ∈
      [(Instr.cmpRmReg .word rm 0b000#3, Instr.subRmReg .word rm 0b000#3),
        (.cmpRegRm .word 0b000#3 rm, .subRegRm .word 0b000#3 rm),
        (.cmpRmImm true .word rm 0#16, .subRmImm true .word rm 0#16), (.cmpAccImm true .word 0#16, .subAccImm true .word 0#16)] ∧
    ∃ t, exec (.cmpRmReg .word rm 0b000#3) storing = .next t :=
  ⟨by simp, _, rfl⟩

/-- CmpWritesNothing's table: a row of each width, the same operands at both. -/
theorem witness_CornerCases :
    (AluOp.add, 0x00#8, 0x00#8, 0x00#8, ['P', 'Z']) ∈
      [(AluOp.add, 0x80#8, 0x80#8, 0x00#8, ['C', 'P', 'Z', 'O']), (.add, 0x00#8, 0x00#8, 0x00#8, ['P', 'Z'])] ∧
    (AluOp.add, 0x0000#16, 0x0000#16, 0x0000#16, ['P', 'Z']) ∈
      [(AluOp.add, 0x00FF#16, 0x0001#16, 0x0100#16, ['P', 'A']), (.add, 0x0000#16, 0x0000#16, 0x0000#16, ['P', 'Z'])] := by
  decide

/-- OnlyAluWritesFlags, both sides (an ALU instruction completes too), and IpAdvancesByLength's second clause. -/
theorem witness_OnlyAluWritesFlags :
    (Instr.cmpAccImm false .byte 1#16).isAlu = true ∧ (Instr.loop 0xFE#8).isAlu = false ∧
    (Instr.loop 0xFE#8).rel? = some 0xFE#8 ∧ (∃ t, exec (.loop 0xFE#8) State.reset = .next t) ∧
    (∃ t, exec (.cmpAccImm false .byte 1#16) State.reset = .next t) ∧
    ((Instr.cmpAccImm false .byte 1#16).flagsFrom? State.reset).map Flags.letters = some ['C', 'P', 'A', 'S'] :=
  ⟨rfl, rfl, rfl, ⟨_, rfl⟩, ⟨_, rfl⟩, by decide⟩

/-- SegmentRegistersAreInert: an address is formed from BX alone although DS is not zero. -/
theorem witness_SegmentRegistersAreInert :
    (Instr.movRmReg .word (.mem .bx .none) 0b000#3).isSegMove = false ∧
    after (exec (.movRmReg .word (.mem .bx .none) 0b000#3) (storing.withSegs 1#16 2#16 3#16 0xFFFF#16))
      (fun t => (t.mem.read 0xFFFE, t.regs.ds)) = some (0x34#8, 0xFFFF#16) := by decide

/-- FlagRules, AuxiliaryCarryRules and ConditionsAfterComparison: the operations other than ADD. -/
theorem witness_notAdd : AluOp.sub ≠ .add ∧ AluOp.cmp ≠ .add := by decide

/-- ConditionTable: an odd condition and the even one before it. -/
theorem witness_ConditionTable : (0b1101#4).getLsbD 0 = true ∧ condOf 0b1101#4 = .nl ∧ condOf (0b1101#4 - 1#4) = .l := by
  decide

/-- ConditionalJumps: members of its list on the reset state's flags, `jnl` taken and `jl` not. -/
theorem witness_ConditionalJumps :
    let f := State.reset.flags
    let rel := 0x10#8
    ∀ x ∈ [(Instr.jnl rel, true), (.jl rel, false)],
      x ∈ [(Instr.jo rel, f.of), (.jno rel, !f.of), (.jb rel, f.cf), (.jnb rel, !f.cf), (.je rel, f.zf), (.jne rel, !f.zf),
        (.jbe rel, f.cf || f.zf), (.ja rel, !f.cf && !f.zf), (.js rel, f.sf), (.jns rel, !f.sf), (.jp rel, f.pf),
        (.jnp rel, !f.pf), (.jl rel, f.sf ^^ f.of), (.jnl rel, !(f.sf ^^ f.of)), (.jle rel, f.zf || (f.sf ^^ f.of)),
        (.jg rel, !f.zf && !(f.sf ^^ f.of))] := by decide

/-- BranchTargets and BranchesChangeOnlyIpAndCx: a jump and a loop that complete, at the ends of the address space. -/
theorem witness_Branches :
    after (exec (.jcxz 0x80#8) State.reset) (fun t => t.ip.toNat) = some 0xFF82 ∧
    after (exec (.loop 0x7F#8) { State.reset with ip := 0xFFFF#16 }) (fun t => (t.ip.toNat, t.regs.cx)) =
      some (0x80, 0xFFFF#16) := by decide

/-- LoopInstructions: members of its list on the reset state's flags, LOOPZ with ZF clear and LOOP. -/
theorem witness_LoopInstructions :
    ∀ x ∈ [(Instr.loopz 0x10#8, false), (.loop 0x10#8, true)],
      x ∈ [(Instr.loopnz 0x10#8, !State.reset.flags.zf), (.loopz 0x10#8, State.reset.flags.zf), (.loop 0x10#8, true)] := by
  decide

/-- LoopAtTheEnds: CX = 0 and CX = 1. -/
theorem witness_LoopAtTheEnds :
    State.reset.regs.cx = 0#16 ∧ (withRegs State.reset (fun r => { r with cx := 1#16 })).regs.cx = 1#16 := by decide

end Sys2Proof.Tests
end

section
/-! PROOFS. The register file: half-register aliasing (10_state.md R13 to R16). -/

namespace Sys2Proof.Machine

/-- A high-half write keeps what the low half read before (R15). -/
theorem RegFile.get_slot_writeReg_high (rf : RegFile) (x : ByteSlot) (b : Byte) :
    (rf.writeReg (.high x) b).get x.slot = b ++ rf.readReg (.low x) :=
  RegFile.get_set_same rf x.slot _

/-- Settles O22: the high-half write joins its byte to the low half, which still reads what was written there; a whole
write is what the slot then holds, and each half reads its byte of that. -/
theorem halfRegisterAliasing : Obligations.HalfRegisterAliasing := by
  intro rf x a b v
  have slot_eq : (rf.set x.slot v).get x.slot = v := RegFile.get_set_same rf x.slot v
  refine ⟨?_, ?_, ?_⟩
  · rw [RegFile.get_slot_writeReg_high, RegFile.readReg_writeReg_same]
  · exact congrArg (BitVec.extractLsb' 0 8) slot_eq
  · exact congrArg (BitVec.extractLsb' 8 8) slot_eq

end Sys2Proof.Machine
end

section
/-! PROOFS. Memory operands: effective addresses (20_memory.md R45 to R48). -/

namespace Sys2Proof.Machine

/-- The effective address is the base sum plus the displacement, mod 2^16, for every kind (R47). -/
theorem MemOperand.ea_toNat (m : MemOperand) (rf : RegFile) :
    (m.ea rf).toNat = ((baseSum rf m.kind).toNat + m.disp.toNat) % 65536 :=
  BitVec.toNat_add _ _

/-- When the base sum is of two registers (R46), its own wrap at 2^16 is absorbed by the one of the effective address. -/
theorem MemOperand.ea_toNat_of_baseSum_add {m : MemOperand} {rf : RegFile} {x y : Word}
    (h : baseSum rf m.kind = x + y) : (m.ea rf).toNat = (x.toNat + y.toNat + m.disp.toNat) % 65536 := by
  rw [MemOperand.ea_toNat, h, BitVec.toNat_add, Nat.mod_add_mod]

/-- A direct operand's effective address is its displacement constant (R48). -/
@[simp] theorem MemOperand.ea_direct (d : Word) (rf : RegFile) : MemOperand.ea ⟨.direct, d⟩ rf = d :=
  BitVec.zero_add d

/-- Settles O24: each row of R46's table is the base sum's defining equation, for the four kinds of two registers, the
four of one register, and the direct kind. -/
theorem effectiveAddresses : Obligations.EffectiveAddresses := by
  intro rf d
  refine ⟨?bxSi, ?bxDi, ?bpSi, ?bpDi, ?si, ?di, ?bp, ?bx, ?direct⟩
  case bxSi | bxDi | bpSi | bpDi => exact MemOperand.ea_toNat_of_baseSum_add rfl
  case si | di | bp | bx => exact MemOperand.ea_toNat _ rf
  case direct => exact MemOperand.ea_direct d rf

end Sys2Proof.Machine
end

section
/-! PROOFS. The flag generator: CF, OF, SF, ZF and PF by their rules' formulas (41_alu.md R126, R128 to R131). -/

namespace Sys2Proof.Machine

variable {n : Nat}

/-- SUB and CMP compute the same difference (R125). -/
theorem aluResult_of_ne_add {op : AluOp} (h : op ≠ .add) (a b : BitVec n) : aluResult op a b = a - b := by
  cases op with
  | add => exact absurd rfl h
  | sub | cmp => rfl

theorem aluFlags_cf_add_iff (a b : BitVec n) :
    (aluFlags .add a b).cf = true ↔ a.toNat + b.toNat > 2 ^ n - 1 :=
  decide_eq_true_iff

theorem aluFlags_cf_iff_of_ne_add {op : AluOp} (h : op ≠ .add) (a b : BitVec n) :
    (aluFlags op a b).cf = true ↔ a.toNat < b.toNat := by
  cases op with
  | add => exact absurd rfl h
  | sub | cmp => exact decide_eq_true_iff

/-- OF of an ADD on the signs of its inputs and of its result (R128). -/
theorem aluFlags_of_add (a b : BitVec n) :
    (aluFlags .add a b).of = (a.msb == b.msb && (aluResult .add a b).msb != a.msb) :=
  rfl

/-- OF of a SUB or CMP on the signs of its inputs and of its result (R128). -/
theorem aluFlags_of_of_ne_add {op : AluOp} (h : op ≠ .add) (a b : BitVec n) :
    (aluFlags op a b).of = (a.msb != b.msb && (aluResult op a b).msb != a.msb) := by
  cases op with
  | add => exact absurd rfl h
  | sub | cmp => rfl

/-- The signs of R128 tell for ADD what the library's predicate tells of the true signed sum. -/
theorem aluFlags_of_add_eq_saddOverflow (a b : BitVec n) : (aluFlags .add a b).of = a.saddOverflow b :=
  (BitVec.saddOverflow_eq a b).symm

/-- The signs of R128 tell for SUB and CMP what the library's predicate tells of the true signed difference. -/
theorem aluFlags_of_eq_ssubOverflow_of_ne_add {op : AluOp} (h : op ≠ .add) (a b : BitVec n) :
    (aluFlags op a b).of = a.ssubOverflow b := by
  rw [aluFlags_of_of_ne_add h, aluResult_of_ne_add h, BitVec.ssubOverflow_eq]
  cases a.msb <;> cases b.msb <;> simp

/-- The library's test that `x` lies outside the signed range from `-p` to `p - 1`, put as R128 puts it. -/
theorem signed_misfit_iff (x p : Int) : (decide (x ≥ p) || decide (x < -p)) = true ↔ x < -p ∨ p - 1 < x := by
  rw [Bool.or_eq_true, decide_eq_true_iff, decide_eq_true_iff]
  omega

theorem aluFlags_of_add_iff_toInt (a b : BitVec n) :
    (aluFlags .add a b).of = true ↔
      a.toInt + b.toInt < -(2 ^ (n - 1) : Int) ∨ 2 ^ (n - 1) - 1 < a.toInt + b.toInt := by
  rw [aluFlags_of_add_eq_saddOverflow]
  exact signed_misfit_iff _ _

theorem aluFlags_of_iff_toInt_of_ne_add {op : AluOp} (h : op ≠ .add) (a b : BitVec n) :
    (aluFlags op a b).of = true ↔
      a.toInt - b.toInt < -(2 ^ (n - 1) : Int) ∨ 2 ^ (n - 1) - 1 < a.toInt - b.toInt := by
  rw [aluFlags_of_eq_ssubOverflow_of_ne_add h]
  exact signed_misfit_iff _ _

/-- SF is bit n-1 of the result (R129). -/
theorem aluFlags_sf (op : AluOp) (a b : BitVec n) :
    (aluFlags op a b).sf = (aluResult op a b).getLsbD (n - 1) :=
  BitVec.msb_eq_getLsbD_last _

theorem aluFlags_zf_iff (op : AluOp) (a b : BitVec n) :
    (aluFlags op a b).zf = true ↔ (aluResult op a b).toNat = 0 :=
  beq_iff_eq.trans BitVec.toNat_eq

/-- The recursive popcount counts the set bits among the low `k` (00_scope.md R7). -/
theorem popcount_eq_countP (v : BitVec n) (k : Nat) :
    popcount v k = (List.range k).countP (fun i => v.getLsbD i) := by
  induction k with
  | zero => rfl
  | succ k ih =>
    rw [popcount, ih, List.range_succ, List.countP_append, List.countP_singleton, Bool.toNat, Bool.cond_eq_ite]

/-- PF is even parity of the low eight bits of the result, at any width (R131). -/
theorem aluFlags_pf_iff (op : AluOp) (a b : BitVec n) :
    (aluFlags op a b).pf = true ↔ (List.range 8).countP (fun k => (aluResult op a b).getLsbD k) % 2 = 0 := by
  rw [← popcount_eq_countP]
  exact beq_iff_eq

/-- Settles O41: OF's formula on signs is the library's signed overflow, so it also says that the true sum or difference
is out of range; PF's popcount is a count over the bit list; the other flags are their rules' formulas as they stand. -/
theorem flagRules : Obligations.FlagRules := by
  intro w a b
  refine ⟨aluFlags_cf_add_iff a b, ?ofAdd, aluFlags_of_add_iff_toInt a b, fun op h =>
    ⟨aluFlags_cf_iff_of_ne_add h a b, ?ofSub, aluFlags_of_iff_toInt_of_ne_add h a b⟩, fun op =>
    ⟨aluFlags_sf op a b, aluFlags_zf_iff op a b, aluFlags_pf_iff op a b⟩⟩
  case ofAdd =>
    rw [aluFlags_of_add]
    simp only [BitVec.msb_eq_getLsbD_last, Bool.and_eq_true, beq_iff_eq, bne_iff_ne]
  case ofSub =>
    rw [aluFlags_of_of_ne_add h]
    simp only [BitVec.msb_eq_getLsbD_last, Bool.and_eq_true, bne_iff_ne]

end Sys2Proof.Machine
end

section
/-! PROOFS. The decode-time conditions: IllegalSegmentEncoding comes from format SR alone (30_encoding.md R76, R78;
60_exceptions.md R183). -/

namespace Sys2Proof

/-! ## The classifier never raises it, and sends only two values of byte 1 to format SR -/

/-- What the classifier answers outside format SR: another class, or UnimplementedOpcode with the dispatch bytes. -/
def OutsideSR (b1 b2 : Byte) : Except DecodeError Class → Prop
  | .ok k => k ≠ .movSR
  | .error e => e = .unimplementedOpcode b1 b2

@[simp] theorem outsideSR_ok (b1 b2 : Byte) (k : Class) : OutsideSR b1 b2 (.ok k) ↔ k ≠ .movSR := Iff.rfl

@[simp] theorem outsideSR_error (b1 b2 : Byte) (e : DecodeError) :
    OutsideSR b1 b2 (.error e) ↔ e = .unimplementedOpcode b1 b2 := Iff.rfl

/-- A test of the classifier leads to one of two answers; one that both of them allow needs no test. -/
@[simp] theorem outsideSR_ite (b1 b2 : Byte) (p : Prop) [Decidable p] (x y : Except DecodeError Class) :
    OutsideSR b1 b2 (if p then x else y) ↔ if p then OutsideSR b1 b2 x else OutsideSR b1 b2 y := by
  rw [apply_ite (OutsideSR b1 b2)]

@[simp] theorem outsideSR_classifyGroup (b1 b2 : Byte) : OutsideSR b1 b2 (classifyGroup b1 b2) := by
  simp [classifyGroup]

@[simp] theorem outsideSR_classifyIA (c : Params) (op : AluOp) (b1 b2 : Byte) :
    OutsideSR b1 b2 (classifyIA c op b1 b2) := by
  simp [classifyIA]

@[simp] theorem outsideSR_classifyMovImm (b1 b2 : Byte) : OutsideSR b1 b2 (classifyMovImm b1 b2) := by
  simp [classifyMovImm]

@[simp] theorem outsideSR_classifyJcc (c : Params) (b1 b2 : Byte) : OutsideSR b1 b2 (classifyJcc c b1 b2) := by
  simp [classifyJcc]

/-- The two full values of byte 1 reach format SR: no earlier test of the classifier catches them (R78, R83). -/
theorem classify_eq_movSR {b1 : Byte} (h : b1 = 0x8E#8 ∨ b1 = 0x8C#8) (c : Params) (b2 : Byte) :
    classify c b1 b2 = .ok .movSR := by
  rcases h with rfl | rfl <;> rfl

/-- With its two tests for format SR out of play, every branch of the classifier answers something else. -/
theorem outsideSR_classify {b1 : Byte} (h : ¬(b1 = 0x8E#8 ∨ b1 = 0x8C#8)) (c : Params) (b2 : Byte) :
    OutsideSR b1 b2 (classify c b1 b2) := by
  obtain ⟨hE, hC⟩ := not_or.mp h
  simp [classify, hE, hC]

/-! ## The later bytes never raise it -/

/-- The answer is not IllegalSegmentEncoding, whatever two bytes that would record. -/
def NoIllegalSegment {α : Type} (x : Except DecodeError α) : Prop :=
  ∀ b1 b2, x ≠ .error (.illegalSegmentEncoding b1 b2)

section
variable {α β : Type}

@[simp] theorem noIllegalSegment_ok (a : α) : NoIllegalSegment (.ok a) := nofun

@[simp] theorem noIllegalSegment_unimplementedOpcode (b1 b2 : Byte) :
    NoIllegalSegment (.error (.unimplementedOpcode b1 b2) : Except DecodeError α) := nofun

@[simp] theorem noIllegalSegment_truncated (needed remaining : Nat) :
    NoIllegalSegment (.error (.truncated needed remaining) : Except DecodeError α) := nofun

@[simp] theorem noIllegalSegment_map (f : α → β) (x : Except DecodeError α) :
    NoIllegalSegment (x.map f) ↔ NoIllegalSegment x := by
  cases x <;> simp [NoIllegalSegment, Except.map]

end

@[simp] theorem noIllegalSegment_take8 (needed total : Nat) (bs : List Byte) :
    NoIllegalSegment (take8 needed total bs) := by
  cases bs <;> simp [take8]

@[simp] theorem noIllegalSegment_take16 (needed total : Nat) (bs : List Byte) :
    NoIllegalSegment (take16 needed total bs) := by
  match bs with
  | _ :: _ :: _ | [_] | [] => simp [take16]

@[simp] theorem noIllegalSegment_resolveRM (total : Nat) (md : BitVec 2) (rm : BitVec 3) (tail : List Byte) :
    NoIllegalSegment (resolveRM total md rm tail) := by
  unfold resolveRM
  split_ifs <;> simp

@[simp] theorem noIllegalSegment_readImm (total q : Nat) (s : Bool) (w : Width) (bs : List Byte) :
    NoIllegalSegment (readImm total q s w bs) := by
  cases s <;> cases w <;> simp [readImm]

@[simp] theorem noIllegalSegment_readImmFrom2 (total : Nat) (w : Width) (b2 : Byte) (tail : List Byte) :
    NoIllegalSegment (readImmFrom2 total w b2 tail) := by
  cases w <;> simp [readImmFrom2]

@[simp] theorem noIllegalSegment_decodeRM (total : Nat) (mk : Bool → Width → RM → BitVec 3 → Instr) (b1 b2 : Byte)
    (tail : List Byte) : NoIllegalSegment (decodeRM total mk b1 b2 tail) := by
  simp [decodeRM]

@[simp] theorem noIllegalSegment_decodeIRM (total : Nat) (mk : Width → RM → Word → Instr) (s : Bool) (b1 b2 : Byte)
    (tail : List Byte) : NoIllegalSegment (decodeIRM total mk s b1 b2 tail) := by
  have operand := noIllegalSegment_resolveRM total (modField b2) (rmField b2) tail
  unfold decodeIRM
  cases h : resolveRM total (modField b2) (rmField b2) tail with
  | error e =>
    rw [h] at operand
    simpa [NoIllegalSegment] using operand
  | ok p => simp

/-- No format but SR raises it, whatever bytes follow or are missing. -/
theorem noIllegalSegment_decodeBody {k : Class} (h : k ≠ .movSR) (total : Nat) (b1 b2 : Byte) (tail : List Byte) :
    NoIllegalSegment (decodeBody k total b1 b2 tail) := by
  cases k with
  | movSR => exact absurd rfl h
  | movRM | aluRM | movIRM | aluIRM => simp [decodeBody]
  | movMA => simp [decodeBody, decodeMA]
  | movIR => simp [decodeBody, decodeIR]
  | aluIA => simp [decodeBody, decodeIA]
  | jcc | loopnz | loopz | loop | jcxz => exact noIllegalSegment_ok _

/-! ## The decoder -/

/-- Format SR tests bit 5 of byte 2 before it reads a displacement, so the bytes after byte 2 do not matter (R76). -/
theorem decodeSR_eq_illegalSegmentEncoding_iff (total : Nat) (b1 b2 : Byte) (tail : List Byte) :
    decodeSR total b1 b2 tail = .error (.illegalSegmentEncoding b1 b2) ↔ b2.getLsbD 5 = true := by
  unfold decodeSR
  split
  · next bit5 => exact iff_of_true rfl bit5
  · next bit5 =>
    have legal := noIllegalSegment_resolveRM total (modField b2) (rmField b2) tail
    exact iff_of_false ((noIllegalSegment_map _ _).mpr legal b1 b2) bit5

/-- A first byte outside format SR never leads to it: neither half of the decoder raises it. -/
theorem noIllegalSegment_decode {b1 : Byte} (h : ¬(b1 = 0x8E#8 ∨ b1 = 0x8C#8)) (c : Params) (b2 : Byte)
    (tail : List Byte) : NoIllegalSegment (decode c (b1 :: b2 :: tail)) := by
  have answer := outsideSR_classify h c b2
  cases hk : classify c b1 b2 with
  | error e =>
    rw [hk, outsideSR_error] at answer
    simp only [decode, hk, answer, noIllegalSegment_unimplementedOpcode]
  | ok k =>
    rw [hk, outsideSR_ok] at answer
    simpa only [decode, hk] using noIllegalSegment_decodeBody answer _ b1 b2 tail

/-- The dispatch bytes alone decide whether a decode is IllegalSegmentEncoding (60_exceptions.md R183). -/
theorem decode_eq_illegalSegmentEncoding_iff (c : Params) (b1 b2 : Byte) (tail : List Byte) :
    decode c (b1 :: b2 :: tail) = .error (.illegalSegmentEncoding b1 b2) ↔
      (b1 = 0x8E#8 ∨ b1 = 0x8C#8) ∧ b2.getLsbD 5 = true := by
  by_cases h : b1 = 0x8E#8 ∨ b1 = 0x8C#8
  · rw [decode, classify_eq_movSR h, and_iff_right h]
    exact decodeSR_eq_illegalSegmentEncoding_iff ..
  · exact iff_of_false (noIllegalSegment_decode h c b2 tail b1 b2) fun ⟨h', _⟩ => h h'

end Sys2Proof

namespace Sys2Proof.Machine

/-! ## The step -/

theorem decodeFault_eq_illegalSegmentEncoding_iff (p : Word) (e : DecodeError) (b1 b2 : Byte) :
    decodeFault p e = .illegalSegmentEncoding p b1 b2 ↔ e = .illegalSegmentEncoding b1 b2 := by
  cases e <;> simp [decodeFault]

/-- A fetch raises the decoder's condition; the other condition of a fetch is DecoderInvariantViolation. -/
theorem fetch_eq_illegalSegmentEncoding_iff (s : State) (p : Word) (b1 b2 : Byte) :
    fetch s p = .error (.illegalSegmentEncoding p b1 b2) ↔
      decode s.launch.params (s.codeFrom p) = .error (.illegalSegmentEncoding b1 b2) := by
  rcases fetch_cases s p with ⟨e, hd, hf⟩ | ⟨i, len, hd, ⟨-, hf⟩ | ⟨-, hf⟩⟩
  · rw [hd, hf, Except.error.injEq, Except.error.injEq, decodeFault_eq_illegalSegmentEncoding_iff]
  · simp [hd, hf]
  · simp [hd, hf]

/-- A step raises the condition exactly when its fetch does: an executed instruction stops at most with
MemoryRangeFault. -/
theorem step_eq_illegalSegmentEncoding_iff {s : State} (launched : s.launchOk = true) (running : s.halted = false)
    (b1 b2 : Byte) :
    step s = .fault (.illegalSegmentEncoding s.ip b1 b2) ↔
      decode s.launch.params (s.codeFrom s.ip) = .error (.illegalSegmentEncoding b1 b2) := by
  rw [← fetch_eq_illegalSegmentEncoding_iff]
  rcases step_cases s with ⟨hl, -⟩ | ⟨-, hh, -⟩ | ⟨-, -, ⟨f, hf, hs⟩ | ⟨i, hf, hs⟩⟩
  · simp [launched] at hl
  · simp [running] at hh
  · rw [hf, hs, Host.Outcome.fault.injEq, Except.error.injEq]
  · rcases exec_spec i s with ⟨-, t, he, -⟩ | ⟨-, he⟩
    · simp [hf, hs, he]
    · simp [hf, hs, he, topWordFault]

/-- Settles O6: with a byte at IP the run has not ended, so the step raises what decoding raises, and decoding raises
IllegalSegmentEncoding from the dispatch bytes alone. -/
theorem illegalSegmentBit : Obligations.IllegalSegmentBit := by
  intro s b1 b2 tail launched code
  have running : s.halted = false := (halted_eq_false_iff s).mpr (by simp [code])
  rw [step_eq_illegalSegmentEncoding_iff launched running, code]
  exact decode_eq_illegalSegmentEncoding_iff ..

end Sys2Proof.Machine
end

section
/-! PROOFS. The lengths of the encodings over all instructions (30_encoding.md R95), and the dispatch bytes of each
class: the classifier answers a class exactly for the bytes it stands for (R78 to R83). -/

namespace Sys2Proof

/-! ## Lengths (R95) -/

section
open Laws.EncodeLength

/-- The rows' lemmas about the encoding's length, over all instructions. -/
theorem encodeLength_statement : ∀ i : Instr, Statement i
  | .movRmReg w rm r => movRmReg w rm r
  | .movRegRm w r rm => movRegRm w r rm
  | .movRmImm w rm imm => movRmImm w rm imm
  | .movRegImm w r imm => movRegImm w r imm
  | .movAccMem w addr => movAccMem w addr
  | .movMemAcc w addr => movMemAcc w addr
  | .movSegRm sr rm => movSegRm sr rm
  | .movRmSeg rm sr => movRmSeg rm sr
  | .addRmReg w rm r => addRmReg w rm r
  | .addRegRm w r rm => addRegRm w r rm
  | .addRmImm s w rm imm => addRmImm s w rm imm
  | .addAccImm x w imm => addAccImm x w imm
  | .subRmReg w rm r => subRmReg w rm r
  | .subRegRm w r rm => subRegRm w r rm
  | .subRmImm s w rm imm => subRmImm s w rm imm
  | .subAccImm x w imm => subAccImm x w imm
  | .cmpRmReg w rm r => cmpRmReg w rm r
  | .cmpRegRm w r rm => cmpRegRm w r rm
  | .cmpRmImm s w rm imm => cmpRmImm s w rm imm
  | .cmpAccImm x w imm => cmpAccImm x w imm
  | .jo rel => jo rel
  | .jno rel => jno rel
  | .jb rel => jb rel
  | .jnb rel => jnb rel
  | .je rel => je rel
  | .jne rel => jne rel
  | .jbe rel => jbe rel
  | .ja rel => ja rel
  | .js rel => js rel
  | .jns rel => jns rel
  | .jp rel => jp rel
  | .jnp rel => jnp rel
  | .jl rel => jl rel
  | .jnl rel => jnl rel
  | .jle rel => jle rel
  | .jg rel => jg rel
  | .loopnz rel => loopnz rel
  | .loopz rel => loopz rel
  | .loop rel => loop rel
  | .jcxz rel => jcxz rel

end

theorem encode_length {i : Instr} (h : i.wf = true) : (encode i).length = i.length :=
  (encodeLength_statement i h).1

theorem length_bounds {i : Instr} (h : i.wf = true) : 2 ≤ i.length ∧ i.length ≤ 6 :=
  (encodeLength_statement i h).2

/-! ## The dispatch bytes of each class (R79 to R83) -/

/-- Bits 7:2 of byte 1 of the operation's format RM rows (R79). -/
def AluOp.opcode : AluOp → BitVec 6
  | .add => 0b000000#6
  | .sub => 0b001010#6
  | .cmp => 0b001110#6

/-- Bits 7:2 of byte 1 of the operation's format IA row (R79). -/
def AluOp.opcodeIA : AluOp → BitVec 6
  | .add => 0b000001#6
  | .sub => 0b001011#6
  | .cmp => 0b001111#6

/-- Bits 5:3 of byte 2 of the operation's format IRM row (R80). -/
def AluOp.sel : AluOp → BitVec 3
  | .add => 0b000#3
  | .sub => 0b101#3
  | .cmp => 0b111#3

/-- Bits 3:0 of byte 1 of a conditional jump (42_jcc.md R147). -/
def Cond.bits : Cond → BitVec 4
  | .o => 0x0#4 | .no => 0x1#4 | .b => 0x2#4 | .nb => 0x3#4 | .e => 0x4#4 | .ne => 0x5#4 | .be => 0x6#4 | .a => 0x7#4
  | .s => 0x8#4 | .ns => 0x9#4 | .p => 0xA#4 | .np => 0xB#4 | .l => 0xC#4 | .nl => 0xD#4 | .le => 0xE#4 | .g => 0xF#4

@[simp] theorem condOf_bits (cc : Cond) : condOf cc.bits = cc := by cases cc <;> rfl

theorem bits_condOf (n : BitVec 4) : (condOf n).bits = n := by revert n; decide

@[simp] theorem top6_opcodeBW (op : BitVec 6) (b : Bool) (w : Width) : top6 (opcodeBW op b w) = op := by
  cases w <;> cases b <;> revert op <;> decide

/-- The dispatch bytes a class stands for, at the parameters that let it through. -/
def Class.Fits (c : Params) (b1 b2 : Byte) : Class → Prop
  | .movRM => top6 b1 = 0b100010#6
  | .aluRM op => top6 b1 = op.opcode
  | .movIRM => b1.extractLsb' 1 7 = 0b1100011#7 ∧ regField b2 = 0b000#3
  | .aluIRM op => top6 b1 = 0b100000#6 ∧ regField b2 = op.sel
  | .movMA => top6 b1 = 0b101000#6
  | .movIR => b1.extractLsb' 4 4 = 0b1011#4
  | .movSR => b1 = 0x8E#8 ∨ b1 = 0x8C#8
  | .aluIA op => top6 b1 = op.opcodeIA ∧ (c.iaStrict && dField b1) = false
  | .jcc cc => b1 = 0x7#4 ++ cc.bits ∧ c.admits cc = true
  | .loopnz => b1 = 0xE0#8
  | .loopz => b1 = 0xE1#8
  | .loop => b1 = 0xE2#8
  | .jcxz => b1 = 0xE3#8

/-- A byte is its two nibbles. -/
theorem join_nibbles (b : Byte) : (b.extractLsb' 4 4 ++ b.extractLsb' 0 4 : Byte) = b := by
  revert b; decide

/-- What the classifier may answer for two dispatch bytes: a class they stand for, or UnimplementedOpcode. -/
def Fitting (c : Params) (b1 b2 : Byte) : Except DecodeError Class → Prop
  | .ok k => k.Fits c b1 b2
  | .error e => e = .unimplementedOpcode b1 b2

/-- One test of the classifier. -/
theorem fitting_ite {c : Params} {b1 b2 : Byte} {p : Prop} [Decidable p] {x y : Except DecodeError Class}
    (hx : p → Fitting c b1 b2 x) (hy : ¬p → Fitting c b1 b2 y) : Fitting c b1 b2 (if p then x else y) := by
  split
  · next h => exact hx h
  · next h => exact hy h

theorem fitting_classifyGroup {c : Params} {b1 b2 : Byte} (h : top6 b1 = 0b100000#6) :
    Fitting c b1 b2 (classifyGroup b1 b2) :=
  fitting_ite (fun sel => ⟨h, sel⟩) fun _ => fitting_ite (fun sel => ⟨h, sel⟩) fun _ =>
    fitting_ite (fun sel => ⟨h, sel⟩) fun _ => rfl

theorem fitting_classifyIA {c : Params} {op : AluOp} {b1 b2 : Byte} (h : top6 b1 = op.opcodeIA) :
    Fitting c b1 b2 (classifyIA c op b1 b2) :=
  fitting_ite (fun _ => rfl) fun strict => ⟨h, Bool.eq_false_of_not_eq_true strict⟩

theorem fitting_classifyMovImm {c : Params} {b1 b2 : Byte} (h : b1.extractLsb' 1 7 = 0b1100011#7) :
    Fitting c b1 b2 (classifyMovImm b1 b2) :=
  fitting_ite (fun sel => ⟨h, sel⟩) fun _ => rfl

theorem fitting_classifyJcc {c : Params} {b1 b2 : Byte} (h : b1.extractLsb' 4 4 = 0x7#4) :
    Fitting c b1 b2 (classifyJcc c b1 b2) :=
  fitting_ite (fun admitted => ⟨by rw [bits_condOf, ← h, join_nibbles], admitted⟩) fun _ => rfl

/-- Each test of the classifier is the one its class states, in the rule's order (R78). -/
theorem fitting_classify (c : Params) (b1 b2 : Byte) : Fitting c b1 b2 (classify c b1 b2) :=
  fitting_ite (fun h => h) fun _ => fitting_ite (fun h => h) fun _ => fitting_ite (fun h => h) fun _ =>
  fitting_ite (fun h => h) fun _ =>
  fitting_ite (fun h => fitting_classifyIA h) fun _ => fitting_ite (fun h => fitting_classifyIA h) fun _ =>
  fitting_ite (fun h => fitting_classifyIA h) fun _ =>
  fitting_ite (fun h => h) fun _ =>
  fitting_ite fitting_classifyGroup fun _ =>
  fitting_ite fitting_classifyMovImm fun _ => fitting_ite (fun h => h) fun _ =>
  fitting_ite .inl fun _ => fitting_ite .inr fun _ =>
  fitting_ite fitting_classifyJcc fun _ =>
  fitting_ite (fun h => h) fun _ => fitting_ite (fun h => h) fun _ => fitting_ite (fun h => h) fun _ =>
  fitting_ite (fun h => h) fun _ => rfl

theorem fits_of_classify {c : Params} {b1 b2 : Byte} {k : Class} (h : classify c b1 b2 = .ok k) : k.Fits c b1 b2 := by
  have answer := fitting_classify c b1 b2
  rwa [h] at answer

theorem classify_error {c : Params} {b1 b2 : Byte} {e : DecodeError} (h : classify c b1 b2 = .error e) :
    e = .unimplementedOpcode b1 b2 := by
  have answer := fitting_classify c b1 b2
  rwa [h] at answer

/-- No earlier test of the classifier catches the bytes of format IR (R82). -/
theorem movIR_tests : ∀ b1 : Byte, b1.extractLsb' 4 4 = 0b1011#4 →
    top6 b1 ∉ [0b000000#6, 0b001010#6, 0b001110#6, 0b100010#6, 0b000001#6, 0b001011#6, 0b001111#6, 0b101000#6,
      0b100000#6] ∧ b1.extractLsb' 1 7 ≠ 0b1100011#7 := by
  decide

theorem top6_eq_extract (b1 : Byte) : top6 b1 = (b1.extractLsb' 1 7).extractLsb' 1 6 := by
  revert b1; decide

/-- The dispatch bytes a class stands for lead to it: no earlier test of the classifier catches them. -/
theorem classify_of_fits {c : Params} {b1 b2 : Byte} {k : Class} (h : k.Fits c b1 b2) : classify c b1 b2 = .ok k := by
  cases k with
  | movRM | movMA =>
    have opcode : top6 b1 = _ := h
    simp [classify, opcode]
  | aluRM op =>
    have opcode : top6 b1 = op.opcode := h
    cases op <;> simp [classify, opcode, AluOp.opcode]
  | aluIA op =>
    obtain ⟨opcode, strict⟩ := h
    cases op <;> simp [classify, classifyIA, opcode, strict, AluOp.opcodeIA]
  | aluIRM op =>
    obtain ⟨opcode, sel⟩ := h
    cases op <;> simp [classify, classifyGroup, opcode, sel, AluOp.sel]
  | movIRM =>
    obtain ⟨opcode, sel⟩ := h
    simp [classify, classifyMovImm, top6_eq_extract, opcode, sel]
  | movIR =>
    obtain ⟨tops, opcode⟩ := movIR_tests b1 h
    simp only [List.mem_cons, List.not_mem_nil, or_false, not_or] at tops
    have opcodeIR : b1.extractLsb' 4 4 = _ := h
    simp [classify, tops, opcode, opcodeIR]
  | movSR => exact classify_eq_movSR h c b2
  | jcc cc =>
    obtain ⟨rfl, admitted⟩ := h
    have test : classify c (0x7#4 ++ cc.bits : Byte) b2 = classifyJcc c (0x7#4 ++ cc.bits : Byte) b2 := by
      cases cc <;> rfl
    have low : (0x7#4 ++ cc.bits : Byte).extractLsb' 0 4 = cc.bits := by cases cc <;> rfl
    rw [test, classifyJcc, low, condOf_bits, if_pos admitted]
  | loopnz | loopz | loop | jcxz =>
    cases h
    rfl

theorem classify_eq_ok_iff {c : Params} {b1 b2 : Byte} {k : Class} : classify c b1 b2 = .ok k ↔ k.Fits c b1 b2 :=
  ⟨fits_of_classify, classify_of_fits⟩

end Sys2Proof
end

section
/-! PROOFS. The encoder and the decoder undo each other, family by family (30_encoding.md R67, R70 to R77, R110). -/

namespace Sys2Proof

/-! ## The rows of each family on the encoder's side -/

/-- The rows of MOV between a register and a register or memory operand; `d` is the direction bit (R71). -/
def movRMInstr (d : Bool) (w : Width) (rm : RM) (r : BitVec 3) : Instr :=
  if d then .movRegRm w r rm else .movRmReg w rm r

/-- The rows of the segment-register moves, by byte 1 (R76). -/
def movSRInstr (b1 : Byte) (sr : SegReg) (rm : RM) : Instr :=
  if b1 = 0x8E#8 then .movSegRm sr rm else .movRmSeg rm sr

/-- The rows of MOV between the accumulator and memory, by bit 1 of byte 1 (R73). -/
def movMAInstr (store : Bool) (w : Width) (addr : Word) : Instr :=
  if store then .movMemAcc w addr else .movAccMem w addr

/-- The parameters speak of conditional jumps and of format IA alone. -/
theorem allows_of_plain (c : Params) {i : Instr} (h : i.cond? = none) (h' : i.iaBit = false) : c.allows i = true := by
  simp [Params.allows, h, h']

/-- `mk` gives rows of format RM: their encoding has `op` in bits 7:2 of byte 1 (R71). -/
structure RowsRM (op : BitVec 6) (mk : Bool → Width → RM → BitVec 3 → Instr) : Prop where
  encode_eq : ∀ d w rm r, encode (mk d w rm r) = opcodeBW op d w :: modRmByte rm r :: rm.dispBytes
  wf_eq : ∀ d w rm r, (mk d w rm r).wf = rm.wf
  length_eq : ∀ d w rm r, (mk d w rm r).length = 2 + rm.dispLen
  allowed : ∀ c d w rm r, Params.allows c (mk d w rm r) = true

theorem rowsRM_mov : RowsRM 0b100010#6 movRMInstr where
  encode_eq d w rm r := by cases d <;> rfl
  wf_eq d w rm r := by cases d <;> rfl
  length_eq d w rm r := by cases d <;> rfl
  allowed c d w rm r := by cases d <;> exact allows_of_plain c rfl rfl

theorem rowsRM_alu (op : AluOp) : RowsRM op.opcode (aluRMInstr op) where
  encode_eq d w rm r := by cases op <;> cases d <;> rfl
  wf_eq d w rm r := by cases op <;> cases d <;> rfl
  length_eq d w rm r := by cases op <;> cases d <;> rfl
  allowed c d w rm r := by cases op <;> cases d <;> exact allows_of_plain c rfl rfl

/-- `mk` gives rows of format IRM with the S bit `s`: `op` in bits 7:1 of byte 1, `sel` in bits 5:3 of byte 2 (R72). -/
structure RowsIRM (op : BitVec 7) (sel : BitVec 3) (s : Bool) (mk : Width → RM → Word → Instr) : Prop where
  encode_eq : ∀ w rm imm,
    encode (mk w rm imm) = opcodeW op w :: modRmByte rm sel :: (rm.dispBytes ++ immBytesS s w imm)
  wf_eq : ∀ w rm imm, (mk w rm imm).wf = (rm.wf && immWfS s w imm)
  length_eq : ∀ w rm imm, (mk w rm imm).length = 2 + rm.dispLen + immLenS s w
  allowed : ∀ c w rm imm, Params.allows c (mk w rm imm) = true

theorem rowsIRM_mov : RowsIRM 0b1100011#7 0b000#3 false .movRmImm where
  encode_eq _ _ _ := rfl
  wf_eq _ _ _ := rfl
  length_eq _ _ _ := rfl
  allowed c _ _ _ := allows_of_plain c rfl rfl

theorem rowsIRM_alu (op : AluOp) (s : Bool) : RowsIRM (0b100000#6 ++ BitVec.ofBool s) op.sel s (aluIRMInstr op s) where
  encode_eq w rm imm := by cases op <;> rfl
  wf_eq w rm imm := by cases op <;> rfl
  length_eq w rm imm := by cases op <;> rfl
  allowed c w rm imm := by cases op <;> exact allows_of_plain c rfl rfl

theorem encode_aluIAInstr (op : AluOp) (x : Bool) (w : Width) (imm : Word) :
    encode (aluIAInstr op x w imm) = opcodeBW op.opcodeIA x w :: immBytes w imm := by
  cases op <;> rfl

theorem wf_aluIAInstr (op : AluOp) (x : Bool) (w : Width) (imm : Word) :
    (aluIAInstr op x w imm).wf = immWf w imm := by
  cases op <;> rfl

theorem length_aluIAInstr (op : AluOp) (x : Bool) (w : Width) (imm : Word) :
    (aluIAInstr op x w imm).length = 1 + w.immLen := by
  cases op <;> rfl

theorem allows_aluIAInstr_iff (c : Params) (op : AluOp) (x : Bool) (w : Width) (imm : Word) :
    c.allows (aluIAInstr op x w imm) = true ↔ (c.iaStrict && x) = false := by
  have x_eq : (aluIAInstr op x w imm).iaBit = x := by cases op <;> rfl
  have plain : (aluIAInstr op x w imm).cond? = none := by cases op <;> rfl
  rw [Params.allows, plain, x_eq, Bool.true_and, Bool.not_eq_true']

theorem encode_movMAInstr (store : Bool) (w : Width) (addr : Word) :
    encode (movMAInstr store w addr) = opcodeBW 0b101000#6 store w :: wordBytes addr := by
  cases store <;> rfl

theorem encode_movSRInstr {b1 : Byte} (h : b1 = 0x8E#8 ∨ b1 = 0x8C#8) (sr : SegReg) (rm : RM) :
    encode (movSRInstr b1 sr rm) = b1 :: modRmByte rm (0#1 ++ sr.bits) :: rm.dispBytes := by
  rcases h with rfl | rfl <;> rfl

theorem wf_movSRInstr (b1 : Byte) (sr : SegReg) (rm : RM) : (movSRInstr b1 sr rm).wf = rm.wf := by
  unfold movSRInstr
  split <;> rfl

theorem length_movSRInstr (b1 : Byte) (sr : SegReg) (rm : RM) : (movSRInstr b1 sr rm).length = 2 + rm.dispLen := by
  unfold movSRInstr
  split <;> rfl

theorem allows_movSRInstr (c : Params) (b1 : Byte) (sr : SegReg) (rm : RM) :
    c.allows (movSRInstr b1 sr rm) = true := by
  unfold movSRInstr
  split <;> exact allows_of_plain c rfl rfl

theorem encode_jccInstr (cc : Cond) (rel : Byte) : encode (jccInstr cc rel) = [0x7#4 ++ cc.bits, rel] := by
  cases cc <;> rfl

theorem wf_jccInstr (cc : Cond) (rel : Byte) : (jccInstr cc rel).wf = true := by cases cc <;> rfl

theorem length_jccInstr (cc : Cond) (rel : Byte) : (jccInstr cc rel).length = 2 := by cases cc <;> rfl

theorem allows_jccInstr (c : Params) (cc : Cond) (rel : Byte) : c.allows (jccInstr cc rel) = c.admits cc := by
  have plain : (jccInstr cc rel).iaBit = false := by cases cc <;> rfl
  simp [Params.allows, jccInstr_cond, plain]

/-! ## Fields of the dispatch bytes -/

@[simp] theorem wFieldIR_opcodeIR (w : Width) (r : BitVec 3) : wFieldIR (0b1011#4 ++ w.bit ++ r : Byte) = w := by
  cases w <;> revert r <;> decide

@[simp] theorem extract_reg_opcodeIR (w : Width) (r : BitVec 3) :
    (0b1011#4 ++ w.bit ++ r : Byte).extractLsb' 0 3 = r := by
  cases w <;> revert r <;> decide

theorem extract_nibble_opcodeIR (w : Width) (r : BitVec 3) :
    (0b1011#4 ++ w.bit ++ r : Byte).extractLsb' 4 4 = 0b1011#4 := by
  cases w <;> revert r <;> decide

/-- Bits 7:1 of byte 1 are its top six bits and bit 1. -/
theorem extract_eq_top6_dField (b1 : Byte) : b1.extractLsb' 1 7 = top6 b1 ++ BitVec.ofBool (dField b1) := by
  revert b1; decide

/-- Bit 5 of byte 2 is the top bit of its REG field (R76). -/
theorem bit5_eq_regField (b2 : Byte) : b2.getLsbD 5 = (regField b2).getLsbD 2 := by
  revert b2; decide

/-- The segment-register field is the low two bits of the REG field (R76). -/
theorem segField_eq_regField (b2 : Byte) : b2.extractLsb' 3 2 = (regField b2).extractLsb' 0 2 := by
  revert b2; decide

/-- Byte 2 of format SR with bit 5 clear. -/
theorem regField_of_bit5 : ∀ b2 : Byte, b2.getLsbD 5 = false → regField b2 = 0#1 ++ b2.extractLsb' 3 2 := by
  decide

theorem modRmByte_regField {rm : RM} {b2 : Byte} (hmod : rm.modBits = modField b2) (hrm : rm.rmBits = rmField b2) :
    modRmByte rm (regField b2) = b2 := by
  rw [modRmByte, hmod, hrm, join_fields]

/-! ## Decoding the encoding -/

/-- The decoder gives the instruction back from its encoding, whatever follows. -/
def RoundTrips (c : Params) (i : Instr) : Prop :=
  i.wf = true → c.allows i = true → ∀ rest, decode c (encode i ++ rest) = .ok (i, i.length)

theorem decode_of_fits {c : Params} {b1 b2 : Byte} {k : Class} (h : k.Fits c b1 b2) (tail : List Byte) :
    decode c (b1 :: b2 :: tail) = decodeBody k (tail.length + 2) b1 b2 tail := by
  simp only [decode, classify_of_fits h, List.length_cons]

/-- The immediate of formats IR and IA does not depend on how many bytes remain. -/
theorem readImmFrom2_encoded_all (w : Width) (v : Word) (rest : List Byte) (h : immWf w v = true) :
    ∃ b2 tail, immBytes w v ++ rest = b2 :: tail ∧ ∀ n, readImmFrom2 n w b2 tail = .ok (v, 1 + w.immLen) := by
  obtain ⟨b2, tail, bytes, -⟩ := readImmFrom2_encoded 0 w v rest h
  refine ⟨b2, tail, bytes, fun n => ?_⟩
  obtain ⟨b2', tail', bytes', read⟩ := readImmFrom2_encoded n w v rest h
  cases bytes.symm.trans bytes'
  exact read

theorem RowsRM.roundTrips {op : BitVec 6} {mk : Bool → Width → RM → BitVec 3 → Instr} (rows : RowsRM op mk)
    {c : Params} {k : Class} (fits : ∀ b1 b2, top6 b1 = op → k.Fits c b1 b2)
    (body : ∀ total b1 b2 tail, decodeBody k total b1 b2 tail = decodeRM total mk b1 b2 tail)
    (d : Bool) (w : Width) (rm : RM) (r : BitVec 3) : RoundTrips c (mk d w rm r) := by
  intro wf _ rest
  rw [rows.wf_eq] at wf
  rw [rows.encode_eq, List.cons_append, List.cons_append, decode_of_fits (fits _ _ (top6_opcodeBW op d w)), body,
    rows.length_eq]
  simp [decodeRM, wf, Except.map]

theorem RowsIRM.roundTrips {op : BitVec 7} {sel : BitVec 3} {s : Bool} {mk : Width → RM → Word → Instr}
    (rows : RowsIRM op sel s mk) {c : Params} {k : Class}
    (fits : ∀ w b2, regField b2 = sel → k.Fits c (opcodeW op w) b2)
    (body : ∀ total w b2 tail, decodeBody k total (opcodeW op w) b2 tail = decodeIRM total mk s (opcodeW op w) b2 tail)
    (w : Width) (rm : RM) (imm : Word) : RoundTrips c (mk w rm imm) := by
  intro wf _ rest
  rw [rows.wf_eq, Bool.and_eq_true] at wf
  obtain ⟨wfRm, wfImm⟩ := wf
  rw [rows.encode_eq, List.cons_append, List.cons_append, decode_of_fits (fits w _ (regField_modRmByte rm sel)), body,
    rows.length_eq]
  simp [decodeIRM, wfRm, wfImm, Except.map]

theorem roundTrips_movRM (c : Params) (d : Bool) (w : Width) (rm : RM) (r : BitVec 3) :
    RoundTrips c (movRMInstr d w rm r) :=
  rowsRM_mov.roundTrips (k := .movRM) (fun _ _ h => h) (fun _ _ _ _ => rfl) d w rm r

theorem roundTrips_aluRM (c : Params) (op : AluOp) (d : Bool) (w : Width) (rm : RM) (r : BitVec 3) :
    RoundTrips c (aluRMInstr op d w rm r) :=
  (rowsRM_alu op).roundTrips (k := .aluRM op) (fun _ _ h => h) (fun _ _ _ _ => rfl) d w rm r

theorem roundTrips_movIRM (c : Params) (w : Width) (rm : RM) (imm : Word) : RoundTrips c (.movRmImm w rm imm) :=
  rowsIRM_mov.roundTrips (k := .movIRM) (fun w _ sel => ⟨by cases w <;> rfl, sel⟩) (fun _ _ _ _ => rfl) w rm imm

theorem roundTrips_aluIRM (c : Params) (op : AluOp) (s : Bool) (w : Width) (rm : RM) (imm : Word) :
    RoundTrips c (aluIRMInstr op s w rm imm) := by
  have opcode : ∀ w, opcodeW (0b100000#6 ++ BitVec.ofBool s) w = opcodeBW 0b100000#6 s w := fun _ => rfl
  refine (rowsIRM_alu op s).roundTrips (k := .aluIRM op) (fun w _ sel => ⟨?_, sel⟩) (fun _ w _ _ => ?_) w rm imm
  · rw [opcode, top6_opcodeBW]
  · rw [opcode, decodeBody, dField_opcodeBW]

theorem roundTrips_movMA (c : Params) (store : Bool) (w : Width) (addr : Word) :
    RoundTrips c (movMAInstr store w addr) := by
  intro _ _ rest
  have fits : Class.movMA.Fits c (opcodeBW 0b101000#6 store w) (addr.extractLsb' 0 8) := top6_opcodeBW _ store w
  rw [encode_movMAInstr, wordBytes, List.cons_append, List.cons_append, decode_of_fits fits]
  cases store <;> simp [decodeBody, decodeMA, take8, Except.map, movMAInstr, Instr.length, wordOf_bytes]

theorem roundTrips_movIR (c : Params) (w : Width) (r : BitVec 3) (imm : Word) : RoundTrips c (.movRegImm w r imm) := by
  intro wf _ rest
  obtain ⟨b2, tail, bytes, read⟩ := readImmFrom2_encoded_all w imm rest wf
  rw [encode, List.cons_append, bytes, decode_of_fits (k := .movIR) (extract_nibble_opcodeIR w r)]
  simp [decodeBody, decodeIR, read, Except.map, Instr.length]

theorem roundTrips_aluIA (c : Params) (op : AluOp) (x : Bool) (w : Width) (imm : Word) :
    RoundTrips c (aluIAInstr op x w imm) := by
  intro wf allowed rest
  rw [wf_aluIAInstr] at wf
  rw [allows_aluIAInstr_iff] at allowed
  obtain ⟨b2, tail, bytes, read⟩ := readImmFrom2_encoded_all w imm rest wf
  have fits : (Class.aluIA op).Fits c (opcodeBW op.opcodeIA x w) b2 :=
    ⟨top6_opcodeBW _ x w, by rw [dField_opcodeBW]; exact allowed⟩
  rw [encode_aluIAInstr, List.cons_append, bytes, decode_of_fits fits, length_aluIAInstr]
  simp [decodeBody, decodeIA, read, Except.map]

theorem roundTrips_movSR (c : Params) {b1 : Byte} (h : b1 = 0x8E#8 ∨ b1 = 0x8C#8) (sr : SegReg) (rm : RM) :
    RoundTrips c (movSRInstr b1 sr rm) := by
  intro wf _ rest
  rw [wf_movSRInstr] at wf
  have bit5 : (modRmByte rm (0#1 ++ sr.bits)).getLsbD 5 = false := by
    rw [bit5_eq_regField, regField_modRmByte]
    cases sr <;> rfl
  have seg : (modRmByte rm (0#1 ++ sr.bits)).extractLsb' 3 2 = sr.bits := by
    rw [segField_eq_regField, regField_modRmByte]
    cases sr <;> rfl
  rw [encode_movSRInstr h, List.cons_append, List.cons_append, decode_of_fits (k := .movSR) h, length_movSRInstr,
    decodeBody, decodeSR, bit5]
  simp [seg, wf, Except.map, movSRInstr]

theorem roundTrips_jcc (c : Params) (cc : Cond) (rel : Byte) : RoundTrips c (jccInstr cc rel) := by
  intro _ allowed rest
  rw [allows_jccInstr] at allowed
  have fits : (Class.jcc cc).Fits c (0x7#4 ++ cc.bits : Byte) rel := ⟨rfl, allowed⟩
  rw [encode_jccInstr, List.cons_append, List.cons_append, decode_of_fits fits, length_jccInstr]
  rfl

/-- Every row belongs to a family. -/
theorem roundTrips (c : Params) : ∀ i : Instr, RoundTrips c i
  | .movRmReg w rm r => roundTrips_movRM c false w rm r
  | .movRegRm w r rm => roundTrips_movRM c true w rm r
  | .movRmImm w rm imm => roundTrips_movIRM c w rm imm
  | .movRegImm w r imm => roundTrips_movIR c w r imm
  | .movAccMem w addr => roundTrips_movMA c false w addr
  | .movMemAcc w addr => roundTrips_movMA c true w addr
  | .movSegRm sr rm => roundTrips_movSR c (.inl rfl) sr rm
  | .movRmSeg rm sr => roundTrips_movSR c (.inr rfl) sr rm
  | .addRmReg w rm r => roundTrips_aluRM c .add false w rm r
  | .addRegRm w r rm => roundTrips_aluRM c .add true w rm r
  | .addRmImm s w rm imm => roundTrips_aluIRM c .add s w rm imm
  | .addAccImm x w imm => roundTrips_aluIA c .add x w imm
  | .subRmReg w rm r => roundTrips_aluRM c .sub false w rm r
  | .subRegRm w r rm => roundTrips_aluRM c .sub true w rm r
  | .subRmImm s w rm imm => roundTrips_aluIRM c .sub s w rm imm
  | .subAccImm x w imm => roundTrips_aluIA c .sub x w imm
  | .cmpRmReg w rm r => roundTrips_aluRM c .cmp false w rm r
  | .cmpRegRm w r rm => roundTrips_aluRM c .cmp true w rm r
  | .cmpRmImm s w rm imm => roundTrips_aluIRM c .cmp s w rm imm
  | .cmpAccImm x w imm => roundTrips_aluIA c .cmp x w imm
  | .jo rel => roundTrips_jcc c .o rel
  | .jno rel => roundTrips_jcc c .no rel
  | .jb rel => roundTrips_jcc c .b rel
  | .jnb rel => roundTrips_jcc c .nb rel
  | .je rel => roundTrips_jcc c .e rel
  | .jne rel => roundTrips_jcc c .ne rel
  | .jbe rel => roundTrips_jcc c .be rel
  | .ja rel => roundTrips_jcc c .a rel
  | .js rel => roundTrips_jcc c .s rel
  | .jns rel => roundTrips_jcc c .ns rel
  | .jp rel => roundTrips_jcc c .p rel
  | .jnp rel => roundTrips_jcc c .np rel
  | .jl rel => roundTrips_jcc c .l rel
  | .jnl rel => roundTrips_jcc c .nl rel
  | .jle rel => roundTrips_jcc c .le rel
  | .jg rel => roundTrips_jcc c .g rel
  | .loopnz _ | .loopz _ | .loop _ | .jcxz _ => fun _ _ _ => rfl

/-- Settles O2: each row belongs to a family whose dispatch bytes lead to the family's format, and the format reads its
operands' own bytes back. -/
theorem decodeOfEncode : Obligations.DecodeOfEncode :=
  fun c i rest wf allowed => roundTrips c i wf allowed rest

/-! ## Encoding what was decoded -/

/-- The answer is well-formed and allowed, with its length, and the bytes begin with its encoding. -/
structure Accepted (c : Params) (bs : List Byte) (r : Instr × Nat) : Prop where
  wf : r.1.wf = true
  allowed : c.allows r.1 = true
  length_eq : r.2 = r.1.length
  bytes : ∃ rest, bs = encode r.1 ++ rest

theorem Accepted.drop_eq {c : Params} {bs : List Byte} {r : Instr × Nat} (h : Accepted c bs r) :
    bs = encode r.1 ++ bs.drop r.2 := by
  obtain ⟨rest, bytes⟩ := h.bytes
  rw [bytes, h.length_eq, ← encode_length h.wf, List.drop_left]

theorem map_eq_ok {α β : Type} {f : α → β} {x : Except DecodeError α} {y : β} (h : x.map f = .ok y) :
    ∃ a, x = .ok a ∧ f a = y := by
  cases x with
  | error e => cases h
  | ok a =>
    cases h
    exact ⟨a, rfl, rfl⟩

theorem RowsRM.accepted {op : BitVec 6} {mk : Bool → Width → RM → BitVec 3 → Instr} (rows : RowsRM op mk) {c : Params}
    {total : Nat} {b1 b2 : Byte} {tail : List Byte} {r : Instr × Nat} (opcode : top6 b1 = op)
    (h : decodeRM total mk b1 b2 tail = .ok r) : Accepted c (b1 :: b2 :: tail) r := by
  obtain ⟨⟨rm, k⟩, resolved, rfl⟩ := map_eq_ok h
  obtain ⟨wf, hmod, hrm, rfl, bytes⟩ := resolveRM_ok resolved
  refine ⟨(rows.wf_eq ..).trans wf, rows.allowed .., (rows.length_eq ..).symm, tail.drop rm.dispLen, ?_⟩
  rw [rows.encode_eq, ← opcode, join_opcodeBW, modRmByte_regField hmod hrm, List.cons_append, List.cons_append, ← bytes]

theorem RowsIRM.accepted {op : BitVec 7} {sel : BitVec 3} {s : Bool} {mk : Width → RM → Word → Instr}
    (rows : RowsIRM op sel s mk) {c : Params} {total : Nat} {b1 b2 : Byte} {tail : List Byte} {r : Instr × Nat}
    (opcode : b1.extractLsb' 1 7 = op) (hsel : regField b2 = sel) (h : decodeIRM total mk s b1 b2 tail = .ok r) :
    Accepted c (b1 :: b2 :: tail) r := by
  unfold decodeIRM at h
  cases resolved : resolveRM total (modField b2) (rmField b2) tail with
  | error e =>
    rw [resolved] at h
    cases h
  | ok p =>
    obtain ⟨rm, k⟩ := p
    rw [resolved] at h
    obtain ⟨wfRm, hmod, hrm, rfl, bytes⟩ := resolveRM_ok resolved
    obtain ⟨⟨imm, n⟩, read, rfl⟩ := map_eq_ok h
    obtain ⟨wfImm, rfl, bytes'⟩ := readImm_ok read
    refine ⟨?_, rows.allowed .., (rows.length_eq ..).symm, (tail.drop rm.dispLen).drop (immLenS s (wField b1)), ?_⟩
    · rw [rows.wf_eq, wfRm, wfImm]
      rfl
    · rw [rows.encode_eq, ← opcode, join_opcodeW, ← hsel, modRmByte_regField hmod hrm, List.cons_append,
        List.cons_append, List.append_assoc, ← bytes', ← bytes]

theorem accepted_decodeMA (c : Params) {total : Nat} {b1 b2 : Byte} {tail : List Byte} {r : Instr × Nat}
    (opcode : top6 b1 = 0b101000#6) (h : decodeMA total b1 b2 tail = .ok r) : Accepted c (b1 :: b2 :: tail) r := by
  obtain ⟨hi, read, rfl⟩ := map_eq_ok h
  obtain ⟨rest, rfl⟩ : ∃ rest, tail = hi :: rest := by
    cases tail with
    | nil => cases read
    | cons b rest =>
      cases read
      exact ⟨rest, rfl⟩
  change Accepted c _ (movMAInstr (dField b1) (wField b1) (wordOf b2 hi), 3)
  refine ⟨?_, ?_, ?_, rest, ?_⟩
  · cases dField b1 <;> rfl
  · cases dField b1 <;> exact allows_of_plain c rfl rfl
  · cases dField b1 <;> rfl
  · rw [encode_movMAInstr, ← opcode, join_opcodeBW, wordBytes_wordOf]
    rfl

theorem accepted_decodeIR (c : Params) {total : Nat} {b1 b2 : Byte} {tail : List Byte} {r : Instr × Nat}
    (opcode : b1.extractLsb' 4 4 = 0b1011#4) (h : decodeIR total b1 b2 tail = .ok r) :
    Accepted c (b1 :: b2 :: tail) r := by
  obtain ⟨⟨imm, k⟩, read, rfl⟩ := map_eq_ok h
  obtain ⟨wf, rfl, bytes⟩ := readImmFrom2_ok read
  refine ⟨wf, allows_of_plain c rfl rfl, rfl, tail.drop (1 + (wFieldIR b1).immLen - 2), ?_⟩
  rw [encode, ← opcode, join_opcodeIR, bytes, List.cons_append]

theorem accepted_decodeIA (c : Params) {total : Nat} {op : AluOp} {b1 b2 : Byte} {tail : List Byte} {r : Instr × Nat}
    (fits : (Class.aluIA op).Fits c b1 b2) (h : decodeIA total op b1 b2 tail = .ok r) :
    Accepted c (b1 :: b2 :: tail) r := by
  obtain ⟨opcode, strict⟩ := fits
  obtain ⟨⟨imm, k⟩, read, rfl⟩ := map_eq_ok h
  obtain ⟨wf, rfl, bytes⟩ := readImmFrom2_ok read
  refine ⟨(wf_aluIAInstr ..).trans wf, (allows_aluIAInstr_iff ..).mpr strict, (length_aluIAInstr ..).symm,
    tail.drop (1 + (wField b1).immLen - 2), ?_⟩
  rw [encode_aluIAInstr, ← opcode, join_opcodeBW, bytes, List.cons_append]

theorem accepted_decodeSR (c : Params) {total : Nat} {b1 b2 : Byte} {tail : List Byte} {r : Instr × Nat}
    (opcode : b1 = 0x8E#8 ∨ b1 = 0x8C#8) (h : decodeSR total b1 b2 tail = .ok r) : Accepted c (b1 :: b2 :: tail) r := by
  unfold decodeSR at h
  split at h
  · cases h
  · next bit5 =>
    obtain ⟨⟨rm, k⟩, resolved, rfl⟩ := map_eq_ok h
    obtain ⟨wf, hmod, hrm, rfl, bytes⟩ := resolveRM_ok resolved
    change Accepted c _ (movSRInstr b1 (segOf (b2.extractLsb' 3 2)) rm, 2 + rm.dispLen)
    refine ⟨(wf_movSRInstr ..).trans wf, allows_movSRInstr .., (length_movSRInstr ..).symm, tail.drop rm.dispLen, ?_⟩
    rw [encode_movSRInstr opcode, bits_segOf, ← regField_of_bit5 b2 (Bool.eq_false_of_not_eq_true bit5),
      modRmByte_regField hmod hrm, List.cons_append, List.cons_append, ← bytes]

/-- Whatever a class's format answers on bytes the class stands for, the bytes encode. -/
theorem accepted_decodeBody {c : Params} {k : Class} {total : Nat} {b1 b2 : Byte} {tail : List Byte} {r : Instr × Nat}
    (fits : k.Fits c b1 b2) (h : decodeBody k total b1 b2 tail = .ok r) : Accepted c (b1 :: b2 :: tail) r := by
  cases k with
  | movRM => exact rowsRM_mov.accepted fits h
  | aluRM op => exact (rowsRM_alu op).accepted fits h
  | movIRM => exact rowsIRM_mov.accepted fits.1 fits.2 h
  | aluIRM op =>
    have opcode : b1.extractLsb' 1 7 = 0b100000#6 ++ BitVec.ofBool (dField b1) := by
      rw [← fits.1]
      exact extract_eq_top6_dField b1
    exact (rowsIRM_alu op _).accepted opcode fits.2 h
  | movMA => exact accepted_decodeMA c fits h
  | movIR => exact accepted_decodeIR c fits h
  | aluIA op => exact accepted_decodeIA c fits h
  | movSR => exact accepted_decodeSR c fits h
  | jcc cc =>
    obtain ⟨rfl, admitted⟩ := fits
    cases h
    exact ⟨wf_jccInstr .., (allows_jccInstr ..).trans admitted, (length_jccInstr ..).symm, tail,
      by rw [encode_jccInstr]; rfl⟩
  | loopnz | loopz | loop | jcxz =>
    cases fits
    cases h
    exact ⟨rfl, allows_of_plain c rfl rfl, rfl, tail, rfl⟩

/-- All that a decode that succeeds says of its bytes. -/
theorem accepted_decode {c : Params} {bs : List Byte} {r : Instr × Nat} (h : decode c bs = .ok r) :
    Accepted c bs r := by
  unfold decode at h
  split at h
  · split at h
    · cases h
    · next hk => exact accepted_decodeBody (fits_of_classify hk) h
  · cases h

/-- Settles O3: the class the dispatch bytes fit fixes byte 1, and the format's decoder consumes its operands' bytes. -/
theorem encodeOfDecode : Obligations.EncodeOfDecode := by
  intro c bs i len h
  have accepted := accepted_decode h
  exact ⟨accepted.wf, accepted.allowed, accepted.length_eq, accepted.drop_eq⟩

end Sys2Proof
end

section
/-! PROOFS. Rules of every instruction, over its shape: what it changes and what it keeps (10_state.md R10, R24 to R31;
20_memory.md R49, R52, R57; 60_exceptions.md R185). -/

namespace Sys2Proof.Machine

/-! ## The rows' slots, stores, flags and lengths are those of their shapes -/

/-- The slot an operand that can be written names; none for memory. -/
def Place.slots {w : Width} : Place w → List Slot
  | .reg r => [r.slot]
  | .mem _ => []

/-- The slots an instruction of a shape writes, IP and FLAGS apart. -/
def Shape.slots : Shape → List Slot
  | .move _ _ dst _ => dst.slots
  | .alu op _ _ dst _ => if op = .cmp then [] else dst.slots
  | .loopnz _ | .loopz _ | .loop _ => [.cx]
  | .jump _ _ | .jcxz _ => []

/-- The data addresses an instruction of a shape stores to. -/
def Shape.stores : Shape → State → List Nat
  | .move _ _ dst _, s => dst.cells s
  | .alu op _ _ dst _, s => if op = .cmp then [] else dst.cells s
  | _, _ => []

/-- The shape of ADD, SUB and CMP. -/
def Shape.isAlu : Shape → Bool
  | .alu _ _ _ _ _ => true
  | _ => false

/-- The flags an instruction of a shape writes. -/
def Shape.flagsFrom? : Shape → State → Option Flags
  | .alu op _ _ dst src, s => some (aluFlags op (dst.value s) (src.value s))
  | _, _ => none

/-- The instruction's length, which its shape carries. -/
def Shape.length : Shape → Nat
  | .move _ len _ _ => len
  | .alu _ _ len _ _ => len
  | _ => 2

/-- The displacement of a branch. -/
def Shape.rel? : Shape → Option Byte
  | .move _ _ _ _ | .alu _ _ _ _ _ => none
  | .jump _ rel | .loopnz rel | .loopz rel | .loop rel | .jcxz rel => some rel

theorem slots_eq_shape (i : Instr) : i.slots = (shapeOf i).slots := by
  cases i with
  | movRmReg w rm | movRmImm w rm | movRmSeg rm | addRmReg w rm | addRmImm s w rm | subRmReg w rm | subRmImm s w rm =>
    cases rm <;> rfl
  | movAccMem w | addAccImm x w | subAccImm x w => cases w <;> rfl
  | _ => rfl

theorem stores_eq_shape (i : Instr) (s : State) : i.stores s = (shapeOf i).stores s := by cases i <;> rfl

theorem flagsFrom?_eq_shape (i : Instr) (s : State) : i.flagsFrom? s = (shapeOf i).flagsFrom? s := by cases i <;> rfl

theorem length_eq_shape (i : Instr) : i.length = (shapeOf i).length := by cases i <;> rfl

theorem rel?_eq_shape (i : Instr) : i.rel? = (shapeOf i).rel? := by cases i <;> rfl

theorem isAlu_eq_shape (i : Instr) : i.isAlu = (shapeOf i).isAlu := by cases i <;> rfl

/-! ## What a completed instruction keeps -/

theorem exec_ready {i : Instr} {s t : State} (h : exec i s = .next t) : (shapeOf i).ready s = true := by
  rcases exec_spec i s with ⟨ready, -⟩ | ⟨-, e⟩
  · exact ready
  · rw [e] at h
    cases h

theorem Place.not_mem_slots {w : Width} {p : Place w} {x : Slot} (h : x ∉ p.slots) (r : Reg w) (e : p = .reg r) :
    x ≠ r.slot := by
  subst e
  exact fun hx => h (List.mem_singleton.mpr hx)

/-- A completed instruction changes no slot but those it writes (10_state.md R10). -/
theorem Shape.Post.get_eq {sh : Shape} {s t : State} (h : sh.Post s t) {x : Slot} (hx : x ∉ sh.slots) :
    t.regs.get x = s.regs.get x := by
  cases sh with
  | move w len dst src => exact Written.slots h x (Place.not_mem_slots hx)
  | alu op w len dst src =>
    by_cases hop : op = .cmp
    · rw [(AluDone.compared h hop).1]
    · rw [Shape.slots, if_neg hop] at hx
      exact AluDone.slots h x (Place.not_mem_slots hx)
  | jump | jcxz =>
    cases h
    rfl
  | loopnz | loopz | loop =>
    cases h
    exact RegFile.get_set_other _ _ _ _ (by simpa [Shape.slots] using hx)

/-- A completed instruction changes no byte but those it stores to (20_memory.md R52, R57). -/
theorem Shape.Post.read_eq {sh : Shape} {s t : State} (h : sh.Post s t) {a : Nat} (ha : a ∉ sh.stores s) :
    t.mem.read a = s.mem.read a := by
  cases sh with
  | move w len dst src => exact (Written.only h).2.1 a (by rwa [Place.cells_advance])
  | alu op w len dst src =>
    by_cases hop : op = .cmp
    · rw [(AluDone.compared h hop).2]
    · rw [Shape.stores, if_neg hop] at ha
      exact (AluDone.only h).2.1 a ha
  | jump | loopnz | loopz | loop | jcxz =>
    cases h
    rfl

theorem Shape.Post.launch_eq {sh : Shape} {s t : State} (h : sh.Post s t) : t.launch = s.launch := by
  cases sh with
  | move w len dst src => exact (Written.only h).2.2
  | alu op w len dst src => exact AluDone.launch h
  | jump | loopnz | loopz | loop | jcxz =>
    cases h
    rfl

/-- A completed instruction keeps the memory's canonical form. -/
theorem Shape.Post.wf {sh : Shape} {s t : State} (h : sh.Post s t) (wf : s.mem.wf = true) : t.mem.wf = true := by
  cases sh with
  | move w len dst src => exact Written.wf h wf
  | alu op w len dst src => exact AluDone.wf h wf
  | jump | loopnz | loopz | loop | jcxz =>
    cases h
    exact wf

/-- Settles O30: the rows' slots and stores are their shapes', and a shape keeps the rest. -/
theorem everyInstructionKeepsTheRest : Obligations.EveryInstructionKeepsTheRest := by
  intro i s t h
  have post := exec_next h
  refine ⟨fun x hx => post.get_eq ?_, fun a ha => post.read_eq ?_, post.launch_eq⟩
  · rwa [← slots_eq_shape]
  · rwa [← stores_eq_shape]

/-! ## Invariants of the step -/

theorem step_post {s t : State} (h : step s = .next t) : ∃ sh : Shape, sh.ready s = true ∧ sh.Post s t := by
  obtain ⟨-, -, i, -, he⟩ := step_next h
  exact ⟨shapeOf i, exec_ready he, exec_next he⟩

theorem step_launch {s t : State} (h : step s = .next t) : t.launch = s.launch := by
  obtain ⟨sh, -, post⟩ := step_post h
  exact post.launch_eq

/-- Settles O17: the instruction keeps the canonical form, and no instruction writes the launch. -/
theorem stepKeepsInvariant : Obligations.StepKeepsInvariant := by
  intro s t inv h
  obtain ⟨sh, -, post⟩ := step_post h
  rw [State.inv, Bool.and_eq_true] at inv ⊢
  exact ⟨post.wf inv.1, (State.launchOk_congr post.launch_eq).trans inv.2⟩

/-- Only under the linear reading does an access that is in range reach 0x10000 (20_memory.md R49, R55). -/
theorem accessed_lt_segment {policy : WordAtFFFF} {ea : Word} {w : Width} (inRange : rangeFaults policy ea w = false)
    (notLinear : policy ≠ .linear) {a : Nat} (h : a ∈ accessed policy ea w) : a < 0x10000 := by
  have low := ea.isLt
  have high : w = .word → highAddr policy ea < 0x10000 := by
    rintro rfl
    unfold highAddr
    by_cases top : ea = 0xFFFF#16
    · cases policy with
      | fault => simp [rangeFaults, top] at inRange
      | linear => exact absurd rfl notLinear
      | wrap16 => simp [top]
    · have : ea.toNat ≠ 0xFFFF := fun e => top (BitVec.eq_of_toNat_eq e)
      rw [if_neg top]
      omega
  cases w with
  | byte =>
    cases List.mem_singleton.mp h
    exact low
  | word =>
    rcases List.mem_pair.mp h with rfl | rfl
    · exact low
    · exact high rfl

theorem Place.cells_lt_segment {w : Width} {p : Place w} {s : State} (ready : p.ready s = true)
    (notLinear : s.policy ≠ .linear) {a : Nat} (h : a ∈ p.cells s) : a < 0x10000 := by
  cases p with
  | reg r => cases h
  | mem m => exact accessed_lt_segment (by simpa [Place.ready] using ready) notLinear h

theorem Shape.stores_lt_segment {sh : Shape} {s : State} (ready : sh.ready s = true) (notLinear : s.policy ≠ .linear)
    {a : Nat} (h : a ∈ sh.stores s) : a < 0x10000 := by
  cases sh with
  | move w len dst src =>
    rw [Shape.ready, Bool.and_eq_true] at ready
    exact Place.cells_lt_segment ready.2 notLinear h
  | alu op w len dst src =>
    rw [Shape.ready, Bool.and_eq_true] at ready
    by_cases hop : op = .cmp
    · rw [Shape.stores, if_pos hop] at h
      cases h
    · rw [Shape.stores, if_neg hop] at h
      exact Place.cells_lt_segment ready.1 notLinear h
  | jump | loopnz | loopz | loop | jcxz => cases h

/-- Settles O19: a step stores below 0x10000 alone, and the launch, which holds WORD_AT_FFFF, stays. -/
theorem highMemoryKeepsItsContents : Obligations.HighMemoryKeepsItsContents := by
  rintro image s t ⟨notLinear, isImage⟩ h
  obtain ⟨sh, ready, post⟩ := step_post h
  refine ⟨?_, fun a ha => ?_⟩
  · rwa [State.policy, post.launch_eq]
  · have untouched : a ∉ sh.stores s := fun hs =>
      absurd (Shape.stores_lt_segment ready notLinear hs) (Nat.not_lt.mpr ha)
    rw [post.read_eq untouched, isImage a ha]

/-- Settles O15: the fetch reads the launch alone, and no instruction writes it. -/
theorem storesNeverReachFetch : Obligations.StoresNeverReachFetch := by
  intro s t h
  have launch := step_launch h
  refine ⟨fun p => ?_, launch⟩
  rw [fetch, fetch, State.codeFrom, State.codeFrom, launch]

/-! ## IP, the stops and the flags -/

theorem Shape.Post.ip_eq {sh : Shape} {s t : State} (h : sh.Post s t) (straight : sh.rel? = none) :
    t.ip = s.ip + BitVec.ofNat 16 sh.length := by
  cases sh with
  | move w len dst src => exact Written.ip h
  | alu op w len dst src => exact AluDone.ip h
  | jump | loopnz | loopz | loop | jcxz => cases straight

theorem Shape.Post.ip_branch {sh : Shape} {s t : State} (h : sh.Post s t) {rel : Byte} (branch : sh.rel? = some rel) :
    sh.length = 2 ∧ (t.ip = s.ip + 2#16 ∨ t.ip = s.ip + 2#16 + rel.signExtend 16) := by
  cases sh with
  | move | alu => cases branch
  | jump | loopnz | loopz | loop | jcxz =>
    cases branch
    cases h
    exact ⟨rfl, (ite_eq_or_eq ..).symm⟩

/-- Settles O34: a MOV or ALU shape leaves IP past its length, a branch past two bytes or on by its displacement. -/
theorem ipAdvancesByLength : Obligations.IpAdvancesByLength := by
  intro i s t h
  have post := exec_next h
  rw [length_eq_shape, rel?_eq_shape]
  exact ⟨post.ip_eq, fun _ => post.ip_branch⟩

/-- Settles O29: operands that cannot be accessed are the only stop, and only WORD_AT_FFFF = fault has them. -/
theorem execStopsOnlyAtTopWord : Obligations.ExecStopsOnlyAtTopWord := by
  intro i s
  rcases exec_spec i s with ⟨-, t, e, -⟩ | ⟨notReady, e⟩
  · exact .inl ⟨t, e⟩
  · exact .inr ⟨Shape.not_ready notReady, e⟩

/-- ADD, SUB and CMP do not read the flags. -/
theorem aluOp_setFlags {w : Width} (op : AluOp) (len : Nat) (dst : Place w) (src : Source w) (s : State) (g : Flags) :
    aluOp op len dst src { s with flags := g } = aluOp op len dst src s := by
  have advance : State.advance { s with flags := g } len = { s.advance len with flags := g } := rfl
  rw [aluOp_eq, aluOp_eq, Place.ready_flags, Source.ready_flags, Place.value_setFlags, Source.value_flags, advance,
    Place.put_flags]
  cases op <;> rfl

theorem Shape.run_setFlags {sh : Shape} (alu : sh.isAlu = true) (s : State) (g : Flags) :
    sh.run { s with flags := g } = sh.run s := by
  cases sh with
  | alu op w len dst src => exact aluOp_setFlags op len dst src s g
  | move | jump | loopnz | loopz | loop | jcxz => cases alu

theorem Shape.Post.flags_eq {sh : Shape} {s t : State} (h : sh.Post s t) (notAlu : sh.isAlu = false) :
    t.flags = s.flags := by
  cases sh with
  | move w len dst src => exact Written.flags (s := s.advance len) h
  | alu => cases notAlu
  | jump | loopnz | loopz | loop | jcxz =>
    cases h
    rfl

theorem Shape.Post.flagsFrom? {sh : Shape} {s t : State} (h : sh.Post s t) (alu : sh.isAlu = true) :
    sh.flagsFrom? s = some t.flags := by
  cases sh with
  | alu op w len dst src => exact congrArg some (AluDone.flags h).symm
  | move | jump | loopnz | loopz | loop | jcxz => cases alu

/-- Settles O31: by shape, only the ALU's writes flags, all six, from its own two operands. -/
theorem onlyAluWritesFlags : Obligations.OnlyAluWritesFlags := by
  intro i s
  rw [isAlu_eq_shape, flagsFrom?_eq_shape]
  refine ⟨fun notAlu t h => (exec_next h).flags_eq notAlu, fun alu g => ?_, fun alu t h =>
    (exec_next h).flagsFrom? alu⟩
  rw [exec_eq_shape, exec_eq_shape, Shape.run_setFlags alu]

/-! ## AF and the segment registers play no role -/

theorem mapNext_mapNext (f g : State → State) (o : Host.Outcome State Fault Refusal) :
    mapNext f (mapNext g o) = mapNext (fun t => f (g t)) o := by
  cases o <;> rfl

/-- MOV carries the flags along. -/
theorem moveOp_setFlags {w : Width} (len : Nat) (dst : Place w) (src : Source w) (s : State) (g : Flags) :
    moveOp len dst src { s with flags := g } = mapNext (fun t => { t with flags := g }) (moveOp len dst src s) := by
  have advance : State.advance { s with flags := g } len = { s.advance len with flags := g } := rfl
  rw [moveOp_eq, moveOp_eq, Source.ready_flags, Place.ready_flags, Source.value_flags, advance, Place.put_flags]
  split <;> rfl

theorem evalCond_withAf (s : State) (b : Bool) (cc : Cond) : evalCond (s.withAf b).flags cc = evalCond s.flags cc := by
  cases cc <;> rfl

/-- Settles O32: the ALU does not read the flags, MOV carries them along, and no condition of a branch tests AF. -/
theorem auxiliaryCarryIsNeverRead : Obligations.AuxiliaryCarryIsNeverRead := by
  intro i s b
  rw [exec_eq_shape, exec_eq_shape]
  cases shapeOf i with
  | move w len dst src =>
    have given : moveOp len dst src s = mapNext (fun t => { t with flags := s.flags }) (moveOp len dst src s) :=
      moveOp_setFlags len dst src s s.flags
    have changed : moveOp len dst src (s.withAf b) = _ := moveOp_setFlags len dst src s (s.withAf b).flags
    rw [Shape.run, Shape.run, changed, given, mapNext_mapNext, mapNext_mapNext, mapNext_mapNext]
    rfl
  | alu op w len dst src => exact congrArg _ (aluOp_setFlags op len dst src s _)
  | jump cc rel =>
    rw [Shape.run, Shape.run, jumpOp_eq, jumpOp_eq, evalCond_withAf]
    rfl
  | loopnz rel | loopz rel | loop rel =>
    rw [Shape.run, Shape.run, loopOp_eq, loopOp_eq]
    rfl
  | jcxz rel =>
    rw [Shape.run, Shape.run, execJcxz_eq, execJcxz_eq]
    rfl

/-- The four segment registers (10_state.md R20). -/
def Slot.isSeg : Slot → Bool
  | .es | .cs | .ss | .ds => true
  | _ => false

/-- The operand names no segment register; memory never does (20_memory.md R49). -/
def Place.plain {w : Width} : Place w → Bool
  | .reg r => !r.slot.isSeg
  | .mem _ => true

/-- The operand that is read names no segment register. -/
def Source.plain {w : Width} : Source w → Bool
  | .place p => p.plain
  | .imm _ => true

/-- No operand of the shape names a segment register. -/
def Shape.plain : Shape → Bool
  | .move _ _ dst src => dst.plain && src.plain
  | .alu _ _ _ dst src => dst.plain && src.plain
  | _ => true

@[simp] theorem plain_regPlace (w : Width) (r : BitVec 3) : (regPlace w r).plain = true := by
  cases w <;> revert r <;> decide

@[simp] theorem plain_acc (w : Width) : (Place.reg (acc w)).plain = true := plain_regPlace w 0b000#3

@[simp] theorem plain_directPlace (w : Width) (addr : Word) : (directPlace w addr).plain = true := rfl

@[simp] theorem plain_rmPlace (w : Width) (rm : RM) : (rmPlace w rm).plain = true := by
  cases rm with
  | reg r => exact plain_regPlace w r
  | direct | mem => rfl

/-- The REG and RM fields number no segment register (30_encoding.md R76). -/
theorem plain_shapeOf {i : Instr} (h : i.isSegMove = false) : (shapeOf i).plain = true := by
  cases i with
  | movSegRm | movRmSeg => cases h
  | _ => simp [shapeOf, Shape.plain, Source.plain]

section
variable (es cs ss ds : Word)

theorem readReg_withSegs {w : Width} {r : Reg w} (h : r.slot.isSeg = false) (s : State) :
    (s.withSegs es cs ss ds).regs.readReg r = s.regs.readReg r := by
  cases r with
  | full x =>
    cases x with
    | es | cs | ss | ds => cases h
    | _ => rfl
  | low x | high x => cases x <;> rfl

theorem writeReg_withSegs {w : Width} {r : Reg w} (h : r.slot.isSeg = false) (s : State) (v : BitVec w.bits) :
    { s.withSegs es cs ss ds with regs := (s.withSegs es cs ss ds).regs.writeReg r v } =
      { s with regs := s.regs.writeReg r v }.withSegs es cs ss ds := by
  cases r with
  | full x =>
    cases x with
    | es | cs | ss | ds => cases h
    | _ => rfl
  | low x | high x => cases x <;> rfl

theorem ea_withSegs (m : MemOperand) (s : State) : m.ea (s.withSegs es cs ss ds).regs = m.ea s.regs := by
  obtain ⟨kind, disp⟩ := m
  cases kind with
  | direct => rfl
  | based b => cases b <;> rfl

@[simp] theorem policy_withSegs (s : State) : (s.withSegs es cs ss ds).policy = s.policy := rfl

theorem Place.ready_withSegs {w : Width} (p : Place w) (s : State) : p.ready (s.withSegs es cs ss ds) = p.ready s := by
  cases p with
  | reg r => rfl
  | mem m => rw [Place.ready_mem, Place.ready_mem, ea_withSegs, policy_withSegs]

theorem Place.value_withSegs {w : Width} {p : Place w} (h : p.plain = true) (s : State) :
    p.value (s.withSegs es cs ss ds) = p.value s := by
  cases p with
  | reg r => exact readReg_withSegs es cs ss ds (by simpa [Place.plain] using h) s
  | mem m =>
    rw [Place.value, Place.value, ea_withSegs, policy_withSegs]
    rfl

theorem Place.put_withSegs {w : Width} {p : Place w} (h : p.plain = true) (v : BitVec w.bits) (s : State) :
    p.put v (s.withSegs es cs ss ds) = (p.put v s).withSegs es cs ss ds := by
  cases p with
  | reg r => exact writeReg_withSegs es cs ss ds (by simpa [Place.plain] using h) s v
  | mem m =>
    rw [Place.put, Place.put, ea_withSegs, policy_withSegs]
    rfl

theorem Source.ready_withSegs {w : Width} (o : Source w) (s : State) :
    o.ready (s.withSegs es cs ss ds) = o.ready s := by
  cases o with
  | place p => exact Place.ready_withSegs es cs ss ds p s
  | imm v => rfl

theorem Source.value_withSegs {w : Width} {o : Source w} (h : o.plain = true) (s : State) :
    o.value (s.withSegs es cs ss ds) = o.value s := by
  cases o with
  | place p => exact Place.value_withSegs es cs ss ds h s
  | imm v => rfl

theorem advance_withSegs (s : State) (n : Nat) :
    (s.withSegs es cs ss ds).advance n = (s.advance n).withSegs es cs ss ds := rfl

theorem Shape.run_withSegs {sh : Shape} (h : sh.plain = true) (s : State) :
    sh.run (s.withSegs es cs ss ds) = mapNext (fun t => t.withSegs es cs ss ds) (sh.run s) := by
  cases sh with
  | move w len dst src =>
    rw [Shape.plain, Bool.and_eq_true] at h
    rw [Shape.run, Shape.run, moveOp_eq, moveOp_eq, Source.ready_withSegs, Place.ready_withSegs,
      Source.value_withSegs es cs ss ds h.2, advance_withSegs, Place.put_withSegs es cs ss ds h.1]
    split <;> rfl
  | alu op w len dst src =>
    rw [Shape.plain, Bool.and_eq_true] at h
    rw [Shape.run, Shape.run, aluOp_eq, aluOp_eq, Source.ready_withSegs, Place.ready_withSegs,
      Source.value_withSegs es cs ss ds h.2, Place.value_withSegs es cs ss ds h.1, advance_withSegs,
      Place.put_withSegs es cs ss ds h.1]
    cases op <;> split <;> rfl
  | jump cc rel =>
    rw [Shape.run, Shape.run, jumpOp_eq, jumpOp_eq]
    rfl
  | loopnz rel | loopz rel | loop rel =>
    rw [Shape.run, Shape.run, loopOp_eq, loopOp_eq]
    rfl
  | jcxz rel =>
    rw [Shape.run, Shape.run, execJcxz_eq, execJcxz_eq]
    rfl

end

/-- Settles O33: no other row has an operand that is a segment register, and no address is made from one. -/
theorem segmentRegistersAreInert : Obligations.SegmentRegistersAreInert := by
  intro i s es cs ss ds h
  rw [exec_eq_shape, exec_eq_shape, Shape.run_withSegs es cs ss ds (plain_shapeOf h)]

end Sys2Proof.Machine
end

section
/-! PROOFS. The decode-time conditions: an instruction cut short (30_encoding.md R97), and which dispatch bytes are
outside the byte-1 map (R86). -/

namespace Sys2Proof

/-! ## Cut short -/

theorem take16_short {needed total : Nat} {bs : List Byte} (h : bs.length < 2) :
    take16 needed total bs = .error (.truncated needed total) := by
  match bs with
  | [] | [_] => rfl
  | _ :: _ :: _ =>
    simp at h

theorem take8_short {needed total : Nat} {bs : List Byte} (h : bs.length < 1) :
    take8 needed total bs = .error (.truncated needed total) := by
  match bs with
  | [] => rfl
  | _ :: _ => simp at h

/-- Too few displacement bytes: the operand needs them all. -/
theorem resolveRM_short {n n' : Nat} {md : BitVec 2} {r : BitVec 3} {tail bs : List Byte} {p : RM × Nat}
    (h : resolveRM n md r tail = .ok p) (short : bs.length < p.2) :
    resolveRM n' md r bs = .error (.truncated (2 + p.2) n') := by
  unfold resolveRM at h ⊢
  split_ifs at h ⊢
  · cases h
    simp at short
  · obtain ⟨a, -, rfl⟩ := map_eq_ok h
    rw [take16_short short]
    rfl
  · cases h
    simp at short
  · obtain ⟨a, -, rfl⟩ := map_eq_ok h
    rw [take8_short short]
    rfl
  · obtain ⟨a, -, rfl⟩ := map_eq_ok h
    rw [take16_short short]
    rfl

/-- An operand's own bytes are enough to resolve it. -/
theorem resolveRM_take {n n' : Nat} {md : BitVec 2} {r : BitVec 3} {tail : List Byte} {p : RM × Nat}
    (h : resolveRM n md r tail = .ok p) {j : Nat} (long : p.2 ≤ j) : resolveRM n' md r (tail.take j) = .ok p := by
  obtain ⟨rm, k⟩ := p
  obtain ⟨wf, rfl, rfl, rfl, bytes⟩ := resolveRM_ok h
  have kept : tail.take j = rm.dispBytes ++ (tail.drop rm.dispLen).take (j - rm.dispLen) := by
    conv_lhs => rw [bytes]
    rw [List.take_append, dispBytes_length, List.take_of_length_le (by rwa [dispBytes_length])]
  rw [kept, resolveRM_encoded n' rm _ wf]

theorem readImm_short {n n' q : Nat} {s : Bool} {w : Width} {tail bs : List Byte} {p : Word × Nat}
    (h : readImm n q s w tail = .ok p) (short : bs.length < p.2) :
    readImm n' q s w bs = .error (.truncated (q + p.2) n') := by
  obtain ⟨-, len, -⟩ := readImm_ok h
  rw [len] at short ⊢
  cases s <;> cases w <;> simp only [immLenS, Width.immLen, if_true, Bool.false_eq_true, if_false] at short <;>
    simp [readImm, immLenS, Width.immLen, take8_short, take16_short, short, Except.map]

theorem readImmFrom2_short {n n' : Nat} {w : Width} {b2 : Byte} {tail bs : List Byte} {p : Word × Nat}
    (h : readImmFrom2 n w b2 tail = .ok p) (short : bs.length + 2 < p.2) :
    readImmFrom2 n' w b2 bs = .error (.truncated p.2 n') := by
  cases w with
  | byte =>
    cases h
    simp at short
  | word =>
    obtain ⟨hi, -, rfl⟩ := map_eq_ok h
    rw [readImmFrom2, take8_short (Nat.lt_of_add_lt_add_right (n := 2) short)]
    rfl

/-- What a format decodes from a whole tail, it calls truncated on the tail's first `j` bytes when these are too few: it
then needs more bytes than remain and no more than the instruction has. -/
def CutShort (format : Nat → List Byte → Except DecodeError (Instr × Nat)) : Prop :=
  ∀ n tail r j, format n tail = .ok r → (tail.take j).length + 2 < r.2 →
    ∃ needed, (tail.take j).length + 2 < needed ∧ needed ≤ r.2 ∧
      format ((tail.take j).length + 2) (tail.take j) = .error (.truncated needed ((tail.take j).length + 2))

theorem cutShort_decodeRM (mk : Bool → Width → RM → BitVec 3 → Instr) (b1 b2 : Byte) :
    CutShort fun n tail => decodeRM n mk b1 b2 tail := by
  intro n tail r j h short
  obtain ⟨⟨rm, k⟩, resolved, rfl⟩ := map_eq_ok h
  refine ⟨2 + k, short, Nat.le_refl _, ?_⟩
  have few : (tail.take j).length < k := by
    simp only at short
    omega
  simp only [decodeRM, resolveRM_short resolved few]
  rfl

/-- The displacement is missing before the immediate is (60_exceptions.md R191). -/
theorem cutShort_decodeIRM (mk : Width → RM → Word → Instr) (s : Bool) (b1 b2 : Byte) :
    CutShort fun n tail => decodeIRM n mk s b1 b2 tail := by
  intro n tail r j h short
  simp only [decodeIRM] at h ⊢
  cases resolved : resolveRM n (modField b2) (rmField b2) tail with
  | error e =>
    rw [resolved] at h
    cases h
  | ok p =>
    obtain ⟨rm, k⟩ := p
    rw [resolved] at h
    obtain ⟨⟨imm, l⟩, read, rfl⟩ := map_eq_ok h
    by_cases few : (tail.take j).length < k
    · refine ⟨2 + k, by omega, Nat.le_add_right _ _, ?_⟩
      rw [resolveRM_short resolved few]
    · have enough : k ≤ j := by
        rw [List.length_take] at few
        omega
      have fewImm : ((tail.take j).drop k).length < l := by
        rw [List.length_drop]
        simp only at short
        omega
      refine ⟨2 + k + l, short, Nat.le_refl _, ?_⟩
      simp only [resolveRM_take resolved enough, readImm_short read fewImm]
      rfl

theorem cutShort_decodeMA (b1 b2 : Byte) : CutShort fun n tail => decodeMA n b1 b2 tail := by
  intro n tail r j h short
  obtain ⟨hi, -, rfl⟩ := map_eq_ok h
  refine ⟨3, short, Nat.le_refl _, ?_⟩
  simp only [decodeMA, take8_short (Nat.lt_of_add_lt_add_right (n := 2) short)]
  rfl

theorem cutShort_decodeIR (b1 b2 : Byte) : CutShort fun n tail => decodeIR n b1 b2 tail := by
  intro n tail r j h short
  obtain ⟨p, read, rfl⟩ := map_eq_ok h
  refine ⟨p.2, short, Nat.le_refl _, ?_⟩
  simp only [decodeIR, readImmFrom2_short read short]
  rfl

theorem cutShort_decodeIA (op : AluOp) (b1 b2 : Byte) : CutShort fun n tail => decodeIA n op b1 b2 tail := by
  intro n tail r j h short
  obtain ⟨p, read, rfl⟩ := map_eq_ok h
  refine ⟨p.2, short, Nat.le_refl _, ?_⟩
  simp only [decodeIA, readImmFrom2_short read short]
  rfl

theorem cutShort_decodeSR (b1 b2 : Byte) : CutShort fun n tail => decodeSR n b1 b2 tail := by
  intro n tail r j h short
  simp only [decodeSR] at h ⊢
  split at h
  · cases h
  · next bit5 =>
    obtain ⟨⟨rm, k⟩, resolved, rfl⟩ := map_eq_ok h
    have few : (tail.take j).length < k := by
      simp only at short
      omega
    refine ⟨2 + k, short, Nat.le_refl _, ?_⟩
    rw [if_neg bit5, resolveRM_short resolved few]
    rfl

/-- Format J has no byte after the dispatch bytes that could be missing. -/
theorem cutShort_two (i : Instr) : CutShort fun _ _ => .ok (i, 2) := by
  intro n tail r j h short
  cases h
  simp at short

theorem cutShort_decodeBody (k : Class) (b1 b2 : Byte) : CutShort fun n tail => decodeBody k n b1 b2 tail := by
  cases k with
  | movRM => exact cutShort_decodeRM movRMInstr b1 b2
  | aluRM op => exact cutShort_decodeRM (aluRMInstr op) b1 b2
  | movIRM | aluIRM op => exact cutShort_decodeIRM _ _ b1 b2
  | movMA => exact cutShort_decodeMA b1 b2
  | movIR => exact cutShort_decodeIR b1 b2
  | aluIA op => exact cutShort_decodeIA op b1 b2
  | movSR => exact cutShort_decodeSR b1 b2
  | jcc | loopnz | loopz | loop | jcxz => exact cutShort_two _

/-- The decoder on the first `k` bytes of what it decodes. -/
theorem decode_take {c : Params} {bs : List Byte} {r : Instr × Nat} (h : decode c bs = .ok r) {k : Nat}
    (short : k < r.2) :
    ∃ needed, k < needed ∧ needed ≤ r.2 ∧ decode c (bs.take k) = .error (.truncated needed k) := by
  have accepted := accepted_decode h
  have len : k ≤ bs.length := by
    obtain ⟨rest, bytes⟩ := accepted.bytes
    rw [bytes, List.length_append, encode_length accepted.wf, ← accepted.length_eq]
    omega
  match k, bs with
  | 0, _ => exact ⟨2, Nat.zero_lt_two, accepted.length_eq ▸ (length_bounds accepted.wf).1, rfl⟩
  | 1, b :: _ => exact ⟨2, Nat.one_lt_two, accepted.length_eq ▸ (length_bounds accepted.wf).1, rfl⟩
  | j + 2, b1 :: b2 :: tail =>
    have taken : (tail.take j).length = j := List.length_take_of_le (by simpa using len)
    simp only [decode] at h
    split at h
    · cases h
    · next k' hclass =>
      have cut := cutShort_decodeBody k' b1 b2 _ tail r j h
      rw [taken] at cut
      simpa only [List.take_succ_cons, decode, hclass, List.length_cons, taken] using cut short

/-- Settles O8: the encoding decodes, and the decoder on fewer bytes of it is truncated. -/
theorem cutInstructionIsTruncated : Obligations.CutInstructionIsTruncated := by
  intro c i k wf allowed short
  have whole := roundTrips c i wf allowed []
  rw [List.append_nil] at whole
  exact decode_take whole short

/-! ## The byte-1 map -/

theorem top6_eq_iff (b : Byte) (v : BitVec 6) : top6 b = v ↔ b.toNat / 4 = v.toNat := by
  rw [← BitVec.toNat_inj, top6, BitVec.extractLsb'_toNat, Nat.shiftRight_eq_div_pow, Nat.mod_eq_of_lt]
  have := b.isLt
  omega

theorem extract_one_seven_eq_iff (b : Byte) (v : BitVec 7) : b.extractLsb' 1 7 = v ↔ b.toNat / 2 = v.toNat := by
  rw [← BitVec.toNat_inj, BitVec.extractLsb'_toNat, Nat.shiftRight_eq_div_pow, Nat.mod_eq_of_lt]
  have := b.isLt
  omega

theorem high_nibble_eq_iff (b : Byte) (v : BitVec 4) : b.extractLsb' 4 4 = v ↔ b.toNat / 16 = v.toNat := by
  rw [← BitVec.toNat_inj, BitVec.extractLsb'_toNat, Nat.shiftRight_eq_div_pow, Nat.mod_eq_of_lt]
  have := b.isLt
  omega

theorem regField_eq_iff (b : Byte) (v : BitVec 3) : regField b = v ↔ b.toNat / 8 % 8 = v.toNat := by
  rw [← BitVec.toNat_inj, regField, BitVec.extractLsb'_toNat, Nat.shiftRight_eq_div_pow]

theorem low_nibble_eq_ofNat (b : Byte) : b.extractLsb' 0 4 = BitVec.ofNat 4 b.toNat := by
  revert b; decide

theorem dField_eq (b : Byte) : dField b = decide (b.toNat / 2 % 2 = 1) := by
  revert b; decide

/-- The dispatch bytes of a class are in the byte-1 map (30_encoding.md R86). -/
theorem acceptedPair_of_fits {c : Params} {b1 b2 : Byte} {k : Class} (h : k.Fits c b1 b2) :
    Machine.acceptedPair c b1 b2 = true := by
  cases k with
  | movRM | movMA =>
    have opcode := (top6_eq_iff ..).mp h
    simp [Machine.acceptedPair] at *
    omega
  | aluRM op =>
    have opcode := (top6_eq_iff ..).mp h
    cases op <;> simp [Machine.acceptedPair, AluOp.opcode] at * <;> omega
  | movIRM =>
    have opcode := (extract_one_seven_eq_iff ..).mp h.1
    have sel := (regField_eq_iff ..).mp h.2
    simp [Machine.acceptedPair] at *
    omega
  | aluIRM op =>
    have opcode := (top6_eq_iff ..).mp h.1
    have sel := (regField_eq_iff ..).mp h.2
    cases op <;> simp [Machine.acceptedPair, AluOp.sel] at * <;> omega
  | movIR =>
    have opcode := (high_nibble_eq_iff ..).mp h
    simp [Machine.acceptedPair] at *
    omega
  | movSR => rcases h with rfl | rfl <;> rfl
  | aluIA op =>
    have opcode := (top6_eq_iff ..).mp h.1
    have strict := h.2
    rw [dField_eq] at strict
    cases op <;> cases hs : c.iaStrict <;> simp [Machine.acceptedPair, AluOp.opcodeIA, hs] at * <;> omega
  | jcc cc =>
    obtain ⟨rfl, admitted⟩ := h
    cases cc <;> simp [Machine.acceptedPair, Cond.bits] <;> exact admitted
  | loopnz | loopz | loop | jcxz =>
    cases h
    rfl

/-- Dispatch bytes in the byte-1 map belong to a class. -/
theorem fits_of_acceptedPair {c : Params} {b1 b2 : Byte} (h : Machine.acceptedPair c b1 b2 = true) :
    ∃ k : Class, k.Fits c b1 b2 := by
  have rm : ∀ k : Class, ∀ v : BitVec 6, b1.toNat / 4 = v.toNat → (top6 b1 = v → k.Fits c b1 b2) →
      ∃ k : Class, k.Fits c b1 b2 := fun k v hv fits => ⟨k, fits ((top6_eq_iff b1 v).mpr hv)⟩
  have ia : ∀ op : AluOp, b1.toNat / 4 = op.opcodeIA.toNat → c.iaStrict = false ∨ b1.toNat / 2 % 2 = 0 →
      ∃ k : Class, k.Fits c b1 b2 := by
    intro op opcode strict
    refine ⟨.aluIA op, (top6_eq_iff ..).mpr opcode, ?_⟩
    rw [dField_eq, Bool.and_eq_false_iff, decide_eq_false_iff_not]
    exact strict.imp_right (by omega)
  have irm : ∀ op : AluOp, b1.toNat / 4 = 32 → b2.toNat / 8 % 8 = op.sel.toNat → ∃ k : Class, k.Fits c b1 b2 :=
    fun op opcode sel => ⟨.aluIRM op, (top6_eq_iff ..).mpr opcode, (regField_eq_iff ..).mpr sel⟩
  have full : ∀ v : Byte, b1.toNat = v.toNat → b1 = v := fun _ => BitVec.eq_of_toNat_eq
  simp only [Machine.acceptedPair, Bool.or_eq_true, Bool.and_eq_true, decide_eq_true_eq, beq_iff_eq, Bool.not_eq_true',
    or_assoc] at h
  rcases h with h | h | h | h | h | h | h | h | h | h | h | h | h | h | h | ⟨strict, h⟩ | ⟨h, sel⟩ | ⟨h, sel⟩ |
    ⟨h, admitted⟩
  · exact rm (.aluRM .add) 0b000000#6 (by simp; omega) id
  · exact rm (.aluRM .sub) 0b001010#6 (by simp; omega) id
  · exact rm (.aluRM .cmp) 0b001110#6 (by simp; omega) id
  · exact rm .movRM 0b100010#6 (by simp; omega) id
  · exact ⟨.movSR, .inr (full 0x8C#8 h)⟩
  · exact ⟨.movSR, .inl (full 0x8E#8 h)⟩
  · exact rm .movMA 0b101000#6 (by simp; omega) id
  · exact ⟨.movIR, (high_nibble_eq_iff ..).mpr (by simp; omega)⟩
  · obtain h | h | h | h : b1.toNat = 0xE0 ∨ b1.toNat = 0xE1 ∨ b1.toNat = 0xE2 ∨ b1.toNat = 0xE3 := by omega
    · exact ⟨.loopnz, full 0xE0#8 h⟩
    · exact ⟨.loopz, full 0xE1#8 h⟩
    · exact ⟨.loop, full 0xE2#8 h⟩
    · exact ⟨.jcxz, full 0xE3#8 h⟩
  · exact ia .add (by rw [h]; rfl) (by omega)
  · exact ia .add (by rw [h]; rfl) (by omega)
  · exact ia .sub (by rw [h]; rfl) (by omega)
  · exact ia .sub (by rw [h]; rfl) (by omega)
  · exact ia .cmp (by rw [h]; rfl) (by omega)
  · exact ia .cmp (by rw [h]; rfl) (by omega)
  · rcases h with h | h | h | h | h | h
    · exact ia .add (by rw [h]; rfl) (.inl strict)
    · exact ia .add (by rw [h]; rfl) (.inl strict)
    · exact ia .sub (by rw [h]; rfl) (.inl strict)
    · exact ia .sub (by rw [h]; rfl) (.inl strict)
    · exact ia .cmp (by rw [h]; rfl) (.inl strict)
    · exact ia .cmp (by rw [h]; rfl) (.inl strict)
  · rcases sel with sel | sel | sel
    · exact irm .add (by omega) sel
    · exact irm .sub (by omega) sel
    · exact irm .cmp (by omega) sel
  · exact ⟨.movIRM, (extract_one_seven_eq_iff ..).mpr (by simp; omega), (regField_eq_iff ..).mpr sel⟩
  · rw [← low_nibble_eq_ofNat] at admitted
    refine ⟨.jcc (condOf (b1.extractLsb' 0 4)), ?_, admitted⟩
    have high : b1.extractLsb' 4 4 = 0x7#4 := (high_nibble_eq_iff ..).mpr (by simp; omega)
    rw [bits_condOf, ← high, join_nibbles]

theorem classify_isOk_iff_acceptedPair (c : Params) (b1 b2 : Byte) :
    (∃ k, classify c b1 b2 = .ok k) ↔ Machine.acceptedPair c b1 b2 = true := by
  simp only [classify_eq_ok_iff]
  exact ⟨fun ⟨_, fits⟩ => acceptedPair_of_fits fits, fits_of_acceptedPair⟩

/-! ## The later bytes raise TruncatedInstruction alone -/

/-- The only error the answer may be is TruncatedInstruction. -/
def OnlyTruncated {α : Type} (x : Except DecodeError α) : Prop :=
  ∀ e, x = .error e → ∃ needed total, e = .truncated needed total

section
variable {α β : Type}

@[simp] theorem onlyTruncated_ok (a : α) : OnlyTruncated (.ok a) := nofun

@[simp] theorem onlyTruncated_truncated (needed total : Nat) :
    OnlyTruncated (.error (.truncated needed total) : Except DecodeError α) := by
  rintro e ⟨⟩
  exact ⟨needed, total, rfl⟩

@[simp] theorem onlyTruncated_map (f : α → β) (x : Except DecodeError α) :
    OnlyTruncated (x.map f) ↔ OnlyTruncated x := by
  cases x <;> simp [OnlyTruncated, Except.map]

end

@[simp] theorem onlyTruncated_take8 (needed total : Nat) (bs : List Byte) : OnlyTruncated (take8 needed total bs) := by
  cases bs <;> simp [take8]

@[simp] theorem onlyTruncated_take16 (needed total : Nat) (bs : List Byte) :
    OnlyTruncated (take16 needed total bs) := by
  match bs with
  | _ :: _ :: _ | [_] | [] => simp [take16]

@[simp] theorem onlyTruncated_resolveRM (total : Nat) (md : BitVec 2) (rm : BitVec 3) (tail : List Byte) :
    OnlyTruncated (resolveRM total md rm tail) := by
  unfold resolveRM
  split_ifs <;> simp

@[simp] theorem onlyTruncated_readImm (total q : Nat) (s : Bool) (w : Width) (bs : List Byte) :
    OnlyTruncated (readImm total q s w bs) := by
  cases s <;> cases w <;> simp [readImm]

@[simp] theorem onlyTruncated_readImmFrom2 (total : Nat) (w : Width) (b2 : Byte) (tail : List Byte) :
    OnlyTruncated (readImmFrom2 total w b2 tail) := by
  cases w <;> simp [readImmFrom2]

@[simp] theorem onlyTruncated_decodeRM (total : Nat) (mk : Bool → Width → RM → BitVec 3 → Instr) (b1 b2 : Byte)
    (tail : List Byte) : OnlyTruncated (decodeRM total mk b1 b2 tail) := by
  simp [decodeRM]

@[simp] theorem onlyTruncated_decodeIRM (total : Nat) (mk : Width → RM → Word → Instr) (s : Bool) (b1 b2 : Byte)
    (tail : List Byte) : OnlyTruncated (decodeIRM total mk s b1 b2 tail) := by
  have operand := onlyTruncated_resolveRM total (modField b2) (rmField b2) tail
  unfold decodeIRM
  cases h : resolveRM total (modField b2) (rmField b2) tail with
  | error e =>
    rw [h] at operand
    simpa [OnlyTruncated] using operand
  | ok p => simp

/-- Every format raises TruncatedInstruction alone, but for the check of format SR (R76). -/
theorem decodeBody_error {k : Class} {total : Nat} {b1 b2 : Byte} {tail : List Byte} {e : DecodeError}
    (h : decodeBody k total b1 b2 tail = .error e) :
    e = .illegalSegmentEncoding b1 b2 ∨ ∃ needed total, e = .truncated needed total := by
  have truncated : OnlyTruncated (decodeBody k total b1 b2 tail) →
      e = .illegalSegmentEncoding b1 b2 ∨ ∃ needed total, e = .truncated needed total := fun only => .inr (only e h)
  cases k with
  | movRM | aluRM | movIRM | aluIRM => exact truncated (by simp [decodeBody])
  | movMA => exact truncated (by simp [decodeBody, decodeMA])
  | movIR => exact truncated (by simp [decodeBody, decodeIR])
  | aluIA => exact truncated (by simp [decodeBody, decodeIA])
  | jcc | loopnz | loopz | loop | jcxz => exact truncated (onlyTruncated_ok _)
  | movSR =>
    simp only [decodeBody, decodeSR] at h
    split at h
    · cases h
      exact .inl rfl
    · have only := onlyTruncated_resolveRM total (modField b2) (rmField b2) tail
      exact .inr ((onlyTruncated_map _ _).mpr only e h)

/-- Dispatch bytes outside the byte-1 map, and these alone, decode to UnimplementedOpcode (60_exceptions.md R182). -/
theorem decode_error_unimplementedOpcode_iff (c : Params) (b1 b2 c1 c2 : Byte) (tail : List Byte) :
    decode c (b1 :: b2 :: tail) = .error (.unimplementedOpcode c1 c2) ↔
      Machine.acceptedPair c b1 b2 = false ∧ c1 = b1 ∧ c2 = b2 := by
  have accepted := classify_isOk_iff_acceptedPair c b1 b2
  cases hk : classify c b1 b2 with
  | error e =>
    cases classify_error hk
    have outside : Machine.acceptedPair c b1 b2 = false := by simpa [hk] using accepted
    simp [decode, hk, outside, eq_comm]
  | ok k =>
    have inside : Machine.acceptedPair c b1 b2 = true := by simpa [hk] using accepted
    have other : decodeBody k (b1 :: b2 :: tail).length b1 b2 tail ≠ .error (.unimplementedOpcode c1 c2) := by
      intro h
      rcases decodeBody_error h with h | ⟨_, _, h⟩ <;> cases h
    simpa [decode, hk, inside] using other

end Sys2Proof
end

section
/-! PROOFS. The step and the run (50_step_cycle.md R171 to R174, R180): what a fetch hands to `exec`, which conditions a
step raises, when it refuses, and that a run's outcome is stable. -/

namespace Sys2Proof.Machine

/-! ## The step -/

/-- A step runs what was decoded: no decoded instruction has an advance below 2 (30_encoding.md R96). -/
theorem step_eq_exec {s : State} {i : Instr} {len : Nat} (launched : s.launchOk = true) (running : s.halted = false)
    (h : decode s.launch.params (s.codeFrom s.ip) = .ok (i, len)) : step s = exec i s := by
  have accepted := accepted_decode h
  have advance : 2 ≤ len := by
    rw [show len = i.length from accepted.length_eq]
    exact (length_bounds accepted.wf).1
  simp [step, launched, running, fetch, h, Nat.not_lt.mpr advance]

theorem step_eq_decodeFault {s : State} {e : DecodeError} (launched : s.launchOk = true) (running : s.halted = false)
    (h : decode s.launch.params (s.codeFrom s.ip) = .error e) : step s = .fault (decodeFault s.ip e) := by
  simp [step, launched, running, fetch, h, raise]

/-- With a byte at IP the run has not ended. -/
theorem halted_of_codeFrom_cons {s : State} {b : Byte} {bs : List Byte} (h : s.codeFrom s.ip = b :: bs) :
    s.halted = false :=
  (halted_eq_false_iff s).mpr (by simp [h])

/-- Every fault of a step is the decoder's, with the offset IP, or MemoryRangeFault. -/
theorem step_fault {s : State} {f : Fault} (h : step s = .fault f) :
    (∃ e, decode s.launch.params (s.codeFrom s.ip) = .error e ∧ f = decodeFault s.ip e) ∨ f = topWordFault s.ip := by
  rcases step_cases s with ⟨-, e⟩ | ⟨-, -, e⟩ | ⟨launched, running, -⟩
  · rw [e] at h
    cases h
  · rw [e] at h
    cases h
  · cases hd : decode s.launch.params (s.codeFrom s.ip) with
    | error e =>
      rw [step_eq_decodeFault launched running hd] at h
      cases h
      exact .inl ⟨e, rfl, rfl⟩
    | ok r =>
      rw [step_eq_exec launched running hd] at h
      rcases exec_spec r.1 s with ⟨-, t, e, -⟩ | ⟨-, e⟩
      · rw [e] at h
        cases h
      · rw [e] at h
        cases h
        exact .inr rfl

/-- Settles O12: the advance of a decoded instruction is at least 2, so the fetch hands it to `exec`. -/
theorem stepRunsDecodedInstruction : Obligations.StepRunsDecodedInstruction :=
  fun _ _ _ launched running h => step_eq_exec launched running h

/-- Settles O13: the fetch adds the offset to the decoder's condition, and raising it is the whole outcome. -/
theorem stepRaisesDecodeConditions : Obligations.StepRaisesDecodeConditions :=
  fun _ _ launched running h => step_eq_decodeFault launched running h

/-- Settles O4: an advance is the length of a well-formed instruction, so no fetch finds one below 2. -/
theorem advanceIsTwoToSix : Obligations.AdvanceIsTwoToSix := by
  refine ⟨fun c bs i len h => ?_, fun s p h => ?_⟩
  · have accepted := accepted_decode h
    rw [show len = i.length from accepted.length_eq]
    exact length_bounds accepted.wf
  · rcases step_fault h with ⟨e, -, h⟩ | h
    · cases e <;> cases h
    · cases h

/-- Settles O5: the decoder answers UnimplementedOpcode outside the byte-1 map alone, with the two bytes, and no other
stop of a step is one. -/
theorem unimplementedOpcodes : Obligations.UnimplementedOpcodes := by
  intro s b1 b2 tail launched code
  have outside : ∀ p c1 c2, step s = .fault (.unimplementedOpcode p c1 c2) →
      acceptedPair s.launch.params b1 b2 = false ∧ p = s.ip ∧ c1 = b1 ∧ c2 = b2 := by
    intro p c1 c2 h
    rcases step_fault h with ⟨e, hd, h⟩ | h
    · cases e with
      | unimplementedOpcode d1 d2 =>
        cases h
        rw [code, decode_error_unimplementedOpcode_iff] at hd
        exact ⟨hd.1, rfl, hd.2⟩
      | illegalSegmentEncoding | truncated => cases h
    · cases h
  refine ⟨⟨fun h => (outside _ _ _ h).1, fun h => ?_⟩, fun p c1 c2 h => (outside p c1 c2 h).2⟩
  have unimplemented := (decode_error_unimplementedOpcode_iff s.launch.params b1 b2 b1 b2 tail).mpr ⟨h, rfl, rfl⟩
  rw [← code] at unimplemented
  exact step_eq_decodeFault launched (halted_of_codeFrom_cons code) unimplemented

/-- Settles O7: a single byte is never classified. -/
theorem oneByteTailIsTruncated : Obligations.OneByteTailIsTruncated := by
  intro s b launched code
  have truncated : decode s.launch.params (s.codeFrom s.ip) = .error (.truncated 2 1) := by
    rw [code]
    rfl
  exact step_eq_decodeFault launched (halted_of_codeFrom_cons code) truncated

/-- Settles O14: the launch premise and the end test are the two refusals; past them a fetch or an instruction answers a
next state or stops. -/
theorem stepRefusesOnlyAtTheEnd : Obligations.StepRefusesOnlyAtTheEnd := by
  intro s
  rw [← launchOk_iff, ← halted_iff, ← Nat.not_le, ← launchOk_iff, ← Nat.not_le, ← halted_iff]
  rcases step_cases s with ⟨hl, e⟩ | ⟨hl, hh, e⟩ | ⟨hl, hh, ⟨f, -, e⟩ | ⟨i, -, e⟩⟩
  · simp [hl, e]
  · simp [hl, hh, e]
  · simp [hl, hh, e]
  · rcases exec_spec i s with ⟨-, t, e', -⟩ | ⟨-, e'⟩ <;> simp [hl, hh, e, e']

/-! ## Runs and launches -/

theorem run_next {s t : State} (h : step s = .next t) (n : Nat) : run (n + 1) s = run n t := by simp [run, h]

theorem run_fault {s : State} {f : Fault} (h : step s = .fault f) (n : Nat) : run (n + 1) s = .abort f := by
  simp [run, h]

/-- A launch that is refused is refused at every budget. -/
theorem run_codeTooLong {s : State} (h : s.launchOk = false) (n : Nat) : run n s = .notStarted .codeTooLong := by
  cases n <;> simp [run, step, h]

/-- A run that has ended stays ended at every budget. -/
theorem run_halted {s : State} (launched : s.launchOk = true) (ended : s.halted = true) (n : Nat) :
    run n s = .final s := by
  cases n <;> simp [run, step, launched, ended]

/-- All that a first step of a run can do. -/
theorem run_cases (s : State) :
    (∀ n, run n s = .notStarted .codeTooLong) ∨ (s.halted = true ∧ ∀ n, run n s = .final s) ∨
    (run 0 s = .outOfFuel s ∧
      ((∃ t, ∀ n, run (n + 1) s = run n t) ∨ ∃ f, ∀ n, run (n + 1) s = .abort f)) := by
  rcases step_cases s with ⟨hl, -⟩ | ⟨hl, hh, -⟩ | ⟨hl, hh, ⟨f, -, e⟩ | ⟨i, -, e⟩⟩
  · exact .inl (run_codeTooLong hl)
  · exact .inr (.inl ⟨hh, run_halted hl hh⟩)
  · exact .inr (.inr ⟨by simp [run, hl, hh], .inr ⟨f, run_fault e⟩⟩)
  · refine .inr (.inr ⟨by simp [run, hl, hh], ?_⟩)
    rcases exec_spec i s with ⟨-, t, e', -⟩ | ⟨-, e'⟩
    · exact .inl ⟨t, run_next (e.trans e')⟩
    · exact .inr ⟨_, run_fault (e.trans e')⟩

/-- Settles O16: by induction on the budget: an ended run stays ended, a fault is the outcome at once, and after a step
the rest of the run has the budget that is left. -/
theorem runOutcomeIsStable : Obligations.RunOutcomeIsStable := by
  intro n k s
  induction n generalizing s with
  | zero =>
    rcases run_cases s with e | ⟨ended, e⟩ | ⟨e, -⟩
    · simp [e]
    · simpa [e] using (halted_iff s).mp ended
    · simp [e]
  | succ n ih =>
    rw [Nat.add_right_comm]
    rcases run_cases s with e | ⟨ended, e⟩ | ⟨-, ⟨t, e⟩ | ⟨f, e⟩⟩
    · simp [e]
    · simpa [e] using (halted_iff s).mp ended
    · simpa only [e] using ih t
    · simp [e]

/-- Settles O18: the empty memory is canonical and the empty buffer short; a launch's are by its hypotheses. -/
theorem launchMeetsInvariant : Obligations.LaunchMeetsInvariant := by
  refine ⟨rfl, fun code memInit c wf short => ?_⟩
  rw [State.inv, Bool.and_eq_true]
  exact ⟨wf, (launchOk_iff _).mpr short⟩

/-- Settles O20: by the definition of the reset state, register by register. -/
theorem resetLeavesZero : Obligations.ResetLeavesZero := by
  refine ⟨fun x => ?_, rfl, rfl, rfl, fun _ => rfl, fun _ _ _ => rfl⟩
  cases x <;> rfl

end Sys2Proof.Machine
end

section
/-! PROOFS. Memory accesses (20_memory.md R51, R52, R55), and what each MOV, ADD, SUB and CMP row leaves (40_mov.md R115
to R123; 41_alu.md R132 to R146). -/

namespace Sys2Proof.Machine

/-! ## Memory accesses -/

theorem highAddr_of_ne {policy : WordAtFFFF} {ea : Word} (h : ea ≠ 0xFFFF#16) : highAddr policy ea = ea.toNat + 1 :=
  if_neg h

theorem rangeFaults_of_ne {policy : WordAtFFFF} {ea : Word} (h : ea ≠ 0xFFFF#16) (w : Width) :
    rangeFaults policy ea w = false :=
  Bool.eq_false_of_not_eq_true fun e => h ((rangeFaults_iff _ _ _).mp e).2.1

theorem memRead_of_inRange {p ea : Word} {w : Width} {s : State} (h : rangeFaults s.policy ea w = false) :
    memRead p ea w s = .ok (s.mem.load s.policy ea w) := by
  simp [memRead, h]

theorem memWrite_of_inRange {p ea : Word} {w : Width} {s : State} (h : rangeFaults s.policy ea w = false)
    (v : BitVec w.bits) : memWrite p ea w v s = .ok { s with mem := s.mem.store s.policy ea w v } := by
  simp [memWrite, h]

/-- A word access at 0xFFFF is out of range at the spec's value of WORD_AT_FFFF. -/
theorem rangeFaults_top {s : State} (h : s.policy = .fault) : rangeFaults s.policy 0xFFFF#16 .word = true :=
  (rangeFaults_iff _ _ _).mpr ⟨rfl, rfl, h⟩

theorem lt_memSize (ea : Word) : ea.toNat < memSize := Nat.lt_trans ea.isLt (by decide)

/-- A word store leaves its two bytes, whatever the place of the high one (R50, R52). -/
theorem Memory.read_store_word {m : Memory} (h : m.wf = true) (policy : WordAtFFFF) (ea : Word) (v : Word) :
    (m.store policy ea .word v).read ea.toNat = v.extractLsb' 0 8 ∧
      (m.store policy ea .word v).read (highAddr policy ea) = v.extractLsb' 8 8 := by
  have wf := Memory.wf_write (v.extractLsb' 0 8) h (lt_memSize ea)
  refine ⟨?_, Memory.read_write_same _ _ wf⟩
  rw [Memory.store, Memory.read_write_other _ _ (highAddr_ne policy ea).symm, Memory.read_write_same _ _ h]

/-- A word store leaves every byte but its two alone. -/
theorem Memory.read_store_word_other (m : Memory) {policy : WordAtFFFF} {ea : Word} (v : Word) {a : Nat}
    (low : a ≠ ea.toNat) (high : a ≠ highAddr policy ea) : (m.store policy ea .word v).read a = m.read a :=
  Memory.read_store_other m (w := .word) v (by simp [accessed, low, high])

/-- Settles O25: away from 0xFFFF an access is in range, and the high byte is at the next address. -/
theorem memoryReads : Obligations.MemoryReads := by
  intro p ea s
  refine ⟨rfl, fun h => ?_, fun h policy => ?_⟩
  · rw [memRead_of_inRange (rangeFaults_of_ne h .word), Memory.load, highAddr_of_ne h]
  · subst h
    simp [memRead, rangeFaults_top policy]

/-- Settles O26: away from 0xFFFF a write is in range, and a store reaches the bytes of its width alone. -/
theorem memoryWrites : Obligations.MemoryWrites := by
  intro p ea s wf
  refine ⟨fun v => ?_, fun v h => ?_, fun v h policy => ?_⟩
  · refine ⟨{ s with mem := s.mem.store s.policy ea .byte v }, memWrite_of_inRange (w := .byte) rfl v, ?_,
      fun a ha => ?_, rfl, rfl, rfl⟩
    · exact Memory.read_write_same _ _ wf
    · exact Memory.read_write_other _ _ ha
  · have stored := Memory.read_store_word wf s.policy ea v
    rw [highAddr_of_ne h] at stored
    refine ⟨_, memWrite_of_inRange (rangeFaults_of_ne h .word) v, stored.1, stored.2, fun a low high => ?_, rfl, rfl,
      rfl⟩
    exact Memory.read_store_word_other _ v low (by rwa [highAddr_of_ne h])
  · subst h
    simp [memWrite, rangeFaults_top policy]

/-- Settles O27: both readings put the high byte at `hi`, and neither refuses the access. -/
theorem topWordUnderOtherPolicies : Obligations.TopWordUnderOtherPolicies := by
  intro p s hi reading wf
  have inRange : rangeFaults s.policy 0xFFFF#16 .word = false := by
    rcases reading with ⟨policy, -⟩ | ⟨policy, -⟩ <;> rw [policy] <;> rfl
  have high : highAddr s.policy 0xFFFF#16 = hi := by
    rcases reading with ⟨policy, rfl⟩ | ⟨policy, rfl⟩ <;> rw [policy] <;> rfl
  refine ⟨?_, fun v => ?_⟩
  · rw [memRead_of_inRange inRange, Memory.load, high]
    rfl
  · have stored := Memory.read_store_word wf s.policy 0xFFFF#16 v
    rw [high] at stored
    exact ⟨_, memWrite_of_inRange inRange v, stored.1, stored.2, fun a low ha =>
      Memory.read_store_word_other _ v low (by rwa [high])⟩

/-! ## A word at 0xFFFF stops the instruction -/

theorem Place.not_ready_of_top {m : MemOperand} {s : State} (policy : s.policy = .fault)
    (top : m.ea s.regs = 0xFFFF#16) : (Place.mem m : Place .word).ready s = false := by
  rw [Place.ready_mem, top, rangeFaults_top policy]
  rfl

/-- Settles O28: each form reads or writes the operand, which cannot be accessed. -/
theorem topWordAccessStops : Obligations.TopWordAccessStops := by
  intro s policy
  have direct : (directPlace .word 0xFFFF#16).ready s = false :=
    Place.not_ready_of_top policy (MemOperand.ea_direct _ _)
  refine ⟨fun rm m r imm sr sb i operand top mem => exec_stops ?_, exec_stops ?_, exec_stops ?_⟩
  · have notReady : (rmPlace .word rm).ready s = false := by
      rw [operand]
      exact Place.not_ready_of_top policy top
    simp only [List.mem_cons, List.not_mem_nil, or_false] at mem
    rcases mem with rfl | rfl | rfl | rfl | rfl | rfl | rfl | rfl | rfl | rfl | rfl | rfl | rfl | rfl <;>
      simp [shapeOf, Shape.ready, notReady]
  · simp [shapeOf, Shape.ready, direct]
  · simp [shapeOf, Shape.ready, direct]

/-! ## MOV -/

/-- A MOV whose operands can be accessed completes: value, IP and flags (40_mov.md R115). -/
theorem moveOp_result {w : Width} {len : Nat} {dst : Place w} {src : Source w} {s : State}
    (hs : src.ready s = true) (hd : dst.ready s = true) :
    ∃ t, moveOp len dst src s = .next t ∧ (s.mem.wf = true ∨ dst.cells s = [] → dst.value t = src.value s) ∧
      t.ip = s.ip + BitVec.ofNat 16 len ∧ t.flags = s.flags := by
  obtain ⟨t, e, written⟩ := moveOp_completes (len := len) hs hd
  refine ⟨t, e, fun h => written.value ?_, written.ip, written.flags⟩
  rwa [Place.cells_advance]

theorem moveOp_changesOnly {w : Width} {len : Nat} {dst : Place w} {src : Source w} {s t : State}
    (h : moveOp len dst src s = .next t) : ChangesOnly dst s t ∧ t.flags = s.flags := by
  obtain ⟨-, -, written⟩ := moveOp_next h
  obtain ⟨regs, mem, launch⟩ := written.only
  exact ⟨⟨regs, fun a ha => mem a (by rwa [Place.cells_advance]), launch⟩, written.flags⟩

theorem changesOnly_of_move {i : Instr} {w : Width} {len : Nat} {dst : Place w} {src : Source w} {s t : State}
    (row : shapeOf i = .move w len dst src) (h : exec i s = .next t) : ChangesOnly dst s t ∧ t.flags = s.flags := by
  rw [exec_eq_shape, row] at h
  exact moveOp_changesOnly h

/-- Settles O35: both rows are `moveOp` with a register, always ready, on the other side. -/
theorem movBetweenRegisterAndPlace : Obligations.MovBetweenRegisterAndPlace := by
  intro w rm r s ready
  constructor
  · obtain ⟨t, e, value, rest⟩ := moveOp_result (len := 2 + rm.dispLen) (src := .place (regPlace w r)) rfl ready
    exact ⟨t, e, fun wf => value (.inl wf), rest⟩
  · obtain ⟨t, e, value, rest⟩ := moveOp_result (len := 2 + rm.dispLen) (src := .place (rmPlace w rm))
      (dst := regPlace w r) ready rfl
    exact ⟨t, e, value (.inr rfl), rest⟩

/-- Settles O36: both rows are `moveOp` with an immediate, cut to the operation width, as the source. -/
theorem movImmediate : Obligations.MovImmediate := by
  constructor
  · intro w rm imm s ready
    obtain ⟨t, e, value, rest⟩ := moveOp_result (len := 2 + rm.dispLen + w.immLen) (src := .imm imm) rfl ready
    exact ⟨t, e, fun wf => value (.inl wf), rest⟩
  · intro w r imm s
    obtain ⟨t, e, value, rest⟩ := moveOp_result (len := 1 + w.immLen) (src := .imm imm) (dst := regPlace w r) (s := s)
      rfl rfl
    exact ⟨t, e, value (.inr rfl), rest⟩

theorem directPlace_ready {w : Width} {addr : Word} {s : State} (inRange : rangeFaults s.policy addr w = false) :
    (directPlace w addr).ready s = true := by
  rw [directPlace, Place.ready_mem, MemOperand.ea_direct, inRange]
  rfl

theorem directPlace_value (w : Width) (addr : Word) (s : State) :
    (directPlace w addr).value s = s.mem.load s.policy addr w := by
  rw [directPlace, Place.value, MemOperand.ea_direct]

/-- Settles O37: both rows are `moveOp` on the accumulator and the direct operand, whose address is the constant. -/
theorem movAccumulatorMemory : Obligations.MovAccumulatorMemory := by
  intro w addr s inRange
  have ready := directPlace_ready inRange
  constructor
  · obtain ⟨t, e, value, rest⟩ := moveOp_result (len := 3) (src := .place (directPlace w addr)) (dst := .reg (acc w))
      ready rfl
    refine ⟨t, e, ?_, rest⟩
    rw [← directPlace_value]
    exact value (.inr rfl)
  · obtain ⟨t, e, value, rest⟩ := moveOp_result (len := 3) (src := .place (.reg (acc w))) rfl ready
    have launch : t.launch = s.launch := (moveOp_changesOnly e).1.2.2
    have policy : t.policy = s.policy := congrArg (fun l => l.params.wordAtFFFF) launch
    refine ⟨t, e, fun wf => ?_, rest⟩
    rw [← policy, ← directPlace_value]
    exact value (.inl wf)

/-- Settles O38: both rows are `moveOp` at word width with the segment register, a whole slot, on the other side. -/
theorem movSegment : Obligations.MovSegment := by
  intro sr rm s ready
  constructor
  · obtain ⟨t, e, value, rest⟩ := moveOp_result (len := 2 + rm.dispLen) (src := .place (rmPlace .word rm))
      (dst := .reg (segReg sr)) ready rfl
    exact ⟨t, e, value (.inr rfl), rest⟩
  · obtain ⟨t, e, value, rest⟩ := moveOp_result (len := 2 + rm.dispLen) (src := .place (.reg (segReg sr))) rfl ready
    exact ⟨t, e, fun wf => value (.inl wf), rest⟩

/-- Settles O39: all eight rows are `moveOp`, which changes its destination alone. -/
theorem movChangesOnlyItsDestination : Obligations.MovChangesOnlyItsDestination := by
  intro w rm r imm addr sr s t
  exact ⟨changesOnly_of_move rfl, changesOnly_of_move rfl, changesOnly_of_move rfl, changesOnly_of_move rfl,
    changesOnly_of_move rfl, changesOnly_of_move rfl, changesOnly_of_move rfl, changesOnly_of_move rfl⟩

/-! ## ADD, SUB, CMP -/

/-- Settles O44: the three rows are `aluOp` with a register as the source. -/
theorem aluRegisterIntoPlace : Obligations.AluRegisterIntoPlace := by
  intro op mk mem w rm r s ready
  have row : exec (mk w rm r) s = aluOp op (2 + rm.dispLen) (rmPlace w rm) (.place (regPlace w r)) s := by
    simp only [List.mem_cons, Prod.mk.injEq, List.not_mem_nil, or_false] at mem
    rcases mem with ⟨rfl, rfl⟩ | ⟨rfl, rfl⟩ | ⟨rfl, rfl⟩ <;> rfl
  obtain ⟨t, e, done⟩ := aluOp_completes (op := op) (len := 2 + rm.dispLen) (src := .place (regPlace w r)) ready rfl
  exact ⟨t, row.trans e, done.flags, fun h wf => done.stored h (.inl wf), done.compared, done.ip⟩

/-- Settles O45: the three rows are `aluOp` with a register as the destination. -/
theorem aluPlaceIntoRegister : Obligations.AluPlaceIntoRegister := by
  intro op mk mem w rm r s ready
  have row : exec (mk w r rm) s = aluOp op (2 + rm.dispLen) (regPlace w r) (.place (rmPlace w rm)) s := by
    simp only [List.mem_cons, Prod.mk.injEq, List.not_mem_nil, or_false] at mem
    rcases mem with ⟨rfl, rfl⟩ | ⟨rfl, rfl⟩ | ⟨rfl, rfl⟩ <;> rfl
  obtain ⟨t, e, done⟩ := aluOp_completes (op := op) (len := 2 + rm.dispLen) (dst := regPlace w r)
    (src := .place (rmPlace w rm)) rfl ready
  exact ⟨t, row.trans e, done.flags, fun h => done.stored h (.inr rfl), fun h => (done.compared h).1, done.mem rfl,
    done.ip⟩

/-- Settles O46: the three rows are `aluOp` with an immediate as the source; the S bit acts on the length alone. -/
theorem aluImmediateIntoPlace : Obligations.AluImmediateIntoPlace := by
  intro op mk mem sb w rm imm s ready
  have row : exec (mk sb w rm imm) s = aluOp op (2 + rm.dispLen + immLenS sb w) (rmPlace w rm) (.imm imm) s := by
    simp only [List.mem_cons, Prod.mk.injEq, List.not_mem_nil, or_false] at mem
    rcases mem with ⟨rfl, rfl⟩ | ⟨rfl, rfl⟩ | ⟨rfl, rfl⟩ <;> rfl
  obtain ⟨t, e, done⟩ := aluOp_completes (op := op) (len := 2 + rm.dispLen + immLenS sb w) (src := .imm imm) ready rfl
  exact ⟨t, row.trans e, done.flags, fun h wf => done.stored h (.inl wf), done.compared, done.ip⟩

/-- Settles O47: the three rows are `aluOp` on the accumulator and an immediate, which are always ready. -/
theorem aluImmediateIntoAccumulator : Obligations.AluImmediateIntoAccumulator := by
  intro op mk mem x w imm s
  have row : exec (mk x w imm) s = aluOp op (1 + w.immLen) (.reg (acc w)) (.imm imm) s := by
    simp only [List.mem_cons, Prod.mk.injEq, List.not_mem_nil, or_false] at mem
    rcases mem with ⟨rfl, rfl⟩ | ⟨rfl, rfl⟩ | ⟨rfl, rfl⟩ <;> rfl
  obtain ⟨t, e, done⟩ := aluOp_completes (op := op) (len := 1 + w.immLen) (dst := .reg (acc w)) (src := .imm imm)
    (s := s) rfl rfl
  exact ⟨t, row.trans e, done.flags, fun h => done.stored h (.inr rfl), fun h => (done.compared h).1, done.mem rfl,
    done.ip⟩

theorem changesOnly_of_alu {i : Instr} {op : AluOp} {w : Width} {len : Nat} {dst : Place w} {src : Source w}
    {s t : State} (row : shapeOf i = .alu op w len dst src) (h : exec i s = .next t) : ChangesOnly dst s t := by
  rw [exec_eq_shape, row] at h
  exact (aluOp_next h).2.2.only

/-- Settles O48: all eight rows are `aluOp`, which changes its destination, the flags and IP alone. -/
theorem addSubChangeOnlyTheirDestination : Obligations.AddSubChangeOnlyTheirDestination := by
  intro sb w rm r imm s t
  refine ⟨?_, ?_, ?_⟩ <;> simp only [List.forall_mem_cons]
  · exact ⟨changesOnly_of_alu rfl, changesOnly_of_alu rfl, changesOnly_of_alu rfl, changesOnly_of_alu rfl,
      List.forall_mem_nil _⟩
  · exact ⟨changesOnly_of_alu rfl, changesOnly_of_alu rfl, List.forall_mem_nil _⟩
  · exact ⟨changesOnly_of_alu rfl, changesOnly_of_alu rfl, List.forall_mem_nil _⟩

/-- A CMP that completes leaves registers, memory and launch, and the SUB with the same operands completes with its
flags and IP (41_alu.md R134). -/
theorem cmp_sub {i j : Instr} {w : Width} {len : Nat} {dst : Place w} {src : Source w} {s t : State}
    (cmp : shapeOf i = .alu .cmp w len dst src) (sub : shapeOf j = .alu .sub w len dst src)
    (h : exec i s = .next t) :
    t.regs = s.regs ∧ t.mem = s.mem ∧ t.launch = s.launch ∧
      ∃ u, exec j s = .next u ∧ u.flags = t.flags ∧ u.ip = t.ip := by
  rw [exec_eq_shape, cmp, Shape.run] at h
  rw [exec_eq_shape, sub, Shape.run]
  obtain ⟨hd, hs, done⟩ := aluOp_next h
  obtain ⟨regs, mem⟩ := done.compared rfl
  obtain ⟨u, e, done'⟩ := aluOp_completes (op := .sub) (len := len) hd hs
  exact ⟨regs, mem, done.launch, u, e, done'.flags.trans done.flags.symm, done'.ip.trans done.ip.symm⟩

/-! ## Encodings that do the same -/

/-- Settles O11: the unexamined bit is no argument of the meaning, and at byte width both extensions of a byte are cut
back to it. -/
theorem ignoredBitsHaveNoEffect : Obligations.IgnoredBitsHaveNoEffect := by
  refine ⟨fun w imm s => ⟨rfl, rfl, rfl⟩, fun rm b s => ?_⟩
  have cut : immValue .byte (b.signExtend 16) = immValue .byte (b.setWidth 16) := by
    revert b
    decide
  have same : ∀ op len dst, aluOp op len dst (.imm (b.signExtend 16) : Source .byte) s =
      aluOp op len dst (.imm (b.setWidth 16)) s := by
    intro op len dst
    rw [aluOp_eq, aluOp_eq, Source.value, Source.value, cut]
    rfl
  exact ⟨same .add _ _, same .sub _ _, same .cmp _ _⟩

/-- Settles O10: with two register operands both rows resolve to the same destination and source. -/
theorem directionDuplicates : Obligations.DirectionDuplicates :=
  fun _ _ _ _ => ⟨rfl, rfl, rfl, rfl⟩

end Sys2Proof.Machine
end

section
/-! PROOFS. The ALU's results and flags: what they say of the true sum or difference, the corner cases under R134, and
the conditions after a comparison (41_alu.md R124 to R134; 42_jcc.md R147, R149). -/

namespace Sys2Proof.Machine

/-! ## The result -/

/-- Settles O40: addition and subtraction of bit vectors are modular, and CMP computes SUB's difference. -/
theorem aluResultIsModular : Obligations.AluResultIsModular := by
  intro w a b
  refine ⟨BitVec.toNat_add a b, ?_, rfl⟩
  have := b.isLt
  rw [aluResult, BitVec.toNat_sub]
  congr 1
  omega

/-! ## AF -/

section
variable {n : Nat}

theorem low_four_toNat (a : BitVec n) : (a.extractLsb' 0 4).toNat = a.toNat % 16 := by
  simp [BitVec.extractLsb'_toNat]

/-- Bit 4 of a sum differs from that of its summands' xor by the carry out of their low four bits. -/
theorem bit4_xor_add (h : 4 < n) (a b : BitVec n) :
    (a ^^^ b ^^^ (a + b)).getLsbD 4 = decide (15 < a.toNat % 16 + b.toNat % 16) := by
  have carry : BitVec.carry 4 a b false = decide (15 < a.toNat % 16 + b.toNat % 16) := by
    simp [BitVec.carry, Nat.lt_iff_add_one_le]
  rw [BitVec.getLsbD_xor, BitVec.getLsbD_xor, BitVec.getLsbD_add h, carry]
  cases a.getLsbD 4 <;> cases b.getLsbD 4 <;> simp

end

/-- A difference is what must be added to the subtrahend: R127's borrow is the carry of that sum. -/
theorem bit4_xor_sub (w : Width) (a b : BitVec w.bits) :
    (a ^^^ b ^^^ (a - b)).getLsbD 4 = decide (a.toNat % 16 < b.toNat % 16) := by
  have wide : 4 < w.bits := by cases w <;> decide
  have sum := bit4_xor_add wide (a - b) b
  rw [BitVec.sub_add_cancel] at sum
  have swap : a ^^^ b ^^^ (a - b) = (a - b) ^^^ b ^^^ a := by
    rw [BitVec.xor_comm (a ^^^ b), BitVec.xor_comm a b, BitVec.xor_assoc]
  rw [swap, sum, decide_eq_decide, BitVec.toNat_sub]
  have := a.isLt
  have := b.isLt
  cases w <;> simp only [Width.bits] at * <;> omega

/-- Settles O42: the rule's comparisons are on the low four bits, and bit 4 of the xor is their carry or borrow. -/
theorem auxiliaryCarryRules : Obligations.AuxiliaryCarryRules := by
  intro w a b
  have wide : 4 < w.bits := by cases w <;> decide
  rw [low_four_toNat, low_four_toNat]
  refine ⟨decide_eq_true_iff, fun op h => ?_, fun op => ?_⟩
  · cases op with
    | add => exact absurd rfl h
    | sub | cmp => exact decide_eq_true_iff
  · cases op with
    | add => exact (bit4_xor_add wide a b).symm
    | sub | cmp => exact (bit4_xor_sub w a b).symm

/-! ## What OF and CF say of the result -/

/-- A number keeps its value mod 2^n, read as a signed n-bit number, exactly when it is in the signed range. -/
theorem bmod_ne_iff (w : Width) (x : Int) :
    x.bmod (2 ^ w.bits) ≠ x ↔ x < -(2 ^ (w.bits - 1) : Int) ∨ 2 ^ (w.bits - 1) - 1 < x := by
  cases w <;> simp [Int.bmod, Width.bits] <;> omega

/-- Settles O43: OF is signed overflow, and a modular sum or difference is the true one unless it left the range. -/
theorem flagsSayWhatWasLost : Obligations.FlagsSayWhatWasLost := by
  intro w a b
  have := a.isLt
  have := b.isLt
  refine ⟨?_, ?_, ?_, ?_⟩
  · rw [aluFlags_of_add_iff_toInt, ← bmod_ne_iff, aluResult, BitVec.toInt_add]
  · rw [aluFlags_of_iff_toInt_of_ne_add (by decide), ← bmod_ne_iff, aluResult, BitVec.toInt_sub]
  · rw [aluFlags_cf_add_iff, aluResult, BitVec.toNat_add]
    cases w <;> simp only [Width.bits] at * <;> omega
  · rw [aluFlags_cf_iff_of_ne_add (by decide), aluResult, BitVec.toNat_sub]
    cases w <;> simp only [Width.bits] at * <;> omega

/-! ## A value with itself -/

/-- The flags of a value subtracted from or compared with itself: P and Z, at any width (the table under R134). -/
theorem aluFlags_self {op : AluOp} (h : op ≠ .add) {n : Nat} (x : BitVec n) :
    aluFlags op x x = { cf := false, pf := true, af := false, zf := true, sf := false, of := false } := by
  have zero : aluResult op x x = 0#n := by rw [aluResult_of_ne_add h, BitVec.sub_self]
  have parity : parityFlag (0#n) = true := by simp [parityFlag, popcount]
  cases op with
  | add => exact absurd rfl h
  | sub | cmp => simp [aluFlags, zero, parity, carryFlag, auxFlag, overflowFlag]

theorem aluResult_add_self {n : Nat} (x : BitVec n) : (aluResult .add x x).toNat = 2 * x.toNat % 2 ^ n := by
  rw [aluResult, BitVec.toNat_add, Nat.two_mul]

/-- Settles O49: CMP stores nothing and its flags are SUB's; the rows of the table with fixed operands are computed,
those with a value and itself hold of every value. -/
theorem cmpWritesNothing : Obligations.CmpWritesNothing := by
  refine ⟨?cmp, ?bytes, ?words, ?self⟩
  case cmp =>
    intro sb w rm r imm i j s t mem h
    simp only [List.mem_cons, Prod.mk.injEq, List.not_mem_nil, or_false] at mem
    rcases mem with ⟨rfl, rfl⟩ | ⟨rfl, rfl⟩ | ⟨rfl, rfl⟩ | ⟨rfl, rfl⟩ <;>
      exact cmp_sub rfl rfl h
  case bytes =>
    intro op a b r f mem
    simp only [List.mem_cons, Prod.mk.injEq, List.not_mem_nil, or_false] at mem
    rcases mem with ⟨rfl, rfl, rfl, rfl, rfl⟩ | ⟨rfl, rfl, rfl, rfl, rfl⟩ | ⟨rfl, rfl, rfl, rfl, rfl⟩ |
      ⟨rfl, rfl, rfl, rfl, rfl⟩ | ⟨rfl, rfl, rfl, rfl, rfl⟩ | ⟨rfl, rfl, rfl, rfl, rfl⟩ <;> decide
  case words =>
    intro op a b r f mem
    simp only [List.mem_cons, Prod.mk.injEq, List.not_mem_nil, or_false] at mem
    rcases mem with ⟨rfl, rfl, rfl, rfl, rfl⟩ | ⟨rfl, rfl, rfl, rfl, rfl⟩ | ⟨rfl, rfl, rfl, rfl, rfl⟩ |
      ⟨rfl, rfl, rfl, rfl, rfl⟩ <;> decide
  case self =>
    intro w x
    refine ⟨?_, ?_, aluResult_add_self x⟩
    · rw [aluResult, BitVec.sub_self]
      rfl
    · rw [aluFlags_self (by decide)]
      rfl

/-- Settles O50: both operands are the register's old value. -/
theorem registerWithItself : Obligations.RegisterWithItself := by
  intro w r s
  have row : ∀ op, ∃ t, aluOp op 2 (regPlace w r) (.place (regPlace w r)) s = .next t ∧
      AluDone op 2 (regPlace w r) (.place (regPlace w r)) s t := fun op => aluOp_completes rfl rfl
  refine ⟨?sub, ?cmp, ?add⟩
  case sub =>
    obtain ⟨t, e, done⟩ := row .sub
    have value : t.regs.readReg (regOf w r) = _ := done.stored (by decide) (.inr rfl)
    refine ⟨t, e, ?_, done.flags.trans (aluFlags_self (by decide) _)⟩
    rw [value, aluResult, Source.value, BitVec.sub_self]
    rfl
  case cmp =>
    obtain ⟨t, e, done⟩ := row .cmp
    exact ⟨t, e, (done.compared rfl).1, done.flags.trans (aluFlags_self (by decide) _)⟩
  case add =>
    obtain ⟨t, e, done⟩ := row .add
    have value : t.regs.readReg (regOf w r) = _ := done.stored (by decide) (.inr rfl)
    exact ⟨t, e, (congrArg BitVec.toNat value).trans (aluResult_add_self _)⟩

/-! ## The conditions -/

/-- The pairs of conditions whose codes differ in bit 0 alone (42_jcc.md R147). -/
theorem odd_condition : ∀ cc : BitVec 4, cc.getLsbD 0 = true →
    (condOf cc, condOf (cc - 1#4)) ∈ [(Cond.no, Cond.o), (.nb, .b), (.ne, .e), (.a, .be), (.ns, .s), (.np, .p),
      (.nl, .l), (.g, .le)] := by
  decide

/-- Settles O51: the eight tests are the evaluator's own, and each odd code is paired with its complement. -/
theorem conditionTable : Obligations.ConditionTable := by
  intro f
  refine ⟨Iff.rfl, Iff.rfl, Iff.rfl, ?_, Iff.rfl, Iff.rfl, ?_, ?_, fun cc odd => ?_⟩
  · simp [evalCond]
  · simp [evalCond]
  · simp [evalCond]
  · have pair := odd_condition cc odd
    simp only [List.mem_cons, Prod.mk.injEq, List.not_mem_nil, or_false] at pair
    rcases pair with ⟨e, e'⟩ | ⟨e, e'⟩ | ⟨e, e'⟩ | ⟨e, e'⟩ | ⟨e, e'⟩ | ⟨e, e'⟩ | ⟨e, e'⟩ | ⟨e, e'⟩ <;>
      simp only [e, e', evalCond, bne, Bool.not_not, Bool.not_or]

/-- SF and OF differ exactly when the true signed difference is negative (R128, R129). -/
theorem aluFlags_sf_ne_of_iff {op : AluOp} (h : op ≠ .add) {w : Width} (a b : BitVec w.bits) :
    (aluFlags op a b).sf ≠ (aluFlags op a b).of ↔ a.toInt < b.toInt := by
  have sign : (aluFlags op a b).sf = decide ((a.toInt - b.toInt).bmod (2 ^ w.bits) < 0) := by
    rw [← BitVec.toInt_sub, ← aluResult_of_ne_add h]
    exact BitVec.msb_eq_toInt
  have overflow : (aluFlags op a b).of = decide ((a.toInt - b.toInt).bmod (2 ^ w.bits) ≠ a.toInt - b.toInt) := by
    rw [Bool.eq_iff_iff, decide_eq_true_iff, bmod_ne_iff]
    exact aluFlags_of_iff_toInt_of_ne_add h a b
  have alo := BitVec.le_toInt a
  have ahi := BitVec.toInt_lt (x := a)
  have blo := BitVec.le_toInt b
  have bhi := BitVec.toInt_lt (x := b)
  rw [sign, overflow, ne_eq, decide_eq_decide]
  cases w <;> simp [Int.bmod, Width.bits] at * <;> omega

theorem aluFlags_zf_iff_eq {op : AluOp} (h : op ≠ .add) {n : Nat} (a b : BitVec n) :
    (aluFlags op a b).zf = true ↔ a = b := by
  rw [aluFlags_zf_iff, aluResult_of_ne_add h, ← BitVec.toNat_zero (w := n), BitVec.toNat_inj]
  exact sub_eq_zero

/-- Settles O52: ZF is equality, CF the unsigned order, and SF against OF the signed one; the other conditions are made
of these, of complements, and of the flags' own rules. -/
theorem conditionsAfterComparison : Obligations.ConditionsAfterComparison := by
  intro op w a b h
  have equal := aluFlags_zf_iff_eq h a b
  have below := aluFlags_cf_iff_of_ne_add h a b
  have less := aluFlags_sf_ne_of_iff h a b
  have overflow := aluFlags_of_iff_toInt_of_ne_add h a b
  have sign := aluFlags_sf op a b
  have parity := aluFlags_pf_iff op a b
  rw [aluResult_of_ne_add h] at sign parity
  have orderEq : a = b ↔ a.toNat = b.toNat := BitVec.toNat_inj.symm
  have signedEq : a = b ↔ a.toInt = b.toInt := BitVec.toInt_inj.symm
  generalize aluFlags op a b = f at *
  have notLess : f.sf = f.of ↔ ¬a.toInt < b.toInt := by rw [← less, ne_eq, not_not]
  have not_true : ∀ x : Bool, (!x) = true ↔ ¬x = true := by decide
  refine ⟨equal, ?ne, below, ?nb, ?be, ?above, ?l, ?nl, ?le, ?g, sign, congrArg not sign, ?no, ?o, parity, rfl⟩
  case ne => exact (not_true _).trans (not_congr equal)
  case nb => exact (not_true _).trans ((not_congr below).trans Nat.not_lt)
  case be =>
    rw [evalCond, Bool.or_eq_true, below, equal, orderEq]
    omega
  case above =>
    rw [evalCond, Bool.and_eq_true, not_true, not_true, below, equal, orderEq]
    omega
  case l => exact bne_iff_ne.trans less
  case nl => exact beq_iff_eq.trans (notLess.trans not_lt)
  case le =>
    rw [evalCond, Bool.or_eq_true, bne_iff_ne, less, equal, signedEq]
    omega
  case g =>
    rw [evalCond, Bool.and_eq_true, not_true, equal, signedEq, beq_iff_eq, notLess]
    omega
  case no =>
    rw [evalCond, not_true, overflow]
    omega
  case o => exact (Bool.not_not _).symm

end Sys2Proof.Machine
end

section
/-! PROOFS. The twenty format J rows (42_jcc.md R148, R150 to R165; 43_loop.md R166 to R170). -/

namespace Sys2Proof.Machine

/-! ## Conditional jumps -/

/-- Settles O53: each row is the jump on its own condition, and the evaluator's test of it is the formula. -/
theorem conditionalJumps : Obligations.ConditionalJumps := by
  intro rel s i taken mem
  have row : ∃ cc, shapeOf i = .jump cc rel ∧ evalCond s.flags cc = taken := by
    simp only [List.mem_cons, Prod.mk.injEq, List.not_mem_nil, or_false] at mem
    rcases mem with ⟨rfl, rfl⟩ | ⟨rfl, rfl⟩ | ⟨rfl, rfl⟩ | ⟨rfl, rfl⟩ | ⟨rfl, rfl⟩ | ⟨rfl, rfl⟩ |
      ⟨rfl, rfl⟩ | ⟨rfl, rfl⟩ | ⟨rfl, rfl⟩ | ⟨rfl, rfl⟩ | ⟨rfl, rfl⟩ | ⟨rfl, rfl⟩ |
      ⟨rfl, rfl⟩ | ⟨rfl, rfl⟩ | ⟨rfl, rfl⟩ | ⟨rfl, rfl⟩ <;>
      exact ⟨_, rfl, by simp [evalCond, bne]⟩
  obtain ⟨cc, shape, test⟩ := row
  rw [exec_eq_shape, shape, Shape.run, jumpOp_eq, test]

/-- The two's complement of a displacement byte, as the natural number that is added to IP (R148). -/
theorem signExtend_toNat (rel : Byte) : ((rel.signExtend 16).toNat : Int) = rel.toInt % 65536 := by
  revert rel; decide

/-- Settles O54: IP moves past two bytes or on by the sign-extended displacement, and its addition wraps at 2^16. -/
theorem branchTargets : Obligations.BranchTargets := by
  intro rel i s t mem h
  have branch : i.rel? = some rel := by
    simp only [List.mem_cons, List.not_mem_nil, or_false] at mem
    rcases mem with rfl | rfl | rfl | rfl | rfl | rfl | rfl | rfl | rfl | rfl | rfl | rfl | rfl | rfl | rfl | rfl |
      rfl | rfl | rfl | rfl <;> rfl
  have displacement := signExtend_toNat rel
  rcases ((ipAdvancesByLength i s t h).2 rel branch).2 with e | e
  · left
    rw [e, BitVec.toNat_add]
    rfl
  · right
    simp only [e, BitVec.toNat_add, BitVec.toNat_ofNat]
    omega

/-! ## The CX-controlled branches -/

theorem sub_one_ne_zero_iff (x : Word) : x - 1#16 ≠ 0#16 ↔ x ≠ 1#16 :=
  not_congr sub_eq_zero

/-- The three loops, on CX itself. -/
theorem loopOp_cx (flagOk : Bool) (rel : Byte) (s : State) :
    loopOp flagOk rel s = .next { s with
      regs := { s.regs with cx := s.regs.cx - 1#16 }
      ip := if s.regs.cx ≠ 1#16 ∧ flagOk = true then s.ip + 2#16 + rel.signExtend 16 else s.ip + 2#16 } := by
  have test : s.regs.get .cx - 1#16 ≠ 0#16 ↔ s.regs.cx ≠ 1#16 := sub_one_ne_zero_iff _
  rw [loopOp_eq]
  simp only [test]
  rfl

/-- Settles O55: the decremented CX is zero exactly when the old one is 1. -/
theorem loopInstructions : Obligations.LoopInstructions := by
  refine fun rel s => ⟨fun i flagOk mem => ?_, execJcxz_eq rel s⟩
  have row : exec i s = loopOp flagOk rel s := by
    simp only [List.mem_cons, Prod.mk.injEq, List.not_mem_nil, or_false] at mem
    rcases mem with ⟨rfl, rfl⟩ | ⟨rfl, rfl⟩ | ⟨rfl, rfl⟩ <;> rfl
  exact row.trans (loopOp_cx flagOk rel s)

/-- Settles O56: a word is zero exactly when its number is. -/
theorem jcxzTestsAllOfCx : Obligations.JcxzTestsAllOfCx := by
  intro rel s
  have zero : s.regs.cx.toNat = 0 ↔ s.regs.get .cx = 0#16 := BitVec.toNat_inj (y := 0#16)
  simp only [zero]
  exact execJcxz_eq rel s

/-- Settles O57: the jumps' and JCXZ's next state differs in IP alone, a loop's in IP and CX. -/
theorem branchesChangeOnlyIpAndCx : Obligations.BranchesChangeOnlyIpAndCx := by
  intro rel i s t h
  have post := exec_next h
  refine ⟨fun mem => ?_, fun mem => ?_⟩
  · have row : (∃ cc, shapeOf i = .jump cc rel) ∨ shapeOf i = .jcxz rel := by
      simp only [List.mem_cons, List.not_mem_nil, or_false] at mem
      rcases mem with rfl | rfl | rfl | rfl | rfl | rfl | rfl | rfl | rfl | rfl | rfl | rfl | rfl | rfl | rfl | rfl |
        rfl <;> simp [shapeOf]
    rcases row with ⟨cc, shape⟩ | shape <;>
    · rw [shape] at post
      cases post
      rfl
  · have row : shapeOf i = .loopnz rel ∨ shapeOf i = .loopz rel ∨ shapeOf i = .loop rel := by
      simp only [List.mem_cons, List.not_mem_nil, or_false] at mem
      rcases mem with rfl | rfl | rfl <;> simp [shapeOf]
    rcases row with shape | shape | shape <;>
    · rw [shape] at post
      cases post
      exact ⟨rfl, rfl⟩

/-- Settles O58: 0 - 1 is 0xFFFF, which is not zero, and 1 - 1 is zero. -/
theorem loopAtTheEnds : Obligations.LoopAtTheEnds := by
  intro rel s
  have loop : exec (.loop rel) s = _ := loopOp_cx true rel s
  refine ⟨fun cx => ⟨_, loop, ?_, ?_⟩, fun cx => ⟨_, loop, ?_, ?_⟩⟩ <;> simp [cx]

end Sys2Proof.Machine
end

section
/-! PROOFS. Fixed tables: the written-out words and the detection order (30_encoding.md R79 to R83; 60_exceptions.md
R191), the register numbers (10_state.md R17, R20) and the FLAGS word (R27, R28). -/

namespace Sys2Proof.Machine

/-- Settles O1: each word is decoded by computation. -/
theorem writtenOutWordsDecode : Obligations.WrittenOutWordsDecode := by
  unfold Obligations.WrittenOutWordsDecode
  decide

/-- Settles O9: each case is decoded by computation. -/
theorem detectionOrder : Obligations.DetectionOrder := by
  unfold Obligations.DetectionOrder
  decide

/-- Settles O21: each number is looked up by computation. -/
theorem registerNumbers : Obligations.RegisterNumbers :=
  ⟨rfl, rfl, rfl, rfl⟩

/-- Settles O23: the word is laid out bit by bit, for each value of the six flags. -/
theorem flagsWordLayout : Obligations.FlagsWordLayout := by
  rintro ⟨cf, pf, af, zf, sf, of⟩
  revert cf pf af zf sf of
  decide

end Sys2Proof.Machine
end
